-- ==== Sys2Proof/Word.lean ====
section
/-!
DEFINITION. The word types of the core: 32-bit words (spec/00_scope.md R8 WORD, R10) and bytes (R11).
-/

namespace Sys2Proof

/-- A 32-bit register word (00_scope.md R8, R10). `+` on it is the spec's `+32`, `^^^` its `xor`. -/
abbrev Word := BitVec 32

/-- One byte of a byte string (00_scope.md R11). -/
abbrev Byte := BitVec 8

end Sys2Proof
end

