-- ==== Sys2Proof/Syntax.lean ====
section
/-!
DEFINITION. The commands of spec/opcode_table.json, one constructor a row, with their fields as naturals of their
field's width (30_encoding.md R101 to R107). Every term has exactly one command word.
-/

namespace Sys2Proof

/-- One command (30_encoding.md R108). Which operand values a command accepts is `Instr.wellFormed`. -/
inductive Instr where
  /-- No operation (40_control.md R130). -/
  | nop
  /-- One quarter round on STATE[a], STATE[b], STATE[c], STATE[d] (41_permutation.md R148). -/
  | qr (a b c d : Fin 16)
  /-- One column round (41_permutation.md R149). -/
  | colround
  /-- One diagonal round (41_permutation.md R150). -/
  | diaground
  /-- One double round (41_permutation.md R151). -/
  | dround
  /-- Build the initial state (42_block_generator.md R176). -/
  | blkinit
  /-- Feed forward and serialise (42_block_generator.md R177). -/
  | blkfinal
  /-- One keystream block (42_block_generator.md R178). -/
  | genblock
  /-- Exclusive-or the block's first `n` bytes into DBUF (43_stream_cipher.md R190); `n` is the 7-bit field N. -/
  | scxor (n : Fin 128)
  /-- Create a MAC instance in each selected slot (46_mac.md R253); `sel`, `var` and `mod` are the fields SEL, VAR, MOD. -/
  | macinit (sel var : Fin 4) (mod : Bool)
  /-- Absorb DB[0..n-1] into each selected instance (46_mac.md R256). -/
  | macwrite (sel : Fin 4) (n : Fin 128)
  /-- Finalise each selected instance and write TAG (46_mac.md R264). -/
  | macfinal (sel : Fin 4)
deriving DecidableEq, Repr

end Sys2Proof
end

