-- ==== Sys2Proof/Decode.lean ====
section
/-!
DEFINITION. The decoder of command words (30_encoding.md R100 to R112), total on every 32-bit word and refusing by name,
and after it the encoder, written from the same formats and from the assembler words of R114.
-/

namespace Sys2Proof

/-- `x[hi:lo]` of 00_scope.md R10: bits `hi` down to `lo`, as an unsigned number. -/
def bits (w : Word) (hi lo : Nat) : Nat := w.toNat / 2 ^ lo % 2 ^ (hi + 1 - lo)

/-- Why a command word is no command: both are ILLEGAL_COMMAND to the host (30_encoding.md R109, R110). -/
inductive DecodeError where
  /-- The opcode is not in the map of R108 (30_encoding.md R110). -/
  | undefinedOpcode (op : Nat)
  /-- A bit that the opcode's format does not name is set (30_encoding.md R109). -/
  | reservedBits (op : Nat)
deriving DecidableEq, Repr

/-- `i`, if the reserved bits (given as their number) are all zero (30_encoding.md R109). -/
def ifReservedZero (op reserved : Nat) (i : Instr) : Except DecodeError Instr :=
  if reserved = 0 then .ok i else .error (.reservedBits op)

/-- The decoder of 30_encoding.md R112, with the fields of R101 to R106. -/
def decode (w : Word) : Except DecodeError Instr :=
  match bits w 31 24 with
  | 0x00 => ifReservedZero 0x00 (bits w 23 0) .nop
  | 0x01 => ifReservedZero 0x01 (bits w 23 16)
      (.qr (Fin.ofNat 16 (bits w 3 0)) (Fin.ofNat 16 (bits w 7 4)) (Fin.ofNat 16 (bits w 11 8)) (Fin.ofNat 16 (bits w 15 12)))
  | 0x02 => ifReservedZero 0x02 (bits w 23 0) .colround
  | 0x03 => ifReservedZero 0x03 (bits w 23 0) .diaground
  | 0x04 => ifReservedZero 0x04 (bits w 23 0) .dround
  | 0x05 => ifReservedZero 0x05 (bits w 23 0) .blkinit
  | 0x06 => ifReservedZero 0x06 (bits w 23 0) .blkfinal
  | 0x07 => ifReservedZero 0x07 (bits w 23 0) .genblock
  | 0x08 => ifReservedZero 0x08 (bits w 23 7) (.scxor (Fin.ofNat 128 (bits w 6 0)))
  | 0x10 => ifReservedZero 0x10 (bits w 23 5)
      (.macinit (Fin.ofNat 4 (bits w 1 0)) (Fin.ofNat 4 (bits w 3 2)) (decide (bits w 4 4 = 1)))
  | 0x11 => ifReservedZero 0x11 (bits w 23 15 + bits w 7 2)
      (.macwrite (Fin.ofNat 4 (bits w 1 0)) (Fin.ofNat 128 (bits w 14 8)))
  | 0x12 => ifReservedZero 0x12 (bits w 23 2) (.macfinal (Fin.ofNat 4 (bits w 1 0)))
  | op => .error (.undefinedOpcode op)

/-- The instruction this decoder reads from a word of the opcode table, whose bits are numbered from the least
significant bit of the one command word; bits at `nbits` and above are zero. -/
def decodeTableWord (nbits w : Nat) : Option Instr :=
  (decode (BitVec.ofNat 32 (w % 2 ^ nbits))).toOption

/-- The opcode of a command (30_encoding.md R108). -/
def opcode : Instr → Nat
  | .nop => 0x00
  | .qr _ _ _ _ => 0x01
  | .colround => 0x02
  | .diaground => 0x03
  | .dround => 0x04
  | .blkinit => 0x05
  | .blkfinal => 0x06
  | .genblock => 0x07
  | .scxor _ => 0x08
  | .macinit _ _ _ => 0x10
  | .macwrite _ _ => 0x11
  | .macfinal _ => 0x12

/-- The operand fields of a command in their places, bits [23:0] (30_encoding.md R101 to R106, R114). -/
def operandBits : Instr → Nat
  | .qr a b c d => a.val + b.val * 2 ^ 4 + c.val * 2 ^ 8 + d.val * 2 ^ 12
  | .scxor n => n.val
  | .macinit sel var mod => sel.val + var.val * 2 ^ 2 + mod.toNat * 2 ^ 4
  | .macwrite sel n => sel.val + n.val * 2 ^ 8
  | .macfinal sel => sel.val
  | .nop | .colround | .diaground | .dround | .blkinit | .blkfinal | .genblock => 0

/-- The command word of a command (30_encoding.md R100, R114). -/
def encode (i : Instr) : Word := BitVec.ofNat 32 (opcode i * 2 ^ 24 + operandBits i)

end Sys2Proof
end

