-- ==== Sys2Proof/Config.lean ====
section
/-!
DEFINITION. What the spec leaves to the implementation: the one open parameter R_CLAMP (00_scope.md R9), one mask for
each variant. Neither has a body, so a claim about the model holds for every value of either.
-/

namespace Sys2Proof

/-- R_CLAMP_V130: the 128-bit mask that MACINIT applies to the little-endian integer of key bytes 0..15 for a V130
instance (00_scope.md R9, 46_mac.md R251, 92_eei_decisions.md D21: OPEN). A free value, safe: assumption 3. -/
opaque Config.rClampV130 : BitVec 128

/-- R_CLAMP_V179: the same mask for a V179 instance (00_scope.md R9, 46_mac.md R251). A free value, safe:
assumption 3. -/
opaque Config.rClampV179 : BitVec 128

end Sys2Proof
end

