-- ==== Sys2Proof/Machine/State.lean ====
section
/-!
DEFINITION. The state of the core (10_state.md R22 to R39) and of the host agent that drives it, the reasons a step can
stop, and the state after reset (70_reset_and_hazards.md R340).
-/

namespace Sys2Proof.Machine

/-- The result codes of 60_exceptions.md R310, by name; codes 8 to 15 are never written (93_implementation_defined.md
I9). -/
inductive ResultCode where
  | ok
  | illegalCommand
  | illegalOperand
  | invalidNonceLength
  | useAfterFinalize
  /-- Reserved: no rule raises it (60_exceptions.md R317). -/
  | bufferBoundsViolation
  | notConfigured
  | dualMismatch
deriving DecidableEq, Repr

/-- The two MAC variants (00_scope.md R8); values 2 and 3 of VAR are never held (10_state.md R34). -/
inductive Variant where
  | v130
  | v179
deriving DecidableEq, Repr

/-- The registers of one MAC instance (10_state.md R34 to R38). The first five fields are the fields of MCTRL. -/
structure MacInst where
  /-- MCTRL.CONFIGURED. -/
  configured : Bool
  /-- MCTRL.FINALIZED. -/
  finalized : Bool
  /-- MCTRL.VAR. -/
  var : Variant
  /-- MCTRL.MOD. -/
  mod : Bool
  /-- MCTRL.COUNT. -/
  count : BitVec 5
  /-- H[0..5], the accumulator limbs. -/
  h : Vector Word 6
  /-- R[0..5], the multiplier limbs. -/
  r : Vector Word 6
  /-- PAD[0..3]. -/
  pad : Vector Word 4
  /-- BUF[0..5], 24 buffered bytes. -/
  buf : Vector Word 6
deriving DecidableEq, Repr

/-- The width of a bus access. The core defines only `word` (20_memory.md R73). -/
inductive Width where
  | byte
  | half
  | word
deriving DecidableEq, Repr

/-- What the outside world does to the core next: a bus read or write of the host (20_memory.md R78, R79), of any width
and address, so that the undefined ones can be refused by name, or the platform's reset (70_reset_and_hazards.md R340). -/
inductive Access where
  | read (width : Width) (addr : Nat)
  | write (width : Width) (addr : Nat) (v : Word)
  | reset
deriving DecidableEq, Repr

/-- The state: every register of 10_state.md R22 (CMD is not kept, R23), then the two fields of the host agent. -/
structure State where
  /-- STATUS.CODE (10_state.md R24). -/
  code : ResultCode
  /-- STATUS.ERR, sticky (10_state.md R24). -/
  err : Bool
  /-- ERRCMD (10_state.md R25). -/
  errcmd : Word
  /-- NONCE_LEN[7:0] (10_state.md R26). -/
  nonceLen : BitVec 8
  /-- COUNTER (10_state.md R27). -/
  counter : Word
  /-- KEY[0..15] (10_state.md R28). -/
  key : Vector Word 16
  /-- NONCE[0..3] (10_state.md R29). -/
  nonce : Vector Word 4
  /-- STATE[0..15] (10_state.md R30). -/
  state : Vector Word 16
  /-- INIT[0..15] (10_state.md R31). -/
  init : Vector Word 16
  /-- KS[0..15] (10_state.md R32). -/
  ks : Vector Word 16
  /-- DBUF[0..15] (10_state.md R33). -/
  dbuf : Vector Word 16
  /-- MAC[0] (10_state.md R34 to R38). -/
  mac0 : MacInst
  /-- MAC[1] (10_state.md R34 to R38). -/
  mac1 : MacInst
  /-- TAG[0..7] (10_state.md R39). -/
  tag : Vector Word 8
  /-- The host's input list (10_state.md R21): the accesses still to make, oldest first. The model's own field, no
  register: assumption 1. -/
  pending : List Access
  /-- The values the host's bus reads have returned, newest first (70_reset_and_hazards.md R348). The model's own field,
  no register: assumption 2. -/
  returned : List Word
deriving DecidableEq, Repr

/-- A MAC instance after reset: Unconfigured, every register 0 (70_reset_and_hazards.md R340). -/
def MacInst.reset : MacInst where
  configured := false
  finalized := false
  var := .v130
  mod := false
  count := 0
  h := Vector.replicate 6 0
  r := Vector.replicate 6 0
  pad := Vector.replicate 4 0
  buf := Vector.replicate 6 0

/-- The machine right after reset: every register 0 (10_state.md R22, 70_reset_and_hazards.md R340); no access of the
host waits and none has returned (DESIGN CHOICE, assumptions 1 and 2). -/
def State.reset : State where
  code := .ok
  err := false
  errcmd := 0
  nonceLen := 0
  counter := 0
  key := Vector.replicate 16 0
  nonce := Vector.replicate 4 0
  state := Vector.replicate 16 0
  init := Vector.replicate 16 0
  ks := Vector.replicate 16 0
  dbuf := Vector.replicate 16 0
  mac0 := MacInst.reset
  mac1 := MacInst.reset
  tag := Vector.replicate 8 0
  pending := []
  returned := []

/-- The reasons to stop with a fault: NONE. "The core never halts, hangs or faults. It has no stuck state"
(70_reset_and_hazards.md R348): an error is a result code that the command leaves in STATUS (60_exceptions.md R310).
No constructor, so no step can answer a fault; that the core goes on is the spec's own rule (DEDUCED, safe: assumption 4). -/
inductive Fault where
deriving DecidableEq, Repr

/-- The reasons to refuse (DESIGN CHOICE, safe: assumption 5). Each bus refusal is raised by the bus (`busAction`) and is what 20_memory.md R73 asks of a
model: "A model must refuse it (give the host no step)". All are safe: the model stops where the spec says nothing. -/
inductive Refusal where
  /-- Raised by `exec` for an instruction with no meaning yet; no instruction is left so. Safe. -/
  | notModelled (mnemonic : String)
  /-- Raised by the bus for an 8-bit or 16-bit access (20_memory.md R73, 93 I11). Safe. -/
  | narrowAccess
  /-- Raised by the bus for a 32-bit access at or above 0x400 (20_memory.md R73, 93 I11). Safe. -/
  | outsideRegisterSpace
  /-- Raised by the bus for a 32-bit access below 0x400 whose address is no multiple of 4 (20_memory.md R73, 93 I11).
  Safe. -/
  | unalignedAccess
deriving DecidableEq, Repr

/-- The outcome of a command or of a step. -/
abbrev Result := Host.Outcome State Fault Refusal

end Sys2Proof.Machine
end

