-- ==== Sys2Proof/Machine/Params.lean ====
section
/-!
DEFINITION. The fixed parameters of 00_scope.md R8 and the constants of a variant (44_limb_engine.md R210), each literal
defined once (93_implementation_defined.md I1). The open parameter R_CLAMP stands in Config.
-/

namespace Sys2Proof.Machine

/-- ROT, the left rotation of the first group of a quarter round (00_scope.md R8, 41_permutation.md R140). -/
def rot1 : Nat := 10
/-- ROT, the second group. -/
def rot2 : Nat := 14
/-- ROT, the third group. -/
def rot3 : Nat := 6
/-- ROT, the fourth group. -/
def rot4 : Nat := 9

/-- QR_CONST, added once, after the first rotation (00_scope.md R8, 41_permutation.md R140). -/
def qrConst : Word := 1

/-- SIGMA, the four constant words of the initial state (00_scope.md R8, 42_block_generator.md R170). -/
def sigma : Vector Word 4 := #v[0x61707865, 0x3320646e, 0x79622d32, 0x6b206574]

/-- ROUNDS = 24 rounds = 12 double rounds (00_scope.md R8). -/
def doubleRounds : Nat := 12

/-- NONCE_BYTES: the length NONCE_LEN must hold (00_scope.md R8, 42_block_generator.md R174). -/
def nonceBytes : Nat := 16

/-- The most bytes one SCXOR or MACWRITE takes from DBUF (00_scope.md R8 DBUF_BYTES, 30_encoding.md R111). -/
def chunkBytes : Nat := 64

/-- N, limbs of a variant (44_limb_engine.md R210). -/
def limbCount : Variant → Nat
  | .v130 => 5
  | .v179 => 6

/-- b, bits of a limb (44_limb_engine.md R210). -/
def limbBits : Variant → Nat
  | .v130 => 26
  | .v179 => 29

/-- K = N * b (44_limb_engine.md R210, 90_conflicts.md C1). -/
def valueBits (var : Variant) : Nat := limbCount var * limbBits var

/-- The constant of the fold `2^K ≡ 5 (mod P)` (45_modular_reducer.md R230). -/
def foldFactor : Nat := 5

/-- P = 2^K - 5 (44_limb_engine.md R210, 45_modular_reducer.md R230). -/
def modulus (var : Variant) : Nat := 2 ^ valueBits var - foldFactor

/-- B, bytes of a block (44_limb_engine.md R210). -/
def blockBytes : Variant → Nat
  | .v130 => 16
  | .v179 => 24

/-- L, bytes of a tag (44_limb_engine.md R210). -/
def tagBytes : Variant → Nat
  | .v130 => 16
  | .v179 => 24

/-- R_CLAMP of a variant (00_scope.md R9): the open parameter, as Config holds it. -/
def rClamp : Variant → BitVec 128
  | .v130 => Config.rClampV130
  | .v179 => Config.rClampV179

end Sys2Proof.Machine
end

