-- ==== Sys2Proof/Machine/Ops.lean ====
section
/-!
DEFINITION. The shared operations: the byte view of a register array (20_memory.md R76), little-endian integers
(00_scope.md R11), the way a command ends (00_scope.md R14, 60_exceptions.md R314, R320), which is all this core has of
taking an exception (60_exceptions.md R321, R322), and the choice of MAC instances by SEL (30_encoding.md R107).
-/

namespace Sys2Proof.Machine

/-- Byte `k` of a register array: bits `[8(k mod 4)+7 : 8(k mod 4)]` of word `k div 4` (20_memory.md R76). -/
def getByte {n : Nat} (ws : Vector Word n) (k : Nat) : Byte :=
  (ws.getD (k / 4) 0).extractLsb' (8 * (k % 4)) 8

/-- The word whose bytes, least significant first, are the four given (00_scope.md R11, LE32). -/
def packBytes (b0 b1 b2 b3 : Byte) : Word := b3 ++ b2 ++ b1 ++ b0

/-- The register array whose byte `k` is `f k` (20_memory.md R76). -/
def ofBytes {n : Nat} (f : Nat → Byte) : Vector Word n :=
  Vector.ofFn fun i => packBytes (f (4 * i.val)) (f (4 * i.val + 1)) (f (4 * i.val + 2)) (f (4 * i.val + 3))

/-- The register array `ws` with byte `k` replaced (20_memory.md R76). -/
def setByte {n : Nat} (ws : Vector Word n) (k : Nat) (x : Byte) : Vector Word n :=
  ofBytes fun j => if j = k then x else getByte ws j

/-- Bytes `start` to `start + len - 1` of a register array. -/
def byteSlice {n : Nat} (ws : Vector Word n) (start len : Nat) : List Byte :=
  (List.range len).map fun k => getByte ws (start + k)

/-- LEINT of 00_scope.md R11. -/
def leInt : List Byte → Nat
  | [] => 0
  | x :: xs => x.toNat + 256 * leInt xs

/-- BYTES_LE(v, n) of 00_scope.md R11. -/
def bytesLE (v n : Nat) : List Byte :=
  (List.range n).map fun k => BitVec.ofNat 8 (v / 2 ^ (8 * k))

/-- `complete`: the command ends with result code OK; ERR and ERRCMD keep their values (00_scope.md R14,
60_exceptions.md R320). -/
def complete (s : State) : Result := .next { s with code := .ok }

/-- `raise e`: the command with word `w` ends with result code `e`; only STATUS and ERRCMD change (00_scope.md R14,
60_exceptions.md R314, R320). No trap is taken: nothing is saved and control goes nowhere (60_exceptions.md R321), so
there is nothing to return from (R322). A meaning gives `encode` of its command as the word: it is the word the host
wrote, since a command has one word (DEDUCED, assumption 10). -/
def raise (w : Word) (e : ResultCode) (s : State) : Result :=
  .next { s with code := e, err := true, errcmd := w }

/-- ILLEGAL_COMMAND for a word that is no command (30_encoding.md R109, R110, 60_exceptions.md R311). -/
def illegalCommand (w : Word) (s : State) : Result := raise w .illegalCommand s

/-- The registers of MAC instance `m` (00_scope.md R12). -/
def macOf (s : State) (m : Fin 2) : MacInst := if m = 0 then s.mac0 else s.mac1

/-- Instance `m` is selected when `SEL[m] = 1` (30_encoding.md R107). -/
def selected (sel : Fin 4) (m : Fin 2) : Bool := sel.val.testBit m.val

/-- Some selected instance has the property. -/
def someSelected (sel : Fin 4) (p : MacInst → Bool) (s : State) : Bool :=
  (selected sel 0 && p s.mac0) || (selected sel 1 && p s.mac1)

/-- `for each m with SEL[m] == 1`: the two instances are independent, so each becomes a function of itself
(47_dual_mac.md R292). -/
def updateSelected (sel : Fin 4) (f : Fin 2 → MacInst → MacInst) (s : State) : State :=
  { s with
    mac0 := if selected sel 0 then f 0 s.mac0 else s.mac0
    mac1 := if selected sel 1 then f 1 s.mac1 else s.mac1 }

end Sys2Proof.Machine
end

