-- ==== Sys2Proof/Machine/Flags.lean ====
section
/-!
DEFINITION. The core has no arithmetic condition codes (10_state.md R42); its flags are the fields of STATUS and of the
two MCTRL registers, whose words a bus read sees are computed here (20_memory.md R79).
-/

namespace Sys2Proof.Machine

/-- The number of a result code (60_exceptions.md R310). -/
def codeNumber : ResultCode → Nat
  | .ok => 0
  | .illegalCommand => 1
  | .illegalOperand => 2
  | .invalidNonceLength => 3
  | .useAfterFinalize => 4
  | .bufferBoundsViolation => 5
  | .notConfigured => 6
  | .dualMismatch => 7

/-- The number of a variant in VAR (10_state.md R34). -/
def variantNumber : Variant → Nat
  | .v130 => 0
  | .v179 => 1

/-- STATUS as the host reads it: CODE in [3:0], ERR in [8], the rest 0 (10_state.md R24, 20_memory.md R79). -/
def statusWord (s : State) : Word :=
  BitVec.ofNat 32 (s.err.toNat * 2 ^ 8 + codeNumber s.code)

/-- MCTRL as the host reads it: COUNT in [12:8], MOD in [4], VAR in [3:2], FINALIZED in [1], CONFIGURED in [0], the rest
0 (10_state.md R34, 20_memory.md R79). -/
def mctrlWord (I : MacInst) : Word :=
  BitVec.ofNat 32 (I.count.toNat * 2 ^ 8 + I.mod.toNat * 2 ^ 4 + variantNumber I.var * 2 ^ 2
    + I.finalized.toNat * 2 + I.configured.toNat)

end Sys2Proof.Machine
end

