-- ==== Sys2Proof/Machine/Bus.lean ====
section
/-!
DEFINITION. The register space (20_memory.md R70 to R79): BusRead, BusWrite to every offset but CMD, and what an access of
the host asks of the core.
-/

namespace Sys2Proof.Machine

/-- The register at offset `o` of a MAC instance's block (20_memory.md R72); reserved offsets read as 0 (R74). -/
def macBlockRead (I : MacInst) (o : Nat) : Word :=
  if o = 0x00 then mctrlWord I
  else if 0x04 ≤ o ∧ o < 0x1C then I.h.getD ((o - 0x04) / 4) 0
  else if 0x20 ≤ o ∧ o < 0x38 then I.r.getD ((o - 0x20) / 4) 0
  else if 0x40 ≤ o ∧ o < 0x50 then I.pad.getD ((o - 0x40) / 4) 0
  else if 0x50 ≤ o ∧ o < 0x68 then I.buf.getD ((o - 0x50) / 4) 0
  else 0

/-- BusRead (20_memory.md R71, R79) at an aligned address below 0x400; CMD and every reserved offset read as 0. -/
def busRead (s : State) (addr : Nat) : Word :=
  if addr = 0x004 then statusWord s
  else if addr = 0x008 then s.errcmd
  else if addr = 0x00C then s.nonceLen.setWidth 32
  else if addr = 0x010 then s.counter
  else if 0x040 ≤ addr ∧ addr < 0x080 then s.key.getD ((addr - 0x040) / 4) 0
  else if 0x080 ≤ addr ∧ addr < 0x090 then s.nonce.getD ((addr - 0x080) / 4) 0
  else if 0x100 ≤ addr ∧ addr < 0x140 then s.state.getD ((addr - 0x100) / 4) 0
  else if 0x140 ≤ addr ∧ addr < 0x180 then s.init.getD ((addr - 0x140) / 4) 0
  else if 0x180 ≤ addr ∧ addr < 0x1C0 then s.ks.getD ((addr - 0x180) / 4) 0
  else if 0x1C0 ≤ addr ∧ addr < 0x200 then s.dbuf.getD ((addr - 0x1C0) / 4) 0
  else if 0x200 ≤ addr ∧ addr < 0x280 then macBlockRead s.mac0 (addr - 0x200)
  else if 0x280 ≤ addr ∧ addr < 0x300 then macBlockRead s.mac1 (addr - 0x280)
  else if 0x300 ≤ addr ∧ addr < 0x320 then s.tag.getD ((addr - 0x300) / 4) 0
  else 0

/-- BusWrite (20_memory.md R78) at an aligned address below 0x400 other than CMD's: a write to a read-only register or a
reserved offset changes nothing (R74, R75). -/
def busWrite (addr : Nat) (v : Word) (s : State) : State :=
  if addr = 0x00C then { s with nonceLen := v.setWidth 8 }
  else if addr = 0x010 then { s with counter := v }
  else if 0x040 ≤ addr ∧ addr < 0x080 then { s with key := s.key.setIfInBounds ((addr - 0x040) / 4) v }
  else if 0x080 ≤ addr ∧ addr < 0x090 then { s with nonce := s.nonce.setIfInBounds ((addr - 0x080) / 4) v }
  else if 0x100 ≤ addr ∧ addr < 0x140 then { s with state := s.state.setIfInBounds ((addr - 0x100) / 4) v }
  else if 0x1C0 ≤ addr ∧ addr < 0x200 then { s with dbuf := s.dbuf.setIfInBounds ((addr - 0x1C0) / 4) v }
  else s

/-- The address of CMD (20_memory.md R71). -/
def cmdAddr : Nat := 0x000

/-- What an access asks of the core. -/
inductive BusAction where
  /-- The access is none the core defines (20_memory.md R73). -/
  | refuse (r : Refusal)
  /-- BusRead. -/
  | read (addr : Nat)
  /-- BusWrite to an offset other than CMD's. -/
  | write (addr : Nat) (v : Word)
  /-- BusWrite to CMD: `Execute(w)`. -/
  | command (w : Word)
  /-- The reset input (70_reset_and_hazards.md R340). -/
  | reset
deriving DecidableEq, Repr

/-- Why a bus access is none the core defines, if it is none: it is not 32 bits wide, or its address is at or above
0x400, or no multiple of 4 (20_memory.md R73). The order of the three is the model's (DESIGN CHOICE, safe: assumption
5). -/
def accessRefusal (width : Width) (addr : Nat) : Option Refusal :=
  if width ≠ .word then some .narrowAccess
  else if 0x400 ≤ addr then some .outsideRegisterSpace
  else if addr % 4 ≠ 0 then some .unalignedAccess
  else none

/-- What an access asks of the core (20_memory.md R73, R78, R79; 70_reset_and_hazards.md R340). -/
def busAction : Access → BusAction
  | .reset => .reset
  | .read width addr =>
    match accessRefusal width addr with
    | some r => .refuse r
    | none => .read addr
  | .write width addr v =>
    match accessRefusal width addr with
    | some r => .refuse r
    | none => if addr = cmdAddr then .command v else .write addr v

/-- A bus read changes no register; the host receives the value (20_memory.md R75, R79). -/
def readAccess (addr : Nat) (s : State) : State := { s with returned := busRead s addr :: s.returned }

/-- Reset: every register of the core takes its reset value; the host keeps what it has read and what it has still to do
(70_reset_and_hazards.md R340; DESIGN CHOICE, assumption 6). -/
def resetAccess (s : State) : State := { State.reset with pending := s.pending, returned := s.returned }

end Sys2Proof.Machine
end

