-- ==== Sys2Proof/Machine/Operands.lean ====
section
/-!
DEFINITION. The operand forms of the commands and the checks their rules make before any write (30_encoding.md R107,
R111; 60_exceptions.md R312 to R319).
-/

namespace Sys2Proof.Machine

/-- The four indices of a quarter round differ from one another (41_permutation.md R142, R148). -/
abbrev PairwiseDistinct (a b c d : Fin 16) : Prop :=
  a ≠ b ∧ a ≠ c ∧ a ≠ d ∧ b ≠ c ∧ b ≠ d ∧ c ≠ d

/-- The indices of a quarter round with the proof that they are pairwise distinct: QuarterRound has no meaning for
others and a model must not give it one (41_permutation.md R142, 93_implementation_defined.md I5; assumption 9). -/
structure Quad where
  a : Fin 16
  b : Fin 16
  c : Fin 16
  d : Fin 16
  distinct : PairwiseDistinct a b c d

/-- SCXOR accepts N in 1..64 (43_stream_cipher.md R190). -/
def scxorLengthIllegal (n : Fin 128) : Bool := decide (n.val = 0 ∨ n.val > chunkBytes)

/-- MACINIT refuses SEL = 0, VAR > 1 and MOD = 1 with VAR = 1 (46_mac.md R253). -/
def macinitIllegal (sel var : Fin 4) (mod : Bool) : Bool :=
  decide (sel = 0 ∨ var.val > 1 ∨ (mod = true ∧ var = 1))

/-- MACWRITE refuses SEL = 0 and N > 64 (46_mac.md R256). -/
def macwriteIllegal (sel : Fin 4) (n : Fin 128) : Bool := decide (sel = 0 ∨ n.val > chunkBytes)

/-- MACFINAL refuses SEL = 0 (46_mac.md R264). -/
def macfinalIllegal (sel : Fin 4) : Bool := decide (sel = 0)

/-- The variant a legal VAR field names: 0 is V130, 1 is V179 (30_encoding.md R104). -/
def variantOfField (var : Fin 4) : Variant := if var = 0 then .v130 else .v179

/-- NONCE_LEN is not 16 (42_block_generator.md R174). -/
def nonceLengthWrong (s : State) : Bool := decide (s.nonceLen.toNat ≠ nonceBytes)

/-- Some selected instance has CONFIGURED = 0 (60_exceptions.md R318). -/
def someUnconfigured (sel : Fin 4) (s : State) : Bool := someSelected sel (fun I => !I.configured) s

/-- Some selected instance has FINALIZED = 1 (60_exceptions.md R315). -/
def someFinalized (sel : Fin 4) (s : State) : Bool := someSelected sel (fun I => I.finalized) s

/-- `macfinal 3` on instances that are not both V130 with MOD = 0 (47_dual_mac.md R293, 60_exceptions.md R319). -/
def dualMismatch (sel : Fin 4) (s : State) : Bool :=
  decide (sel = 3) && !(decide (s.mac0.var = .v130) && !s.mac0.mod && decide (s.mac1.var = .v130) && !s.mac1.mod)

end Sys2Proof.Machine
end

