-- ==== Sys2Proof/Machine/Permutation.lean ====
section
/-!
DEFINITION. The quarter round, the column, diagonal and double rounds and their commands (41_permutation.md R140 to R151).
-/

namespace Sys2Proof.Machine

/-- `S[x] <- S[x] +32 S[y]`. -/
def addWord (x y : Fin 16) (S : Vector Word 16) : Vector Word 16 := S.set x (S[x] + S[y])

/-- `S[x] <- S[x] xor S[y]`. -/
def xorWord (x y : Fin 16) (S : Vector Word 16) : Vector Word 16 := S.set x (S[x] ^^^ S[y])

/-- `S[x] <- rotl32(S[x], n)` (00_scope.md R10). -/
def rotWord (x : Fin 16) (n : Nat) (S : Vector Word 16) : Vector Word 16 := S.set x (S[x].rotateLeft n)

/-- `S[x] <- S[x] +32 v`. -/
def addConst (x : Fin 16) (v : Word) (S : Vector Word 16) : Vector Word 16 := S.set x (S[x] + v)

/-- QuarterRound: the 13 steps of 41_permutation.md R140, strictly in order, on pairwise distinct indices only. -/
def quarterRound (q : Quad) (S : Vector Word 16) : Vector Word 16 :=
  S |> addWord q.a q.b |> xorWord q.d q.a |> rotWord q.d rot1 |> addConst q.d qrConst
    |> addWord q.c q.d |> xorWord q.b q.c |> rotWord q.b rot2
    |> addWord q.a q.b |> xorWord q.d q.a |> rotWord q.d rot3
    |> addWord q.c q.d |> xorWord q.b q.c |> rotWord q.b rot4

/-- ColumnRound: the four columns, in order (41_permutation.md R143). -/
def columnRound (S : Vector Word 16) : Vector Word 16 :=
  S |> quarterRound ⟨0, 4, 8, 12, by decide⟩ |> quarterRound ⟨1, 5, 9, 13, by decide⟩
    |> quarterRound ⟨2, 6, 10, 14, by decide⟩ |> quarterRound ⟨3, 7, 11, 15, by decide⟩

/-- DiagonalRound: the four diagonals, in order (41_permutation.md R144). -/
def diagonalRound (S : Vector Word 16) : Vector Word 16 :=
  S |> quarterRound ⟨0, 5, 10, 15, by decide⟩ |> quarterRound ⟨1, 6, 11, 12, by decide⟩
    |> quarterRound ⟨2, 7, 8, 13, by decide⟩ |> quarterRound ⟨3, 4, 9, 14, by decide⟩

/-- DoubleRound: the column round first (41_permutation.md R146). -/
def doubleRound (S : Vector Word 16) : Vector Word 16 := diagonalRound (columnRound S)

/-- QR a, b, c, d (41_permutation.md R148): ILLEGAL_OPERAND unless the indices are pairwise distinct. -/
def execQr (a b c d : Fin 16) (s : State) : Result :=
  if h : PairwiseDistinct a b c d then complete { s with state := quarterRound ⟨a, b, c, d, h⟩ s.state }
  else raise (encode (.qr a b c d)) .illegalOperand s

/-- COLROUND (41_permutation.md R149). -/
def execColround (s : State) : Result := complete { s with state := columnRound s.state }

/-- DIAGROUND (41_permutation.md R150). -/
def execDiaground (s : State) : Result := complete { s with state := diagonalRound s.state }

/-- DROUND (41_permutation.md R151). -/
def execDround (s : State) : Result := complete { s with state := doubleRound s.state }

end Sys2Proof.Machine
end

