-- ==== Sys2Proof/Machine/Block.lean ====
section
/-!
DEFINITION. The keystream block generator and its commands (42_block_generator.md R170 to R179).
-/

namespace Sys2Proof.Machine

/-- Words `base`, `base + 1`, … of `S` become the words of the list, one after the other. -/
def setWords (base : Nat) : List Word → Vector Word 16 → Vector Word 16
  | [], S => S
  | w :: ws, S => setWords (base + 1) ws (S.setIfInBounds base w)

/-- InitState (42_block_generator.md R170), its steps in order: the nonce loop overwrites word 11 after the key loop has
set it. A register word is the LE32 of its four bytes (20_memory.md R77), so the key and nonce words are the registers
KEY[0..7] and NONCE[0..3] (DEDUCED, assumption 8). -/
def initState (key : Vector Word 16) (nonce : Vector Word 4) (ctr : Word) : Vector Word 16 :=
  Vector.replicate 16 0 |> setWords 0 sigma.toList |> setWords 4 (key.toList.take 8)
    |> setWords 11 nonce.toList |> setWords 15 [ctr]

/-- `n` double rounds, one after the other. -/
def doubleRoundN : Nat → Vector Word 16 → Vector Word 16
  | 0, S => S
  | n + 1, S => doubleRoundN n (doubleRound S)

/-- `O[i] <- S[i] +32 I[i]` for every word (42_block_generator.md R172, R177). -/
def feedForward (S I : Vector Word 16) : Vector Word 16 := Vector.ofFn fun i => S[i] + I[i]

/-- Block (42_block_generator.md R172) as the 16 words that WORDS_TO_BYTES serialises; its 64 bytes are the byte view of
these words (20_memory.md R76, R77). -/
def block (key : Vector Word 16) (nonce : Vector Word 4) (ctr : Word) : Vector Word 16 :=
  feedForward (doubleRoundN doubleRounds (initState key nonce ctr)) (initState key nonce ctr)

/-- The block of the current key, nonce and counter. -/
def currentBlock (s : State) : Vector Word 16 := block s.key s.nonce s.counter

/-- `STATE <- 0; INIT <- 0`: the state does not outlive the block (42_block_generator.md R175). -/
def destroyState (s : State) : State :=
  { s with state := Vector.replicate 16 0, init := Vector.replicate 16 0 }

/-- BLKINIT (42_block_generator.md R176). -/
def execBlkinit (s : State) : Result :=
  if nonceLengthWrong s then raise (encode .blkinit) .invalidNonceLength s
  else complete { s with state := initState s.key s.nonce s.counter, init := initState s.key s.nonce s.counter }

/-- BLKFINAL (42_block_generator.md R177). -/
def execBlkfinal (s : State) : Result :=
  complete (destroyState { s with ks := feedForward s.state s.init })

/-- GENBLOCK (42_block_generator.md R178). -/
def execGenblock (s : State) : Result :=
  if nonceLengthWrong s then raise (encode .genblock) .invalidNonceLength s
  else complete (destroyState { s with ks := currentBlock s })

end Sys2Proof.Machine
end

