-- ==== Sys2Proof/Machine/Cipher.lean ====
section
/-!
DEFINITION. The stream cipher XOR combiner (43_stream_cipher.md R190 to R192).
-/

namespace Sys2Proof.Machine

/-- `for k in 0..n-1: DB[k] <- DB[k] xor ks[k]`; bytes `n` and above keep their value (43_stream_cipher.md R190). -/
def xorBytes (n : Nat) (db ks : Vector Word 16) : Vector Word 16 :=
  ofBytes fun k => if k < n then getByte db k ^^^ getByte ks k else getByte db k

/-- The effect of SCXOR once its checks have passed (43_stream_cipher.md R190, R191). -/
def scxorEffect (n : Nat) (s : State) : State :=
  destroyState { s with
    ks := currentBlock s
    dbuf := xorBytes n s.dbuf (currentBlock s)
    counter := s.counter + 1 }

/-- SCXOR n (43_stream_cipher.md R190). -/
def execScxor (n : Fin 128) (s : State) : Result :=
  if scxorLengthIllegal n then raise (encode (.scxor n)) .illegalOperand s
  else if nonceLengthWrong s then raise (encode (.scxor n)) .invalidNonceLength s
  else complete (scxorEffect n s)

end Sys2Proof.Machine
end

