-- ==== Sys2Proof/Machine/Control.lean ====
section
/-!
DEFINITION. The control commands: NOP (40_control.md R130).
-/

namespace Sys2Proof.Machine

/-- NOP: CODE becomes OK, ERR and ERRCMD keep their values (40_control.md R130). -/
def execNop (s : State) : Result := complete s

end Sys2Proof.Machine
end

