-- ==== Sys2Proof/Machine/Reducer.lean ====
section
/-!
DEFINITION. Limb vectors (00_scope.md R13) and the modular reducer 2^K - 5 (45_modular_reducer.md R230 to R236), over
unbounded naturals (44_limb_engine.md R214).
-/

namespace Sys2Proof.Machine

/-- V(x), the sum of `x[i] * 2^(b*i)` (00_scope.md R13), in Horner's form. -/
def limbValue (b : Nat) : List Nat → Nat
  | [] => 0
  | x :: xs => x + 2 ^ b * limbValue b xs

/-- LIMBS(v): the canonical vector `x[i] = (v >> (b*i)) and MASK_b` (00_scope.md R13). -/
def limbs (var : Variant) (v : Nat) : List Nat :=
  (List.range (limbCount var)).map fun i => v / 2 ^ (limbBits var * i) % 2 ^ limbBits var

/-- One carry pass from the carry `c`, low to high, and the carry out of the top limb (45_modular_reducer.md R231):
`s and MASK_b` is `s mod 2^b` and `s >> b` is `s div 2^b`. -/
def carryPass (b : Nat) : Nat → List Nat → List Nat × Nat
  | c, [] => ([], c)
  | c, x :: xs =>
    let rest := carryPass b ((x + c) / 2 ^ b) xs
    ((x + c) % 2 ^ b :: rest.1, rest.2)

/-- `x[0] <- x[0] + 5 * c` (45_modular_reducer.md R231). -/
def foldCarry (c : Nat) : List Nat → List Nat
  | [] => []
  | x :: xs => (x + foldFactor * c) :: xs

/-- The loop of Normalize, at most `fuel` carry passes (45_modular_reducer.md R231). -/
def normalizeLoop (b : Nat) : Nat → List Nat → List Nat
  | 0, x => x
  | fuel + 1, x =>
    if (carryPass b 0 x).2 = 0 then (carryPass b 0 x).1
    else normalizeLoop b fuel (foldCarry (carryPass b 0 x).2 (carryPass b 0 x).1)

/-- Normalize (45_modular_reducer.md R231). Every pass that does not end the loop lowers V(x) (R232 (2)), so V(x) + 1
passes are enough and the fuel never runs out on a variant's vector (DEDUCED, assumption 7). -/
def normalize (b : Nat) (x : List Nat) : List Nat := normalizeLoop b (limbValue b x + 1) x

/-- FinalReduce (45_modular_reducer.md R234): `g = x + 5` with carries and masks; the carry out of the top limb is 1
exactly when V(x) >= P, and then g is selected. -/
def finalReduce (b : Nat) (h : List Nat) : List Nat :=
  if (carryPass b foldFactor (normalize b h)).2 = 1 then (carryPass b foldFactor (normalize b h)).1
  else normalize b h

end Sys2Proof.Machine
end

