-- ==== Sys2Proof/Machine/Limb.lean ====
section
/-!
DEFINITION. The limb multiply-accumulate engine (44_limb_engine.md R210 to R216) and the register form of a limb vector
(10_state.md R35, R36).
-/

namespace Sys2Proof.Machine

/-- ToLimbs (44_limb_engine.md R211): the top limb takes all remaining bits, unmasked; then Normalize. -/
def toLimbs (var : Variant) (v : Nat) : List Nat :=
  normalize (limbBits var) ((List.range (limbCount var)).map fun i =>
    if i + 1 < limbCount var then v / 2 ^ (limbBits var * i) % 2 ^ limbBits var else v / 2 ^ (limbBits var * i))

/-- Accumulate (44_limb_engine.md R212): no carry between limbs. -/
def accumulate (h t : List Nat) : List Nat := List.zipWith (· + ·) h t

/-- The term of output limb `i` from accumulator limb `j` in MulR (44_limb_engine.md R213). -/
def mulTerm (N : Nat) (a r : List Nat) (i j : Nat) : Nat :=
  if j ≤ i then a.getD j 0 * r.getD (i - j) 0 else a.getD j 0 * (foldFactor * r.getD (i + N - j) 0)

/-- MulR (44_limb_engine.md R213), exact over the naturals (R214). -/
def mulR (N : Nat) (a r : List Nat) : List Nat :=
  (List.range N).map fun i => ((List.range N).map fun j => mulTerm N a r i j).sum

/-- Process (44_limb_engine.md R216): the engine's whole step for the block value `v`. -/
def process (var : Variant) (h r : List Nat) (v : Nat) : List Nat :=
  normalize (limbBits var) (mulR (limbCount var) (accumulate h (toLimbs var v)) r)

/-- The limb vector held in limb registers: limb i in register i (10_state.md R35, R36). -/
def limbsOf (var : Variant) (ws : Vector Word 6) : List Nat := (ws.toList.take (limbCount var)).map BitVec.toNat

/-- The limb registers that hold a limb vector, the registers above it 0 (10_state.md R35, R36; 46_mac.md R263). -/
def limbRegs (x : List Nat) : Vector Word 6 := Vector.ofFn fun i => BitVec.ofNat 32 (x.getD i.val 0)

end Sys2Proof.Machine
end

