-- ==== Sys2Proof/Machine/Mac.lean ====
section
/-!
DEFINITION. The MAC accumulator, buffer and finalize unit and the dual-MAC form of its commands (46_mac.md R250 to R265,
47_dual_mac.md R290 to R293).
-/

namespace Sys2Proof.Machine

/-- R of an instance from the first 16 bytes of its key, under a given mask: `LIMBS(LEINT(..) and mask)`, zero-extended
to 6 limbs (46_mac.md R251). -/
def multiplierRegs (var : Variant) (mask : Nat) (keyBytes : List Byte) : Vector Word 6 :=
  limbRegs (limbs var (leInt keyBytes &&& mask))

/-- PAD of instance `m`: `KEY[8m+4 .. 8m+7]` (46_mac.md R252). -/
def padRegs (m : Fin 2) (key : Vector Word 16) : Vector Word 4 :=
  Vector.ofFn fun i => key.getD (8 * m.val + 4 + i.val) 0

/-- A fresh instance `m` (46_mac.md R253): r and the pad are captured from the instance's key half, all else is 0. -/
def freshInstance (var : Variant) (mod : Bool) (key : Vector Word 16) (m : Fin 2) : MacInst where
  configured := true
  finalized := false
  var := var
  mod := mod
  count := 0
  h := Vector.replicate 6 0
  r := multiplierRegs var (rClamp var).toNat (byteSlice key (32 * m.val) 16)
  pad := padRegs m key
  buf := Vector.replicate 6 0

/-- H after the engine has processed the block value `v` (46_mac.md R254, 44_limb_engine.md R216). -/
def processedH (I : MacInst) (v : Nat) : Vector Word 6 :=
  limbRegs (process I.var (limbsOf I.var I.h) (limbsOf I.var I.r) v)

/-- The body of Absorb for one byte (46_mac.md R254): a full block is processed as soon as its last byte arrives, with
no padding bit (R255). -/
def absorbByte (I : MacInst) (x : Byte) : MacInst :=
  if I.count.toNat + 1 = blockBytes I.var then
    { I with
      h := processedH I (leInt (byteSlice (setByte I.buf I.count.toNat x) 0 (blockBytes I.var)))
      buf := Vector.replicate 6 0
      count := 0 }
  else { I with buf := setByte I.buf I.count.toNat x, count := I.count + 1 }

/-- Absorb (46_mac.md R254): the bytes in order. -/
def absorb (I : MacInst) (xs : List Byte) : MacInst := xs.foldl absorbByte I

/-- H with the final partial block fed, if there is one: zero padding and a padding bit at byte COUNT (46_mac.md R257). -/
def paddedH (I : MacInst) : Vector Word 6 :=
  if I.count = 0 then I.h
  else processedH I (leInt (byteSlice I.buf 0 I.count.toNat) + 2 ^ (8 * I.count.toNat))

/-- f, the fully reduced accumulator of Finalize (46_mac.md R259). -/
def finalLimbs (I : MacInst) : List Nat := finalReduce (limbBits I.var) (limbsOf I.var (paddedH I))

/-- V(PAD) (46_mac.md R252). -/
def padValue (pad : Vector Word 4) : Nat := leInt (byteSlice pad 0 16)

/-- The pad is added into the first 16 bytes as one 128-bit integer, its carry discarded (46_mac.md R261). -/
def addPad (pad : Nat) (T : List Byte) : List Byte :=
  bytesLE ((leInt (T.take 16) + pad) % 2 ^ 128) 16 ++ T.drop 16

/-- The +1 modification: on byte 0 only, without carry (46_mac.md R262). -/
def bumpFirst : List Byte → List Byte
  | [] => []
  | x :: xs => (x + 1) :: xs

/-- The tag that Finalize returns (46_mac.md R258, R260 to R262). -/
def tagOf (I : MacInst) : List Byte :=
  let T := addPad (padValue I.pad) (bytesLE (limbValue (limbBits I.var) (finalLimbs I)) (tagBytes I.var))
  if I.mod then bumpFirst T else T

/-- The instance that Finalize leaves (46_mac.md R258, R263). -/
def finalized (I : MacInst) : MacInst :=
  { I with finalized := true, h := limbRegs (finalLimbs I), buf := Vector.replicate 6 0, count := 0 }

/-- Place (46_mac.md R265): all 32 bytes of TAG are written; a V130 tag has 16 bytes, so bytes 16..23 are then 0. -/
def placeTag (sel : Fin 4) (T0 T1 : List Byte) : Vector Word 8 :=
  ofBytes fun k =>
    if sel = 1 then T0.getD k 0
    else if sel = 2 then T1.getD k 0
    else if k < 16 then T0.getD k 0
    else T1.getD (k - 16) 0

/-- MACINIT sel, var, mod (46_mac.md R253). -/
def execMacinit (sel var : Fin 4) (mod : Bool) (s : State) : Result :=
  if macinitIllegal sel var mod then raise (encode (.macinit sel var mod)) .illegalOperand s
  else complete (updateSelected sel (fun m _ => freshInstance (variantOfField var) mod s.key m) s)

/-- MACWRITE sel, n (46_mac.md R256): every check comes before any write. -/
def execMacwrite (sel : Fin 4) (n : Fin 128) (s : State) : Result :=
  if macwriteIllegal sel n then raise (encode (.macwrite sel n)) .illegalOperand s
  else if someUnconfigured sel s then raise (encode (.macwrite sel n)) .notConfigured s
  else if someFinalized sel s then raise (encode (.macwrite sel n)) .useAfterFinalize s
  else complete (updateSelected sel (fun _ I => absorb I (byteSlice s.dbuf 0 n.val)) s)

/-- MACFINAL sel (46_mac.md R264): every check comes before any write. -/
def execMacfinal (sel : Fin 4) (s : State) : Result :=
  if macfinalIllegal sel then raise (encode (.macfinal sel)) .illegalOperand s
  else if someUnconfigured sel s then raise (encode (.macfinal sel)) .notConfigured s
  else if someFinalized sel s then raise (encode (.macfinal sel)) .useAfterFinalize s
  else if dualMismatch sel s then raise (encode (.macfinal sel)) .dualMismatch s
  else complete (updateSelected sel (fun _ I => finalized I)
    { s with tag := placeTag sel (tagOf s.mac0) (tagOf s.mac1) })

end Sys2Proof.Machine
end

