-- ==== Sys2Proof/Machine/Dispatch.lean ====
section
/-!
DEFINITION. The dispatcher: one arm per command, each one direct call of its meaning (30_encoding.md R108, R112).
-/

namespace Sys2Proof.Machine

def exec (i : Instr) (s : State) : Host.Outcome State Fault Refusal :=
  match i with
  | .nop => Sys2Proof.Machine.execNop s
  | .qr a b c d => Sys2Proof.Machine.execQr a b c d s
  | .colround => Sys2Proof.Machine.execColround s
  | .diaground => Sys2Proof.Machine.execDiaground s
  | .dround => Sys2Proof.Machine.execDround s
  | .blkinit => Sys2Proof.Machine.execBlkinit s
  | .blkfinal => Sys2Proof.Machine.execBlkfinal s
  | .genblock => Sys2Proof.Machine.execGenblock s
  | .scxor n => Sys2Proof.Machine.execScxor n s
  | .macinit sel var mod => Sys2Proof.Machine.execMacinit sel var mod s
  | .macwrite sel n => Sys2Proof.Machine.execMacwrite sel n s
  | .macfinal sel => Sys2Proof.Machine.execMacfinal sel s

end Sys2Proof.Machine
end

