-- ==== Sys2Proof/Machine/Execute.lean ====
section
/-!
DEFINITION. Execute and the effect of one access of the host (30_encoding.md R112, 20_memory.md R78, R79).
-/

namespace Sys2Proof.Machine

/-- `Execute(w)` (30_encoding.md R112): the command that `w` decodes to, or ILLEGAL_COMMAND. -/
def execute (w : Word) (s : State) : Host.Outcome State Fault Refusal :=
  match decode w with
  | .ok i => exec i s
  | .error _ => illegalCommand w s

/-- One access of the host on a core from which it has been taken off the input list. -/
def perform (a : Access) (s : State) : Host.Outcome State Fault Refusal :=
  match busAction a with
  | .refuse r => .refused r
  | .read addr => .next (readAccess addr s)
  | .write addr v => .next (busWrite addr v s)
  | .command w => execute w s
  | .reset => .next (resetAccess s)

end Sys2Proof.Machine
end

