-- ==== Sys2Proof/Machine/Step.lean ====
section
/-!
DEFINITION. One step: the host's next access takes effect whole, a command included, before the one after it
(10_state.md R20, 20_memory.md R80, R81).
-/

namespace Sys2Proof.Machine

/-- One step: the oldest access of the host's input list takes effect; with none waiting the core is idle and keeps all
state (60_exceptions.md R330). -/
def step (s : State) : Host.Outcome State Fault Refusal :=
  match s.pending with
  | [] => .next s
  | a :: rest => perform a { s with pending := rest }

/-- `s` with a write of the command word to CMD as the host's very next access, so that the next step runs it: a command
word stands nowhere else than in the host's write (10_state.md R21, R23). Bits at `nbits` and above are zero. -/
def State.withFetchWord (s : State) (nbits w : Nat) : State :=
  { s with pending := .write .word cmdAddr (BitVec.ofNat 32 (w % 2 ^ nbits)) :: s.pending }

end Sys2Proof.Machine
end

