-- ==== Sys2Proof/WellFormed.lean ====
section
/-!
DEFINITION. Which operand values a command accepts (30_encoding.md R111). Every term of `Instr` has a legal word by the
types of its fields, so the one check left is R111's; a command that fails it still runs: it completes with
ILLEGAL_OPERAND (60_exceptions.md R312).
-/

namespace Sys2Proof

/-- `i.wellFormed` holds when the operation accepts the operand values of `i` (30_encoding.md R111, 60_exceptions.md
R312). -/
def Instr.wellFormed : Instr → Bool
  | .qr a b c d => decide ([a, b, c, d].Nodup)
  | .scxor n => decide (1 ≤ n.val ∧ n.val ≤ 64)
  | .macinit sel var mod => decide (sel ≠ 0 ∧ var.val ≤ 1 ∧ ¬ (mod = true ∧ var = 1))
  | .macwrite sel n => decide (sel ≠ 0 ∧ n.val ≤ 64)
  | .macfinal sel => decide (sel ≠ 0)
  | .nop | .colround | .diaground | .dround | .blkinit | .blkfinal | .genblock => true

end Sys2Proof
end

