-- ==== Sys2Proof/Safety.lean ====
section
/-!
DEFINITION. What counts as a safe state and a successful run, in the terms the claims use: the invariants of 10_state.md
R41, the end of a run (70_reset_and_hazards.md R348), the host's access sequences (30_encoding.md R116 to R121) and the
value law of the MAC (46_mac.md R266).
-/

namespace Sys2Proof.Machine

/-! ## Invariants (10_state.md R41) -/

/-- A limb vector is canonical: every limb fits its width (00_scope.md R13). -/
abbrev CanonicalLimbs (b : Nat) (x : List Nat) : Prop := ∀ l ∈ x, l < 2 ^ b

/-- R41 (1): COUNT < B of the variant. -/
abbrev MacInst.CountBelowBlock (I : MacInst) : Prop := I.count.toNat < blockBytes I.var

/-- R41 (2): H is canonical. -/
abbrev MacInst.AccumulatorCanonical (I : MacInst) : Prop := CanonicalLimbs (limbBits I.var) (limbsOf I.var I.h)

/-- 10_state.md R36: R holds a canonical limb vector. -/
abbrev MacInst.MultiplierCanonical (I : MacInst) : Prop := CanonicalLimbs (limbBits I.var) (limbsOf I.var I.r)

/-- R41 (3): the buffer bytes at COUNT and above are 0. -/
abbrev MacInst.BufferClearAbove (I : MacInst) : Prop := ∀ k < 24, I.count.toNat ≤ k → getByte I.buf k = 0

/-- R41 (4): an instance that no MACINIT has configured holds nothing. -/
abbrev MacInst.UnconfiguredHoldsNothing (I : MacInst) : Prop :=
  I.configured = false → I.finalized = false ∧ I.count = 0 ∧ I.h = Vector.replicate 6 0 ∧ I.r = Vector.replicate 6 0
    ∧ I.pad = Vector.replicate 4 0 ∧ I.buf = Vector.replicate 6 0

/-- R41 (5): a V130 instance leaves the registers beyond its own size at 0. -/
abbrev MacInst.SmallVariantFits (I : MacInst) : Prop :=
  I.var = .v130 → I.h[5] = 0 ∧ I.r[5] = 0 ∧ ∀ k < 24, 16 ≤ k → getByte I.buf k = 0

/-- R41 (6): a V179 instance has MOD = 0. -/
abbrev MacInst.ModOnlySmall (I : MacInst) : Prop := I.var = .v179 → I.mod = false

/-- The invariants of one MAC instance (10_state.md R41 (1) to (6), R36). -/
abbrev MacInst.Inv (I : MacInst) : Prop :=
  I.CountBelowBlock ∧ I.AccumulatorCanonical ∧ I.MultiplierCanonical ∧ I.BufferClearAbove ∧ I.UnconfiguredHoldsNothing
    ∧ I.SmallVariantFits ∧ I.ModOnlySmall

/-- The invariants of the core (10_state.md R41) and the never-raised code (60_exceptions.md R317). R41 (7), the reserved
bits of STATUS, is a claim about what a bus read returns. -/
abbrev State.Inv (s : State) : Prop := (∀ m : Fin 2, (macOf s m).Inv) ∧ s.code ≠ .bufferBoundsViolation

/-- A run has succeeded so far: no command of it has failed (70_reset_and_hazards.md R348). -/
abbrev State.Succeeded (s : State) : Prop := s.err = false

/-! ## The host's access sequences -/

/-- A command as the host issues it: its word written to CMD (30_encoding.md R114). -/
def cmd (i : Instr) : Access := .write .word cmdAddr (encode i)

/-- The writes that put a piece of at most 64 bytes into DB[0..] (30_encoding.md R117, R118); the bytes of DBUF after the
piece become 0, which the spec leaves to the host ("any bytes"; DESIGN CHOICE, assumption 12). -/
def loadData (piece : List Byte) : List Access :=
  (List.range 16).map fun i => .write .word (0x1C0 + 4 * i)
    (packBytes (piece.getD (4 * i) 0) (piece.getD (4 * i + 1) 0) (piece.getD (4 * i + 2) 0) (piece.getD (4 * i + 3) 0))

/-- The reads of DBUF[0..15]. -/
def readData : List Access := (List.range 16).map fun i => .read .word (0x1C0 + 4 * i)

/-- The core after the host has made exactly these accesses, in order, from `s` (70_reset_and_hazards.md R348). -/
def runHost (accesses : List Access) (s : State) : Result :=
  core.run accesses.length { s with pending := accesses }

/-- `macinit`, one `macwrite` a piece, `macfinal` (30_encoding.md R118 to R121), the key already written. -/
def macSession (sel var : Fin 4) (mod : Bool) (pieces : List (List Byte)) : List Access :=
  cmd (.macinit sel var mod)
    :: pieces.flatMap (fun p => loadData p ++ [cmd (.macwrite sel (Fin.ofNat 128 p.length))])
    ++ [cmd (.macfinal sel)]

/-- The 64-byte chunks of a byte string, the last one possibly shorter (43_stream_cipher.md R190, R192). -/
def chunks64 (data : List Byte) : List (List Byte) :=
  (List.range ((data.length + 63) / 64)).map fun j => (data.drop (64 * j)).take 64

/-- Step 2 of `apply_keystream` (30_encoding.md R117): each chunk is written, combined and read back. -/
def keystreamSession (data : List Byte) : List Access :=
  (chunks64 data).flatMap fun c => loadData c ++ [cmd (.scxor (Fin.ofNat 128 c.length))] ++ readData

/-- The bytes of words, four a word, least significant first (00_scope.md R11 WORDS_TO_BYTES). -/
def wordsToBytes (ws : List Word) : List Byte := ws.flatMap fun w => bytesLE w.toNat 4

/-! ## Value-level functions -/

/-- AK of 43_stream_cipher.md R193: `p[j] xor Block(k, n, c + floor(j/64))[j mod 64]`. -/
def applyKeystream (key : Vector Word 16) (nonce : Vector Word 4) (c : Word) (p : List Byte) : List Byte :=
  p.mapIdx fun j x => x ^^^ getByte (block key nonce (c + BitVec.ofNat 32 (j / 64))) (j % 64)

/-- h_i of the value law (46_mac.md R266): the first `i` full blocks, reduced mod P after each. -/
def valueAfter (var : Variant) (r : Nat) (M : List Byte) : Nat → Nat
  | 0 => 0
  | i + 1 => (valueAfter var r M i + leInt ((M.drop (blockBytes var * i)).take (blockBytes var))) * r % modulus var

/-- h of the value law (46_mac.md R266): all full blocks, then the final partial block, if any, with its padding bit. -/
def macValue (var : Variant) (r : Nat) (M : List Byte) : Nat :=
  if M.length % blockBytes var = 0 then valueAfter var r M (M.length / blockBytes var)
  else (valueAfter var r M (M.length / blockBytes var)
      + leInt (M.drop (blockBytes var * (M.length / blockBytes var))) + 2 ^ (8 * (M.length % blockBytes var))) * r
    % modulus var

/-- The tag of the fully reduced accumulator `h` (46_mac.md R258, R260 to R262): BYTES_LE(h, L), the pad added into the
first 16 bytes as one 128-bit integer, then +1 on byte 0 alone when MOD = 1. -/
def finishTag (var : Variant) (mod : Bool) (h pad : Nat) : List Byte :=
  let T := bytesLE h (tagBytes var)
  let U := bytesLE ((leInt (T.take 16) + pad) % 2 ^ 128) 16 ++ T.drop 16
  if mod then [U.getD 0 0 + 1] ++ U.drop 1 else U

/-- MAC_V of the value law (46_mac.md R266), for the multiplier value `r` and the pad value `pad`. -/
def macTag (var : Variant) (mod : Bool) (r pad : Nat) (M : List Byte) : List Byte :=
  finishTag var mod (macValue var r M) pad

/-- `r = LEINT(k[0..15]) and R_CLAMP_V` for key half `m` (46_mac.md R251, R266). -/
def keyMultiplier (var : Variant) (key : Vector Word 16) (m : Fin 2) : Nat :=
  leInt (byteSlice key (32 * m.val) 16) &&& (rClamp var).toNat

/-- `s = LEINT(k[16..31])` for key half `m` (46_mac.md R252, R266). -/
def keyPad (key : Vector Word 16) (m : Fin 2) : Nat := leInt (byteSlice key (32 * m.val + 16) 16)

end Sys2Proof.Machine
end

