-- ==== Sys2Proof/Certificates/Slice0/Obligations.lean ====
section
/-!
DEFINITION. The statements for the provers. Each is about every state that meets its hypotheses, reached by a run or not.
-/

namespace Sys2Proof.Claims

open Sys2Proof.Machine

/-! ## The words the statements are made of -/

/-- The command completes with the state `u`, its CODE set to OK and ERR and ERRCMD as in `u`. -/
def completes (u : State) : Result := .next { u with code := .ok }

/-- The command with word `w` fails with code `e`: STATUS and ERRCMD change and nothing else. -/
def fails (e : ResultCode) (w : Word) (s : State) : Result := .next { s with code := e, err := true, errcmd := w }

/-- The opcode of the word is none of the map (30_encoding.md R110). -/
abbrev UndefinedOpcode (w : Word) : Prop := (0x09 ≤ bits w 31 24 ∧ bits w 31 24 ≤ 0x0F) ∨ 0x13 ≤ bits w 31 24

/-- A reserved bit of the opcode's format is set (30_encoding.md R101 to R106, R112). -/
abbrev ReservedBitSet (w : Word) : Prop :=
  (bits w 31 24 ∈ [0x00, 0x02, 0x03, 0x04, 0x05, 0x06, 0x07] ∧ bits w 23 0 ≠ 0) ∨
  (bits w 31 24 = 0x01 ∧ bits w 23 16 ≠ 0) ∨
  (bits w 31 24 = 0x08 ∧ bits w 23 7 ≠ 0) ∨
  (bits w 31 24 = 0x10 ∧ bits w 23 5 ≠ 0) ∨
  (bits w 31 24 = 0x11 ∧ (bits w 23 15 ≠ 0 ∨ bits w 7 2 ≠ 0)) ∨
  (bits w 31 24 = 0x12 ∧ bits w 23 2 ≠ 0)

/-- The number of each result code in the table of 60_exceptions.md R310. -/
def codeInTable : ResultCode → Nat
  | .ok => 0
  | .illegalCommand => 1
  | .illegalOperand => 2
  | .invalidNonceLength => 3
  | .useAfterFinalize => 4
  | .bufferBoundsViolation => 5
  | .notConfigured => 6
  | .dualMismatch => 7

/-- The number of each variant in VAR (10_state.md R34). -/
def varInTable : Variant → Nat
  | .v130 => 0
  | .v179 => 1

/-- Every command word among the accesses, made in order from `s`, ends with CODE = OK. -/
def EveryCommandOk : List Access → State → Prop
  | [], _ => True
  | a :: as, s => ∃ u, runHost [a] s = .next u ∧ ((∃ w, a = .write .word 0x000 w) → u.code = .ok) ∧ EveryCommandOk as u

/-- Step 1 of the MAC sequences (30_encoding.md R120): the 16 key registers are written. -/
def writeKey (key : Vector Word 16) : List Access :=
  (List.finRange 16).map fun i => .write .word (0x040 + 4 * i.val) key[i]

/-- The host's read of `addr` returns `v` and changes no register. -/
def ReadsAs (s : State) (addr : Nat) (v : Word) : Prop :=
  ∀ rest, step { s with pending := .read .word addr :: rest }
    = .next { s with pending := rest, returned := v :: s.returned }

/-- The host's write of `v` to `addr` leaves the registers of `u`. -/
def WritesAs (s : State) (addr : Nat) (v : Word) (u : State) : Prop :=
  ∀ rest, step { s with pending := .write .word addr v :: rest } = .next { u with pending := rest }

/-- The offsets of the registers that a host write changes, CMD apart (20_memory.md R71, R78). -/
abbrev HostWritable (addr : Nat) : Prop :=
  addr = 0x00C ∨ addr = 0x010 ∨ (0x040 ≤ addr ∧ addr < 0x080) ∨ (0x080 ≤ addr ∧ addr < 0x090)
    ∨ (0x100 ≤ addr ∧ addr < 0x140) ∨ (0x1C0 ≤ addr ∧ addr < 0x200)

/-- The reserved offsets of 20_memory.md R71 and R72. -/
abbrev ReservedOffset (addr : Nat) : Prop :=
  (0x014 ≤ addr ∧ addr < 0x040) ∨ (0x090 ≤ addr ∧ addr < 0x100) ∨ (0x320 ≤ addr ∧ addr < 0x400)
    ∨ ∃ m < 2, addr = 0x200 + 0x80 * m + 0x1C ∨ addr = 0x200 + 0x80 * m + 0x38 ∨ addr = 0x200 + 0x80 * m + 0x3C
      ∨ (0x200 + 0x80 * m + 0x68 ≤ addr ∧ addr < 0x200 + 0x80 * m + 0x80)

/-- `rotl32` of 00_scope.md R10. -/
def rotl32 (x : Word) (n : Nat) : Word := (x <<< n) ||| (x >>> (32 - n))

/-- `rotr32(x, n) = rotl32(x, 32 - n)` of 41_permutation.md R147. -/
def rotr32 (x : Word) (n : Nat) : Word := rotl32 x (32 - n)

/-- The 13 steps of the quarter round on four words (41_permutation.md R140). -/
def mixWords (a b c d : Word) : Word × Word × Word × Word :=
  let a := a + b
  let d := d ^^^ a
  let d := rotl32 d 10
  let d := d + 1
  let c := c + d
  let b := b ^^^ c
  let b := rotl32 b 14
  let a := a + b
  let d := d ^^^ a
  let d := rotl32 d 6
  let c := c + d
  let b := b ^^^ c
  let b := rotl32 b 9
  (a, b, c, d)

/-- The inverse steps of 41_permutation.md R147 on four words. -/
def unmixWords (a b c d : Word) : Word × Word × Word × Word :=
  let b := rotr32 b 9 ^^^ c
  let c := c - d
  let d := rotr32 d 6 ^^^ a
  let a := a - b
  let b := rotr32 b 14 ^^^ c
  let c := c - d
  let d := d - 1
  let d := rotr32 d 10 ^^^ a
  let a := a - b
  (a, b, c, d)

/-- The four words of a state at four indices. -/
def wordsAt (S : Vector Word 16) (a b c d : Fin 16) : Word × Word × Word × Word := (S[a], S[b], S[c], S[d])

/-- `mixWords` on four words of a state. -/
def mixedAt (S : Vector Word 16) (a b c d : Fin 16) : Word × Word × Word × Word := mixWords S[a] S[b] S[c] S[d]

/-- The four columns (41_permutation.md R143). -/
def columns : List Instr := [.qr 0 4 8 12, .qr 1 5 9 13, .qr 2 6 10 14, .qr 3 7 11 15]

/-- The four diagonals (41_permutation.md R144). -/
def diagonals : List Instr := [.qr 0 5 10 15, .qr 1 6 11 12, .qr 2 7 8 13, .qr 3 4 9 14]

/-- The 16 words of the initial state, word by word (42_block_generator.md R170, R171 (1)). -/
def initialWords (s : State) : Vector Word 16 :=
  #v[0x61707865, 0x3320646e, 0x79622d32, 0x6b206574,
    s.key[0], s.key[1], s.key[2], s.key[3], s.key[4], s.key[5], s.key[6],
    s.nonce[0], s.nonce[1], s.nonce[2], s.nonce[3], s.counter]

/-- The keystream block of a state's key, nonce and counter (42_block_generator.md R172). -/
def blockWords (s : State) : Vector Word 16 :=
  Vector.ofFn fun i => (doubleRound^[12] (initialWords s))[i] + (initialWords s)[i]

/-- 16 words of 0. -/
def zero16 : Vector Word 16 := Vector.replicate 16 0

/-- 6 words of 0. -/
def zero6 : Vector Word 6 := Vector.replicate 6 0

/-- Every selected instance is Active (46_mac.md R269). -/
abbrev SelectedActive (sel : Fin 4) (s : State) : Prop :=
  ∀ m : Fin 2, selected sel m = true → (macOf s m).configured = true ∧ (macOf s m).finalized = false

/-- Some selected instance has the property. -/
abbrev SomeSelected (sel : Fin 4) (s : State) (p : MacInst → Prop) : Prop :=
  ∃ m : Fin 2, selected sel m = true ∧ p (macOf s m)

/-- What MACINIT leaves in a selected instance `m` (46_mac.md R251 to R253). -/
def FreshFrom (I : MacInst) (var : Variant) (mod : Bool) (key : Vector Word 16) (m : Fin 2) : Prop :=
  I.configured = true ∧ I.finalized = false ∧ I.var = var ∧ I.mod = mod ∧ I.count = 0 ∧ I.h = zero6 ∧ I.buf = zero6
    ∧ (∀ i : Fin 4, I.pad[i] = key.getD (8 * m.val + 4 + i.val) 0)
    ∧ (∀ i : Fin 6, I.r[i].toNat =
        if i.val < limbCount var then keyMultiplier var key m / 2 ^ (limbBits var * i.val) % 2 ^ limbBits var else 0)

/-- V of the accumulator after the final partial block, if there is one, reduced mod P (46_mac.md R257, R259). -/
def finalValue (I : MacInst) : Nat :=
  limbValue (limbBits I.var)
    (if I.count = 0 then limbsOf I.var I.h
      else process I.var (limbsOf I.var I.h) (limbsOf I.var I.r)
        (leInt (byteSlice I.buf 0 I.count.toNat) + 2 ^ (8 * I.count.toNat))) % modulus I.var

/-- The tag of an instance (46_mac.md R258). -/
def instanceTag (I : MacInst) : List Byte := finishTag I.var I.mod (finalValue I) (leInt (byteSlice I.pad 0 16))

/-- The tag of one instance in a 32-byte window (46_mac.md R265, rows SEL = 1 and SEL = 2). -/
def singleTagByte (I : MacInst) (k : Nat) : Byte :=
  if k < 16 then (instanceTag I).getD k 0
  else if k < 24 ∧ I.var = .v179 then (instanceTag I).getD k 0
  else 0

end Sys2Proof.Claims

open Sys2Proof Sys2Proof.Machine Sys2Proof.Claims

/-! ## Encoding -/

/-- 30_encoding.md sections 1 to 3: no operand bit is lost, for every command and every operand value. -/
def Obligations.DecodeOfEncodeIsTheCommand : Prop := ∀ i : Instr, decode (encode i) = .ok i

/-- 30_encoding.md section 4 (R112, its last paragraph): every word is illegal and refused by the decoder, or is the word
of exactly one command, which the decoder gives. -/
def Obligations.EveryWordIsIllegalOrOneCommand : Prop :=
  ∀ w : Word,
    (UndefinedOpcode w ∨ ReservedBitSet w → ∃ e, decode w = .error e) ∧
    (¬ (UndefinedOpcode w ∨ ReservedBitSet w) →
      ∃ i, decode w = .ok i ∧ encode i = w ∧ ∀ j, encode j = w → j = i)

/-- 30_encoding.md section 5 and the examples of files 40 to 47: words written out from the formats. -/
def Obligations.WrittenOutWordsDecode : Prop :=
  decode 0x00000000 = .ok .nop ∧ decode 0x01003210 = .ok (.qr 0 1 2 3) ∧ decode 0x0100c840 = .ok (.qr 0 4 8 12)
    ∧ decode 0x02000000 = .ok .colround ∧ decode 0x03000000 = .ok .diaground ∧ decode 0x04000000 = .ok .dround
    ∧ decode 0x05000000 = .ok .blkinit ∧ decode 0x06000000 = .ok .blkfinal ∧ decode 0x07000000 = .ok .genblock
    ∧ decode 0x0800000b = .ok (.scxor 11) ∧ decode 0x10000011 = .ok (.macinit 1 0 true)
    ∧ decode 0x10000005 = .ok (.macinit 1 1 false) ∧ decode 0x11000b03 = .ok (.macwrite 3 11)
    ∧ decode 0x12000001 = .ok (.macfinal 1)

/-- 10_state.md section 1, 30_encoding.md section 4: a word on CMD that decodes to a command runs that command, on the
core whose next access has been taken off the host's list; nothing else happens around it. -/
def Obligations.StepRunsTheDecodedCommand : Prop :=
  ∀ (s : State) (w : Word) (i : Instr) (rest : List Access),
    s.pending = .write .word 0x000 w :: rest → decode w = .ok i → step s = exec i { s with pending := rest }

/-- 30_encoding.md R109, 60_exceptions.md R311: a word with an undefined opcode or a reserved bit set completes with
ILLEGAL_COMMAND and has no other effect. -/
def Obligations.IllegalWordsFailWithIllegalCommand : Prop :=
  ∀ (s : State) (w : Word) (rest : List Access),
    s.pending = .write .word 0x000 w :: rest → (UndefinedOpcode w ∨ ReservedBitSet w) →
      step s = fails .illegalCommand w { s with pending := rest }

/-- 30_encoding.md R111, 60_exceptions.md R312: an operand value that the operation does not accept makes the command
fail with ILLEGAL_OPERAND and nothing else, and no other operand value does. -/
def Obligations.IllegalOperandsFailWithIllegalOperand : Prop :=
  ∀ (i : Instr) (s : State),
    (i.wellFormed = false → exec i s = fails .illegalOperand (encode i) s) ∧
    (i.wellFormed = true → ∀ t, exec i s = .next t → t.code ≠ .illegalOperand)

/-! ## The register space -/

/-- 20_memory.md R73: exactly the aligned 32-bit accesses below 0x400 get a step; any other is refused. -/
def Obligations.OnlyAlignedWordAccessesGetAStep : Prop :=
  ∀ (s : State) (width : Width) (addr : Nat) (v : Word) (a : Access) (rest : List Access),
    s.pending = a :: rest → (a = .read width addr ∨ a = .write width addr v) →
      (width ≠ .word ∨ addr % 4 ≠ 0 ∨ 0x400 ≤ addr → ∃ r, step s = .refused r) ∧
      (width = .word ∧ addr % 4 = 0 ∧ addr < 0x400 → ∃ t, step s = .next t)

/-- 20_memory.md R79 with the map of R71 and R72: what a read of each offset returns; no read changes a register. The
numbers in CODE are those of 60_exceptions.md R310, those in VAR those of 10_state.md R34. -/
def Obligations.ReadsReturnTheMappedRegisters : Prop :=
  ∀ s : State,
    ReadsAs s 0x000 0 ∧
    ReadsAs s 0x004 (BitVec.ofNat 32 (s.err.toNat <<< 8 ||| codeInTable s.code)) ∧
    ReadsAs s 0x008 s.errcmd ∧
    ReadsAs s 0x00C (s.nonceLen.setWidth 32) ∧
    ReadsAs s 0x010 s.counter ∧
    (∀ i : Fin 16, ReadsAs s (0x040 + 4 * i.val) s.key[i]) ∧
    (∀ i : Fin 4, ReadsAs s (0x080 + 4 * i.val) s.nonce[i]) ∧
    (∀ i : Fin 16, ReadsAs s (0x100 + 4 * i.val) s.state[i]) ∧
    (∀ i : Fin 16, ReadsAs s (0x140 + 4 * i.val) s.init[i]) ∧
    (∀ i : Fin 16, ReadsAs s (0x180 + 4 * i.val) s.ks[i]) ∧
    (∀ i : Fin 16, ReadsAs s (0x1C0 + 4 * i.val) s.dbuf[i]) ∧
    (∀ i : Fin 8, ReadsAs s (0x300 + 4 * i.val) s.tag[i]) ∧
    (∀ m : Fin 2, ReadsAs s (0x200 + 0x80 * m.val) (BitVec.ofNat 32 ((macOf s m).count.toNat <<< 8
      ||| (macOf s m).mod.toNat <<< 4 ||| varInTable (macOf s m).var <<< 2 ||| (macOf s m).finalized.toNat <<< 1
      ||| (macOf s m).configured.toNat))) ∧
    (∀ (m : Fin 2) (i : Fin 6), ReadsAs s (0x200 + 0x80 * m.val + 0x04 + 4 * i.val) (macOf s m).h[i]) ∧
    (∀ (m : Fin 2) (i : Fin 6), ReadsAs s (0x200 + 0x80 * m.val + 0x20 + 4 * i.val) (macOf s m).r[i]) ∧
    (∀ (m : Fin 2) (i : Fin 4), ReadsAs s (0x200 + 0x80 * m.val + 0x40 + 4 * i.val) (macOf s m).pad[i]) ∧
    (∀ (m : Fin 2) (i : Fin 6), ReadsAs s (0x200 + 0x80 * m.val + 0x50 + 4 * i.val) (macOf s m).buf[i]) ∧
    (∀ addr, addr % 4 = 0 → ReservedOffset addr → ReadsAs s addr 0)

/-- 20_memory.md R78: what a write to each offset does; a write to CMD executes the word, a write to a read-only or
reserved offset has no effect. -/
def Obligations.WritesReachTheMappedRegisters : Prop :=
  ∀ (s : State) (v : Word),
    (∀ rest, step { s with pending := .write .word 0x000 v :: rest } = execute v { s with pending := rest }) ∧
    WritesAs s 0x00C v { s with nonceLen := v.setWidth 8 } ∧
    WritesAs s 0x010 v { s with counter := v } ∧
    (∀ i : Fin 16, WritesAs s (0x040 + 4 * i.val) v { s with key := s.key.set i v }) ∧
    (∀ i : Fin 4, WritesAs s (0x080 + 4 * i.val) v { s with nonce := s.nonce.set i v }) ∧
    (∀ i : Fin 16, WritesAs s (0x100 + 4 * i.val) v { s with state := s.state.set i v }) ∧
    (∀ i : Fin 16, WritesAs s (0x1C0 + 4 * i.val) v { s with dbuf := s.dbuf.set i v }) ∧
    (∀ addr, addr % 4 = 0 → addr < 0x400 → addr ≠ 0x000 → ¬ HostWritable addr → WritesAs s addr v s)

/-- 20_memory.md section 5: a read returns the value the write before it left at that offset (its low byte for NONCE_LEN),
and a write leaves what every other offset reads as it was. -/
def Obligations.ReadAfterWriteReturnsTheValue : Prop :=
  ∀ (s : State) (a b : Nat) (v : Word),
    a % 4 = 0 → a < 0x400 → a ≠ 0x000 → b % 4 = 0 → b < 0x400 →
      ∃ t, runHost [.write .word a v, .read .word b] s = .next t ∧
        t.returned = (if b = a ∧ HostWritable a then (if a = 0x00C then v &&& 0xFF else v) else busRead s b) :: s.returned

/-- 70_reset_and_hazards.md section 1: the reset input sets every register to 0, so that every offset then reads 0 and every
cipher command fails for want of a nonce length; what it leaves meets the invariants. That a reset is an item of the host's
list and keeps the rest of that list and what the host has read is the model's choice, log entry 6. -/
def Obligations.ResetClearsEveryRegister : Prop :=
  ∀ (s : State) (rest : List Access), s.pending = .reset :: rest →
    ∃ t, step s = .next t ∧ t.pending = rest ∧ t.returned = s.returned ∧ t.Inv ∧
      t.code = .ok ∧ t.err = false ∧ t.errcmd = 0 ∧ t.nonceLen = 0 ∧ t.counter = 0 ∧ t.key = zero16 ∧
      t.nonce = Vector.replicate 4 0 ∧ t.state = zero16 ∧ t.init = zero16 ∧ t.ks = zero16 ∧ t.dbuf = zero16 ∧
      t.tag = Vector.replicate 8 0 ∧
      (∀ m : Fin 2, (macOf t m).configured = false ∧ (macOf t m).finalized = false ∧ (macOf t m).var = .v130 ∧
        (macOf t m).mod = false ∧ (macOf t m).count = 0 ∧ (macOf t m).h = zero6 ∧ (macOf t m).r = zero6 ∧
        (macOf t m).pad = Vector.replicate 4 0 ∧ (macOf t m).buf = zero6) ∧
      (∀ addr, addr % 4 = 0 → addr < 0x400 → ReadsAs t addr 0) ∧
      ∀ i : Instr, (i = .blkinit ∨ i = .genblock ∨ ∃ n : Fin 128, 1 ≤ n.val ∧ n.val ≤ 64 ∧ i = .scxor n) →
        exec i t = fails .invalidNonceLength (encode i) t

/-- 70_reset_and_hazards.md R340: in the state after reset every register is 0, both instances are Unconfigured, every offset
reads 0, every cipher command fails for want of a nonce length and the invariants hold. -/
def Obligations.StateAfterResetIsAllZero : Prop :=
  statusWord State.reset = 0 ∧ State.reset.code = .ok ∧ State.reset.err = false ∧ State.reset.errcmd = 0 ∧
  State.reset.nonceLen = 0 ∧ State.reset.counter = 0 ∧ State.reset.key = zero16 ∧
  State.reset.nonce = Vector.replicate 4 0 ∧ State.reset.state = zero16 ∧ State.reset.init = zero16 ∧
  State.reset.ks = zero16 ∧ State.reset.dbuf = zero16 ∧ State.reset.tag = Vector.replicate 8 0 ∧
  (∀ m : Fin 2, mctrlWord (macOf State.reset m) = 0 ∧ (macOf State.reset m).configured = false ∧
    (macOf State.reset m).finalized = false ∧ (macOf State.reset m).var = .v130 ∧ (macOf State.reset m).mod = false ∧
    (macOf State.reset m).count = 0 ∧ (macOf State.reset m).h = zero6 ∧ (macOf State.reset m).r = zero6 ∧
    (macOf State.reset m).pad = Vector.replicate 4 0 ∧ (macOf State.reset m).buf = zero6) ∧
  (∀ addr, addr % 4 = 0 → addr < 0x400 → ReadsAs State.reset addr 0) ∧
  State.reset.Inv ∧
  ∀ i : Instr, (i = .blkinit ∨ i = .genblock ∨ ∃ n : Fin 128, 1 ≤ n.val ∧ n.val ≤ 64 ∧ i = .scxor n) →
    exec i State.reset = fails .invalidNonceLength (encode i) State.reset

/-- 60_exceptions.md section 4: with no access waiting the core is idle and keeps all state. -/
def Obligations.IdleCoreKeepsAllState : Prop := ∀ s : State, s.pending = [] → step s = .next s

/-! ## Result codes and STATUS -/

/-- 60_exceptions.md R320: how every command word ends. -/
def Obligations.EveryCommandEndUpdatesStatus : Prop :=
  ∀ (w : Word) (s : State), ∃ t, execute w s = .next t ∧
    (t.code = .ok → t.err = s.err ∧ t.errcmd = s.errcmd) ∧ (t.code ≠ .ok → t.err = true ∧ t.errcmd = w)

/-- 60_exceptions.md R314: a failing command changes STATUS and ERRCMD and nothing else. -/
def Obligations.FailingCommandChangesOnlyStatus : Prop :=
  ∀ (w : Word) (s t : State), execute w s = .next t → t.code ≠ .ok →
    t = { s with code := t.code, err := true, errcmd := w }

/-- 10_state.md section 3: once set, ERR stays set through every step but a reset. -/
def Obligations.ErrorBitIsStickyUntilReset : Prop :=
  ∀ s t : State, s.err = true → (∀ rest, s.pending ≠ .reset :: rest) → step s = .next t → t.err = true

/-- 60_exceptions.md section 1: no command word, in any state, leaves code 5. -/
def Obligations.NoCommandRaisesBufferBounds : Prop :=
  ∀ (w : Word) (s t : State), execute w s = .next t → t.code ≠ .bufferBoundsViolation

/-- 10_state.md section 6 (R41 (7)), 93_implementation_defined.md I9: the reserved bits of STATUS read 0 and CODE is below
8, in every state. -/
def Obligations.StatusReservedBitsReadZero : Prop :=
  ∀ s : State, ReadsAs s 0x004 (statusWord s) ∧ bits (statusWord s) 7 4 = 0 ∧ bits (statusWord s) 31 9 = 0
    ∧ bits (statusWord s) 3 0 < 8

/-- 60_exceptions.md section 1: the order of the checks of SCXOR, MACWRITE and MACFINAL; each failure has no other effect. -/
def Obligations.FirstFailingCheckDecidesTheCode : Prop :=
  (∀ (n : Fin 128) (s : State),
    (n.val = 0 ∨ 64 < n.val → exec (.scxor n) s = fails .illegalOperand (encode (.scxor n)) s) ∧
    (1 ≤ n.val → n.val ≤ 64 → s.nonceLen.toNat ≠ 16 →
      exec (.scxor n) s = fails .invalidNonceLength (encode (.scxor n)) s)) ∧
  (∀ (sel : Fin 4) (n : Fin 128) (s : State),
    (sel = 0 ∨ 64 < n.val → exec (.macwrite sel n) s = fails .illegalOperand (encode (.macwrite sel n)) s) ∧
    (sel ≠ 0 → n.val ≤ 64 → SomeSelected sel s (fun I => I.configured = false) →
      exec (.macwrite sel n) s = fails .notConfigured (encode (.macwrite sel n)) s) ∧
    (sel ≠ 0 → n.val ≤ 64 → ¬ SomeSelected sel s (fun I => I.configured = false) →
      SomeSelected sel s (fun I => I.finalized = true) →
      exec (.macwrite sel n) s = fails .useAfterFinalize (encode (.macwrite sel n)) s)) ∧
  (∀ (sel : Fin 4) (s : State),
    (sel = 0 → exec (.macfinal sel) s = fails .illegalOperand (encode (.macfinal sel)) s) ∧
    (sel ≠ 0 → SomeSelected sel s (fun I => I.configured = false) →
      exec (.macfinal sel) s = fails .notConfigured (encode (.macfinal sel)) s) ∧
    (sel ≠ 0 → ¬ SomeSelected sel s (fun I => I.configured = false) →
      SomeSelected sel s (fun I => I.finalized = true) →
      exec (.macfinal sel) s = fails .useAfterFinalize (encode (.macfinal sel)) s))

/-- 40_control.md R130: NOP, its one legal word, its effect on STATUS, and the words with its opcode that are illegal. -/
def Obligations.NopOnlySetsTheCode : Prop :=
  (∀ s : State, exec .nop s = completes s) ∧
  (∀ s : State, execute 0x00000000 s = completes s) ∧
  (∀ (w : Word) (s : State), bits w 31 24 = 0x00 → bits w 23 0 ≠ 0 → execute w s = fails .illegalCommand w s) ∧
  (∀ s t : State, statusWord s = 0x00000104 → execute 0x00000000 s = .next t → statusWord t = 0x00000100)

/-! ## Quarter round and rounds -/

/-- 41_permutation.md R140, R141: QR on pairwise distinct indices completes; the four words are the 13 steps' and every
other word, and every other register, is as before. -/
def Obligations.QrAppliesTheQuarterRound : Prop :=
  ∀ (a b c d : Fin 16) (s : State), PairwiseDistinct a b c d →
    ∃ S, exec (.qr a b c d) s = completes { s with state := S } ∧
      wordsAt S a b c d = mixedAt s.state a b c d ∧
      ∀ j : Fin 16, j ≠ a → j ≠ b → j ≠ c → j ≠ d → S[j] = s.state[j]

/-- 41_permutation.md section 1: COLROUND completes and makes each column the quarter round of that column's old words. -/
def Obligations.ColroundMixesEachColumn : Prop :=
  ∀ s : State, ∃ S, exec .colround s = completes { s with state := S } ∧
    wordsAt S 0 4 8 12 = mixedAt s.state 0 4 8 12 ∧ wordsAt S 1 5 9 13 = mixedAt s.state 1 5 9 13 ∧
    wordsAt S 2 6 10 14 = mixedAt s.state 2 6 10 14 ∧ wordsAt S 3 7 11 15 = mixedAt s.state 3 7 11 15

/-- 41_permutation.md section 1: DIAGROUND completes and makes each diagonal the quarter round of that diagonal's old
words. -/
def Obligations.DiagroundMixesEachDiagonal : Prop :=
  ∀ s : State, ∃ S, exec .diaground s = completes { s with state := S } ∧
    wordsAt S 0 5 10 15 = mixedAt s.state 0 5 10 15 ∧ wordsAt S 1 6 11 12 = mixedAt s.state 1 6 11 12 ∧
    wordsAt S 2 7 8 13 = mixedAt s.state 2 7 8 13 ∧ wordsAt S 3 4 9 14 = mixedAt s.state 3 4 9 14

/-- 41_permutation.md section 1: a round is its four quarter rounds, in the order of R143 and R144 and, as R145 derives, in
any other. -/
def Obligations.RoundIsItsFourQuarterRounds : Prop :=
  ∀ (s : State) (l : List Instr),
    (l.Perm columns → runHost (l.map cmd) s = runHost [cmd .colround] s) ∧
    (l.Perm diagonals → runHost (l.map cmd) s = runHost [cmd .diaground] s)

/-- 41_permutation.md R146: DROUND completes with what COLROUND and then DIAGROUND make of STATE. -/
def Obligations.DroundIsColroundThenDiaground : Prop :=
  ∀ s : State, ∃ C D, exec .colround s = completes { s with state := C } ∧
    exec .diaground { s with state := C } = completes { s with state := D } ∧
    exec .dround s = completes { s with state := D }

/-- 41_permutation.md section 1 (R147): the inverse steps undo QR, and QR undoes the inverse steps. -/
def Obligations.QuarterRoundIsInvertible : Prop :=
  ∀ (a b c d : Fin 16) (s t : State), PairwiseDistinct a b c d → exec (.qr a b c d) s = .next t →
    unmixWords t.state[a] t.state[b] t.state[c] t.state[d] = wordsAt s.state a b c d ∧
    ∀ x y z w x' y' z' w' : Word, unmixWords x y z w = (x', y', z', w') →
      ∃ u, exec (.qr a b c d) { s with state := (((s.state.set a x').set b y').set c z').set d w' } = .next u ∧
        wordsAt u.state a b c d = (x, y, z, w)

/-! ## Keystream block -/

/-- 42_block_generator.md R170: BLKINIT with NONCE_LEN = 16 completes with STATE and INIT the 16 words; word 11 is the
nonce's first word. -/
def Obligations.BlkinitBuildsTheInitialState : Prop :=
  ∀ s : State, s.nonceLen = 16 →
    exec .blkinit s = completes { s with state := initialWords s, init := initialWords s }

/-- 42_block_generator.md section 2: BLKFINAL completes in every state; KS is the word-wise sum, STATE and INIT are 0. -/
def Obligations.BlkfinalFeedsForward : Prop :=
  ∀ s : State, ∃ O, exec .blkfinal s = completes { s with ks := O, state := zero16, init := zero16 } ∧
    ∀ i : Fin 16, O[i] = s.state[i] + s.init[i]

/-- 42_block_generator.md sections 1 and 2: GENBLOCK with NONCE_LEN = 16 completes with KS the block and STATE and INIT 0;
COUNTER and all else is unchanged. -/
def Obligations.GenblockProducesTheBlock : Prop :=
  ∀ s : State, s.nonceLen = 16 →
    exec .genblock s = completes { s with ks := blockWords s, state := zero16, init := zero16 }

/-- 42_block_generator.md R175: the commands that produce a block leave STATE and INIT 0 when they succeed. -/
def Obligations.StateDoesNotOutliveTheBlock : Prop :=
  ∀ (i : Instr) (s t : State), (i = .blkfinal ∨ i = .genblock ∨ ∃ n, i = .scxor n) →
    exec i s = .next t → t.code = .ok → t.state = zero16 ∧ t.init = zero16

/-- 42_block_generator.md section 2 (R179, which the spec derives): the block built step by step, with DROUND or with
COLROUND and DIAGROUND, leaves the whole core as GENBLOCK does. -/
def Obligations.StepwiseBlockEqualsGenblock : Prop :=
  ∀ s : State, s.nonceLen = 16 →
    runHost ([cmd .blkinit] ++ List.replicate 12 (cmd .dround) ++ [cmd .blkfinal]) s = runHost [cmd .genblock] s ∧
    runHost ([cmd .blkinit] ++ (List.replicate 12 [cmd .colround, cmd .diaground]).flatten ++ [cmd .blkfinal]) s
      = runHost [cmd .genblock] s

/-- 42_block_generator.md R174, 60_exceptions.md R313: the cipher commands fail with INVALID_NONCE_LENGTH unless
NONCE_LEN = 16, and then change nothing else; with 16 they do not. -/
def Obligations.WrongNonceLengthFails : Prop :=
  ∀ (i : Instr) (s : State), (i = .blkinit ∨ i = .genblock ∨ ∃ n : Fin 128, 1 ≤ n.val ∧ n.val ≤ 64 ∧ i = .scxor n) →
    (s.nonceLen ≠ 16 → exec i s = fails .invalidNonceLength (encode i) s) ∧
    (s.nonceLen = 16 → ∃ t, exec i s = .next t ∧ t.code = .ok)

/-- 42_block_generator.md section 1 (R171 (2), which the spec derives): two cores that differ in key word 7 and above give
the same keystream block. -/
def Obligations.KeyWordSevenDoesNotReachTheBlock : Prop :=
  ∀ (s : State) (key : Vector Word 16), s.nonceLen = 16 → (∀ i : Fin 16, i.val < 7 → key[i] = s.key[i]) →
    ∃ t u, exec .genblock s = .next t ∧ exec .genblock { s with key := key } = .next u ∧ u.ks = t.ks

/-! ## Stream cipher -/

/-- 43_stream_cipher.md R191 and section 1: SCXOR of 1 to 64 bytes with NONCE_LEN = 16 completes; KS is the whole block,
the first n bytes of DBUF are combined and the others kept, COUNTER advances and wraps. -/
def Obligations.ScxorCombinesAndAdvances : Prop :=
  ∀ (n : Fin 128) (s : State), 1 ≤ n.val → n.val ≤ 64 → s.nonceLen = 16 →
    ∃ D c, exec (.scxor n) s
        = completes { s with ks := blockWords s, dbuf := D, counter := c, state := zero16, init := zero16 } ∧
      c.toNat = (s.counter.toNat + 1) % 2 ^ 32 ∧
      ∀ k < 64, getByte D k = if k < n.val then getByte s.dbuf k ^^^ getByte (blockWords s) k else getByte s.dbuf k

/-- 43_stream_cipher.md section 2 (R194, which the spec derives): SCXOR, the counter restored, and SCXOR again give the
data back. -/
def Obligations.ScxorTwiceRestoresTheData : Prop :=
  ∀ (n : Fin 128) (s : State), 1 ≤ n.val → n.val ≤ 64 → s.nonceLen = 16 →
    ∃ t, runHost [cmd (.scxor n), .write .word 0x010 s.counter, cmd (.scxor n)] s = .next t ∧
      t.code = .ok ∧ t.dbuf = s.dbuf ∧ t.counter = s.counter + 1

/-- 43_stream_cipher.md section 2 (R193, which the spec derives): the host sequence of `apply_keystream` over a byte string
of any length reads back AK of it and leaves the counter advanced by the number of chunks; every command of it ends with
OK. That the bytes of DBUF after the last byte of a chunk are written as 0 is the model's choice, log entry 12. -/
def Obligations.KeystreamSessionComputesApplyKeystream : Prop :=
  ∀ (data : List Byte) (s : State), s.nonceLen = 16 →
    EveryCommandOk (keystreamSession data) s ∧
    ∃ t, runHost (keystreamSession data) s = .next t ∧ t.err = s.err ∧
      (wordsToBytes (t.returned.take (16 * (chunks64 data).length)).reverse).take data.length
        = applyKeystream s.key s.nonce s.counter data ∧
      t.counter = s.counter + BitVec.ofNat 32 ((data.length + 63) / 64)

/-! ## Limb engine and reducer -/

/-- 44_limb_engine.md R211: ToLimbs answers a canonical vector with the block's residue and, when the block is below `2^K`,
its plain limbs. -/
def Obligations.ToLimbsKeepsTheResidue : Prop :=
  ∀ (var : Variant) (v : Nat),
    (toLimbs var v).length = limbCount var ∧ CanonicalLimbs (limbBits var) (toLimbs var v) ∧
    limbValue (limbBits var) (toLimbs var v) < 2 ^ valueBits var ∧
    limbValue (limbBits var) (toLimbs var v) % modulus var = v % modulus var ∧
    (v < 2 ^ valueBits var →
      limbValue (limbBits var) (toLimbs var v) = v ∧ toLimbs var v = limbs var v)

/-- 44_limb_engine.md R214: with canonical inputs every product sum keeps the stated bound, so it fits 64 bits. -/
def Obligations.ProductSumsFitSixtyFourBits : Prop :=
  ∀ (var : Variant) (h t r : List Nat),
    h.length = limbCount var → t.length = limbCount var → r.length = limbCount var →
    CanonicalLimbs (limbBits var) h → CanonicalLimbs (limbBits var) t → CanonicalLimbs (limbBits var) r →
      ∀ d ∈ mulR (limbCount var) (accumulate h t) r,
        d ≤ (1 + (limbCount var - 1) * 5) * (2 ^ (limbBits var + 1) - 2) * (2 ^ limbBits var - 1) ∧
        d < 2 ^ 64 ∧ (var = .v130 → d < 2 ^ 58)

/-- 44_limb_engine.md section 3 (the value law of R216, which the spec derives). -/
def Obligations.ProcessMultipliesModuloP : Prop :=
  ∀ (var : Variant) (h r : List Nat) (v : Nat), h.length = limbCount var → r.length = limbCount var →
    CanonicalLimbs (limbBits var) (process var h r v) ∧ (process var h r v).length = limbCount var ∧
    limbValue (limbBits var) (process var h r v) < 2 ^ valueBits var ∧
    limbValue (limbBits var) (process var h r v) % modulus var
      = (limbValue (limbBits var) h + v) * limbValue (limbBits var) r % modulus var

/-- 45_modular_reducer.md section 3 (the value law of R235, which the spec derives): FinalReduce answers the canonical
vector of V(h) mod P. -/
def Obligations.FinalReduceIsTheLeastResidue : Prop :=
  ∀ (var : Variant) (h : List Nat), h.length = limbCount var →
    finalReduce (limbBits var) h = limbs var (limbValue (limbBits var) h % modulus var)

/-- 44_limb_engine.md R210 and 45_modular_reducer.md section 1: the constants of the two variants, in numbers, and the fold
identity of their moduli. -/
def Obligations.VariantConstantsAreTheTables : Prop :=
  variantOfField 0 = .v130 ∧ variantOfField 1 = .v179 ∧
  limbCount .v130 = 5 ∧ limbCount .v179 = 6 ∧ limbBits .v130 = 26 ∧ limbBits .v179 = 29 ∧
  2 ^ limbBits .v130 - 1 = 0x03ffffff ∧ 2 ^ limbBits .v179 - 1 = 0x1fffffff ∧
  valueBits .v130 = 130 ∧ valueBits .v179 = 174 ∧
  modulus .v130 = 2 ^ 130 - 5 ∧ modulus .v179 = 2 ^ 174 - 5 ∧
  blockBytes .v130 = 16 ∧ blockBytes .v179 = 24 ∧ tagBytes .v130 = 16 ∧ tagBytes .v179 = 24 ∧
  ∀ c : Nat, c * 2 ^ 130 % modulus .v130 = 5 * c % modulus .v130 ∧ c * 2 ^ 174 % modulus .v179 = 5 * c % modulus .v179

/-! ## MAC commands -/

/-- 46_mac.md R251, R252 and section 2: MACINIT with accepted operands completes in every state; each selected instance is
fresh, with r and the pad of its key half, and everything else is as before. -/
def Obligations.MacinitCreatesFreshInstances : Prop :=
  ∀ (sel var : Fin 4) (mod : Bool) (s : State), sel ≠ 0 → var.val ≤ 1 → ¬ (mod = true ∧ var = 1) →
    ∃ I J, exec (.macinit sel var mod) s = completes { s with mac0 := I, mac1 := J } ∧
      ∀ m : Fin 2,
        (selected sel m = true →
          FreshFrom (if m = 0 then I else J) (if var = 0 then .v130 else .v179) mod s.key m ∧
          limbsOf (if var = 0 then .v130 else .v179) (if m = 0 then I else J).r
            = toLimbs (if var = 0 then .v130 else .v179) (keyMultiplier (if var = 0 then .v130 else .v179) s.key m) ∧
          (if m = 0 then I else J).pad[0].toNat + (if m = 0 then I else J).pad[1].toNat * 2 ^ 32
            + (if m = 0 then I else J).pad[2].toNat * 2 ^ 64 + (if m = 0 then I else J).pad[3].toNat * 2 ^ 96
            = keyPad s.key m ∧
          (var = 0 → (if m = 0 then I else J).r[4].toNat < 2 ^ 24) ∧
          (var = 1 → (if m = 0 then I else J).r[4].toNat < 2 ^ 12 ∧ (if m = 0 then I else J).r[5] = 0)) ∧
        (selected sel m = false → (if m = 0 then I else J) = macOf s m)

/-- 46_mac.md section 2: MACWRITE of at most 64 bytes on Active instances completes; each selected instance absorbs the
first n bytes of DBUF and nothing else changes. -/
def Obligations.MacwriteAbsorbsIntoSelected : Prop :=
  ∀ (sel : Fin 4) (n : Fin 128) (s : State), sel ≠ 0 → n.val ≤ 64 → SelectedActive sel s →
    exec (.macwrite sel n) s = completes { s with
      mac0 := if selected sel 0 = true then absorb s.mac0 ((List.range n.val).map (getByte s.dbuf)) else s.mac0
      mac1 := if selected sel 1 = true then absorb s.mac1 ((List.range n.val).map (getByte s.dbuf)) else s.mac1 }

/-- 46_mac.md section 2 (R254): bytes that do not fill the block are only buffered, at COUNT and above. -/
def Obligations.ShortWriteOnlyBuffers : Prop :=
  ∀ (sel : Fin 4) (n : Fin 128) (s : State) (m : Fin 2), n.val ≤ 64 → SelectedActive sel s →
    selected sel m = true → (macOf s m).count.toNat + n.val < blockBytes (macOf s m).var →
    ∃ t c B, exec (.macwrite sel n) s = .next t ∧ macOf t m = { macOf s m with count := c, buf := B } ∧
      c.toNat = (macOf s m).count.toNat + n.val ∧
      ∀ k < 24, getByte B k =
        if (macOf s m).count.toNat ≤ k ∧ k < (macOf s m).count.toNat + n.val
          then getByte s.dbuf (k - (macOf s m).count.toNat) else getByte (macOf s m).buf k

/-- 46_mac.md section 2 (R254, R255): the byte that fills the block makes the engine process it, with no padding bit, and
empties the buffer. -/
def Obligations.FullBlockIsProcessedAtOnce : Prop :=
  ∀ (sel : Fin 4) (n : Fin 128) (s : State) (m : Fin 2), n.val ≤ 64 → SelectedActive sel s →
    selected sel m = true → (macOf s m).count.toNat < blockBytes (macOf s m).var →
    (macOf s m).count.toNat + n.val = blockBytes (macOf s m).var →
    ∃ t, exec (.macwrite sel n) s = .next t ∧
      macOf t m = { macOf s m with
        count := 0, buf := zero6
        h := limbRegs (process (macOf s m).var (limbsOf (macOf s m).var (macOf s m).h)
          (limbsOf (macOf s m).var (macOf s m).r)
          (leInt (byteSlice (macOf s m).buf 0 (macOf s m).count.toNat ++ byteSlice s.dbuf 0 n.val))) }

/-- 46_mac.md R265 and section 2: MACFINAL on Active instances (both V130 without MOD when both are selected)
completes; what it leaves in each instance and in every byte of TAG. -/
def Obligations.MacfinalWritesTheTag : Prop :=
  ∀ (sel : Fin 4) (s : State), sel ≠ 0 → SelectedActive sel s →
    (sel = 3 → ∀ m : Fin 2, (macOf s m).var = .v130 ∧ (macOf s m).mod = false) →
    ∃ I J T, exec (.macfinal sel) s = completes { s with mac0 := I, mac1 := J, tag := T } ∧
      (∀ m : Fin 2,
        (selected sel m = true → ∃ H,
          (if m = 0 then I else J) = { macOf s m with finalized := true, count := 0, buf := zero6, h := H } ∧
          ∀ i : Fin 6, H[i].toNat =
            if i.val < limbCount (macOf s m).var
              then finalValue (macOf s m) / 2 ^ (limbBits (macOf s m).var * i.val) % 2 ^ limbBits (macOf s m).var
              else 0) ∧
        (selected sel m = false → (if m = 0 then I else J) = macOf s m)) ∧
      ∀ k < 32, getByte T k =
        if sel = 1 then singleTagByte s.mac0 k
        else if sel = 2 then singleTagByte s.mac1 k
        else if k < 16 then (instanceTag s.mac0).getD k 0
        else (instanceTag s.mac1).getD (k - 16) 0

/-- 47_dual_mac.md R293, 60_exceptions.md R319: the order of the checks of `macfinal 3`, what its completion leaves, and
that no other command asks for like instances. -/
def Obligations.DualFinalNeedsLikeInstances : Prop :=
  ∀ s : State,
    (s.mac0.configured = false ∨ s.mac1.configured = false →
      exec (.macfinal 3) s = fails .notConfigured (encode (.macfinal 3)) s) ∧
    (s.mac0.configured = true → s.mac1.configured = true → s.mac0.finalized = true ∨ s.mac1.finalized = true →
      exec (.macfinal 3) s = fails .useAfterFinalize (encode (.macfinal 3)) s) ∧
    (SelectedActive 3 s → (∃ m : Fin 2, (macOf s m).var ≠ .v130 ∨ (macOf s m).mod = true) →
      exec (.macfinal 3) s = fails .dualMismatch (encode (.macfinal 3)) s) ∧
    (SelectedActive 3 s → (∀ m : Fin 2, (macOf s m).var = .v130 ∧ (macOf s m).mod = false) →
      ∃ t, exec (.macfinal 3) s = .next t ∧ t.code = .ok ∧ t.mac0.finalized = true ∧ t.mac1.finalized = true ∧
        (List.range 32).map (getByte t.tag) = instanceTag s.mac0 ++ instanceTag s.mac1) ∧
    (∀ (var : Fin 4) (mod : Bool), var.val ≤ 1 → ¬ (mod = true ∧ var = 1) →
      ∃ t, exec (.macinit 3 var mod) s = .next t ∧ t.code = .ok) ∧
    (SelectedActive 3 s → ∀ n : Fin 128, n.val ≤ 64 → ∃ t, exec (.macwrite 3 n) s = .next t ∧ t.code = .ok) ∧
    (∀ sel : Fin 4, sel = 1 ∨ sel = 2 → SelectedActive sel s → ∃ t, exec (.macfinal sel) s = .next t ∧ t.code = .ok)

/-- 46_mac.md section 3 (the value law of R266, which the spec derives): the host sequence of a MAC, from any state of the
core and with any split of the message, leaves the tag of the value law in TAG; every command of it ends with OK. That the
bytes of DBUF after the last byte of a piece are written as 0 is the model's choice, log entry 12. -/
def Obligations.MacSessionMeetsTheValueLaw : Prop :=
  ∀ (m : Fin 2) (var : Fin 4) (mod : Bool) (pieces : List (List Byte)) (s : State),
    var.val ≤ 1 → ¬ (mod = true ∧ var = 1) → (∀ p ∈ pieces, p.length ≤ 64) →
    EveryCommandOk (macSession (if m = 0 then 1 else 2) var mod pieces) s ∧
    ∃ t, runHost (macSession (if m = 0 then 1 else 2) var mod pieces) s = .next t ∧ t.code = .ok ∧ t.err = s.err ∧
      ∀ k < 32, getByte t.tag k =
        (macTag (if var = 0 then .v130 else .v179) mod
          (keyMultiplier (if var = 0 then .v130 else .v179) s.key m) (keyPad s.key m) pieces.flatten).getD k 0

/-- 47_dual_mac.md R290, 30_encoding.md R120: the host sequence of `double_mac`, with the key written by it or before it,
leaves the two V130 tags, one of each key half, side by side; every command of it ends with OK. That the bytes of DBUF after
the last byte of a piece are written as 0 is the model's choice, log entry 12. -/
def Obligations.DoubleMacSessionConcatenatesTheTags : Prop :=
  ∀ (pieces : List (List Byte)) (s : State), (∀ p ∈ pieces, p.length ≤ 64) →
    (EveryCommandOk (macSession 3 0 false pieces) s ∧
      ∃ t, runHost (macSession 3 0 false pieces) s = .next t ∧ t.code = .ok ∧ t.err = s.err ∧
        (List.range 32).map (getByte t.tag) =
          macTag .v130 false (keyMultiplier .v130 s.key 0) (keyPad s.key 0) pieces.flatten
            ++ macTag .v130 false (keyMultiplier .v130 s.key 1) (keyPad s.key 1) pieces.flatten) ∧
    ∀ key : Vector Word 16,
      EveryCommandOk (writeKey key ++ macSession 3 0 false pieces) s ∧
      ∃ t, runHost (writeKey key ++ macSession 3 0 false pieces) s = .next t ∧ t.code = .ok ∧ t.err = s.err ∧
        (List.range 32).map (getByte t.tag) =
          macTag .v130 false (keyMultiplier .v130 key 0) (keyPad key 0) pieces.flatten
            ++ macTag .v130 false (keyMultiplier .v130 key 1) (keyPad key 1) pieces.flatten

/-- 47_dual_mac.md (R294, which the spec derives): each half of the dual tag depends on its own key half alone. -/
def Obligations.DualTagHalvesAreIndependent : Prop :=
  ∀ (pieces : List (List Byte)) (s : State) (key : Vector Word 16), (∀ p ∈ pieces, p.length ≤ 64) →
    ∃ t u, runHost (macSession 3 0 false pieces) s = .next t ∧
      runHost (macSession 3 0 false pieces) { s with key := key } = .next u ∧
      ((∀ i : Fin 16, i.val < 8 → key[i] = s.key[i]) → ∀ k < 16, getByte u.tag k = getByte t.tag k) ∧
      ((∀ i : Fin 16, 8 ≤ i.val → key[i] = s.key[i]) → ∀ k < 16, getByte u.tag (16 + k) = getByte t.tag (16 + k))

/-- 46_mac.md section 3 (R267, which the spec derives): two splits of one message leave the same instances and TAG, with
any operands of MACINIT and from any state. -/
def Obligations.MessageSplitDoesNotMatter : Prop :=
  ∀ (sel var : Fin 4) (mod : Bool) (p q : List (List Byte)) (s : State),
    (∀ x ∈ p, x.length ≤ 64) → (∀ x ∈ q, x.length ≤ 64) → p.flatten = q.flatten →
    ∃ t u, runHost (macSession sel var mod p) s = .next t ∧ runHost (macSession sel var mod q) s = .next u ∧
      u.mac0 = t.mac0 ∧ u.mac1 = t.mac1 ∧ u.tag = t.tag

/-- 46_mac.md section 3 (R270 (2), which the spec derives): a first block of zero bytes leaves the instances as MACINIT
left them, whatever the key. -/
def Obligations.LeadingZeroBlockIsAbsorbedWithoutTrace : Prop :=
  ∀ (sel var : Fin 4) (mod : Bool) (s : State), sel ≠ 0 → var.val ≤ 1 → ¬ (mod = true ∧ var = 1) →
    ∃ t u, runHost [cmd (.macinit sel var mod)] s = .next t ∧
      runHost ([cmd (.macinit sel var mod)] ++ loadData [] ++
        [cmd (.macwrite sel (if var = 0 then 16 else 24))]) s = .next u ∧
      u.code = .ok ∧ u.mac0 = t.mac0 ∧ u.mac1 = t.mac1

/-- 46_mac.md section 3 (R268, R269), 10_state.md section 6 (R42): only a reset unconfigures an instance, and only a reset
or a MACINIT that selects it takes it out of Finalized. -/
def Obligations.OnlyMacinitReopensAnInstance : Prop :=
  ∀ (s t : State) (m : Fin 2), step s = .next t → (∀ rest, s.pending ≠ .reset :: rest) →
    ((macOf s m).configured = true → (macOf t m).configured = true) ∧
    ((macOf s m).finalized = true → (macOf t m).finalized = false →
      ∃ sel var mod rest, s.pending = cmd (.macinit sel var mod) :: rest ∧ selected sel m = true ∧
        (Instr.macinit sel var mod).wellFormed = true)

/-- 70_reset_and_hazards.md section 2 (R346): no command but MACINIT lets KEY reach an instance or TAG. -/
def Obligations.KeyIsCapturedAtMacinit : Prop :=
  ∀ (i : Instr) (s : State) (key : Vector Word 16), (∀ sel var mod, i ≠ .macinit sel var mod) →
    ∃ t u, exec i s = .next t ∧ exec i { s with key := key } = .next u ∧
      u.mac0 = t.mac0 ∧ u.mac1 = t.mac1 ∧ u.tag = t.tag ∧ u.code = t.code

/-- 47_dual_mac.md (R292, R295, which the spec derives), 46_mac.md section 2: MACINIT and MACWRITE with SEL = 3 leave the
core as the same command on each instance in turn. -/
def Obligations.BothSelectedEqualsOneAfterTheOther : Prop :=
  (∀ (var : Fin 4) (mod : Bool) (s : State), var.val ≤ 1 → ¬ (mod = true ∧ var = 1) →
    runHost [cmd (.macinit 3 var mod)] s = runHost [cmd (.macinit 1 var mod), cmd (.macinit 2 var mod)] s) ∧
  (∀ (n : Fin 128) (s : State), n.val ≤ 64 → SelectedActive 3 s →
    runHost [cmd (.macwrite 3 n)] s = runHost [cmd (.macwrite 1 n), cmd (.macwrite 2 n)] s)

/-! ## Whole-machine rules -/

/-- 20_memory.md section 5 (R88), 10_state.md sections 4 and 5 (R27 to R39): which commands write which register; no
command writes KEY, NONCE or NONCE_LEN. -/
def Obligations.OnlyTheNamedCommandsWriteEachRegister : Prop :=
  ∀ (i : Instr) (s t : State), exec i s = .next t →
    t.key = s.key ∧ t.nonce = s.nonce ∧ t.nonceLen = s.nonceLen ∧ t.pending = s.pending ∧ t.returned = s.returned ∧
    ((∀ n, i ≠ .scxor n) → t.counter = s.counter ∧ t.dbuf = s.dbuf) ∧
    (i ≠ .blkfinal → i ≠ .genblock → (∀ n, i ≠ .scxor n) → t.ks = s.ks) ∧
    (i ≠ .blkinit → i ≠ .blkfinal → i ≠ .genblock → (∀ n, i ≠ .scxor n) → t.init = s.init) ∧
    ((i = .nop ∨ (∃ sel var mod, i = .macinit sel var mod) ∨ (∃ sel n, i = .macwrite sel n) ∨
      ∃ sel, i = .macfinal sel) → t.state = s.state) ∧
    ((∀ sel, i ≠ .macfinal sel) → t.tag = s.tag) ∧
    ((∀ sel var mod, i ≠ .macinit sel var mod) → (∀ sel n, i ≠ .macwrite sel n) → (∀ sel, i ≠ .macfinal sel) →
      t.mac0 = s.mac0 ∧ t.mac1 = s.mac1) ∧
    (∀ m : Fin 2, (∀ sel var mod, selected sel m = true → i ≠ .macinit sel var mod) →
      (macOf t m).r = (macOf s m).r ∧ (macOf t m).pad = (macOf s m).pad ∧ (macOf t m).var = (macOf s m).var ∧
      (macOf t m).mod = (macOf s m).mod)

/-- 10_state.md section 6 (R41): the state after reset meets the invariants. -/
def Obligations.ResetMeetsTheInvariants : Prop := State.reset.Inv

/-- 10_state.md section 6 (R41 (1) to (6), R36), 45_modular_reducer.md section 2 (R233), 60_exceptions.md section 1 (R317),
which the spec derives: every step, from every state that meets the invariants, leaves them met. -/
def Obligations.EveryStepKeepsTheInvariants : Prop := ∀ s t : State, s.Inv → step s = .next t → t.Inv
end

