-- ==== Sys2Proof/Laws/Bytes.lean ====
section
/-!
SUPPORT. Laws of the byte view (20_memory.md R76) and of little-endian integers (00_scope.md R11).
-/

namespace Sys2Proof.Machine

theorem getD_eq_getElem {n : Nat} (ws : Vector Word n) (i : Nat) (h : i < n) : ws.getD i 0 = ws[i] := by
  simp [Vector.getD, h]

/-- A word is the little-endian number of its four bytes (00_scope.md R11, LE32). -/
theorem packBytes_toNat (b0 b1 b2 b3 : Byte) :
    (packBytes b0 b1 b2 b3).toNat = b0.toNat + 2 ^ 8 * b1.toNat + 2 ^ 16 * b2.toNat + 2 ^ 24 * b3.toNat := by
  have app (m : Nat) (x : BitVec m) (y : Byte) : (x ++ y).toNat = x.toNat * 2 ^ 8 + y.toNat := by
    rw [BitVec.toNat_append, ← Nat.shiftLeft_add_eq_or_of_lt y.isLt, Nat.shiftLeft_eq]
  simp only [packBytes, app]
  omega

/-- Bytes of a word as numbers. -/
theorem extract_byte_toNat (w : Word) (j : Nat) : (w.extractLsb' (8 * j) 8).toNat = w.toNat / 2 ^ (8 * j) % 2 ^ 8 := by
  simp [BitVec.extractLsb'_toNat, Nat.shiftRight_eq_div_pow]

/-- Byte `j` of a packed word is the byte that was packed. -/
theorem extract_packBytes (f : Nat → Byte) (j : Nat) (hj : j < 4) :
    (packBytes (f 0) (f 1) (f 2) (f 3)).extractLsb' (8 * j) 8 = f j := by
  apply BitVec.eq_of_toNat_eq
  rw [extract_byte_toNat, packBytes_toNat]
  have h0 := (f 0).isLt
  have h1 := (f 1).isLt
  have h2 := (f 2).isLt
  have h3 := (f 3).isLt
  have : j = 0 ∨ j = 1 ∨ j = 2 ∨ j = 3 := by omega
  rcases this with rfl | rfl | rfl | rfl <;> norm_num <;> omega

/-- A word is packed from its own bytes. -/
theorem packBytes_extract (w : Word) :
    packBytes (w.extractLsb' 0 8) (w.extractLsb' 8 8) (w.extractLsb' 16 8) (w.extractLsb' 24 8) = w := by
  apply BitVec.eq_of_toNat_eq
  have h0 := extract_byte_toNat w 0
  have h1 := extract_byte_toNat w 1
  have h2 := extract_byte_toNat w 2
  have h3 := extract_byte_toNat w 3
  have := w.isLt
  simp only [Nat.mul_zero, Nat.mul_one, Nat.reduceMul] at h0 h1 h2 h3
  rw [packBytes_toNat, h0, h1, h2, h3]
  omega

/-- Byte `k` of a register array built from bytes. -/
@[simp] theorem getByte_ofBytes {n : Nat} (f : Nat → Byte) (k : Nat) (hk : k < 4 * n) :
    getByte (ofBytes f : Vector Word n) k = f k := by
  have hi : k / 4 < n := by omega
  have e : 4 * (k / 4) + k % 4 = k := by omega
  have h := extract_packBytes (fun j => f (4 * (k / 4) + j)) (k % 4) (by omega)
  rw [Nat.add_zero, e] at h
  rw [getByte, getD_eq_getElem _ _ hi, ofBytes, Vector.getElem_ofFn, h]

/-- Above the array every byte reads 0. -/
theorem getByte_of_le {n : Nat} (ws : Vector Word n) (k : Nat) (hk : 4 * n ≤ k) : getByte ws k = 0 := by
  have hi : ¬ k / 4 < n := by omega
  simp [getByte, Vector.getD, hi]

/-- A register array is its bytes. -/
@[simp] theorem ofBytes_getByte {n : Nat} (ws : Vector Word n) : ofBytes (getByte ws) = ws := by
  ext i hi
  have e0 : 4 * i % 4 = 0 := by omega
  have e1 : (4 * i + 1) % 4 = 1 := by omega
  have e2 : (4 * i + 2) % 4 = 2 := by omega
  have e3 : (4 * i + 3) % 4 = 3 := by omega
  have d0 : 4 * i / 4 = i := by omega
  have d1 : (4 * i + 1) / 4 = i := by omega
  have d2 : (4 * i + 2) / 4 = i := by omega
  have d3 : (4 * i + 3) / 4 = i := by omega
  have h := packBytes_extract ws[i]
  simp only [ofBytes, Vector.getElem_ofFn, getByte, e0, e1, e2, e3, d0, d1, d2, d3, getD_eq_getElem _ _ hi,
    Nat.mul_zero, Nat.mul_one, Nat.reduceMul, h]

/-- Two register arrays with the same bytes are the same. -/
theorem eq_of_getByte_eq {n : Nat} (ws vs : Vector Word n) (h : ∀ k < 4 * n, getByte ws k = getByte vs k) : ws = vs := by
  have e : getByte ws = getByte vs := by
    funext k
    by_cases hk : k < 4 * n
    · exact h k hk
    · rw [getByte_of_le _ _ (by omega), getByte_of_le _ _ (by omega)]
  rw [← ofBytes_getByte ws, e, ofBytes_getByte]

/-- A register array depends on its bytes alone. -/
theorem ofBytes_congr {n : Nat} (f g : Nat → Byte) (h : ∀ k < 4 * n, f k = g k) :
    (ofBytes f : Vector Word n) = ofBytes g :=
  eq_of_getByte_eq _ _ fun k hk => by rw [getByte_ofBytes _ _ hk, getByte_ofBytes _ _ hk, h k hk]

/-- Replacing one byte. -/
theorem getByte_setByte {n : Nat} (ws : Vector Word n) (k j : Nat) (x : Byte) (hj : j < 4 * n) :
    getByte (setByte ws k x) j = if j = k then x else getByte ws j := by
  simp [setByte, hj]

/-- Every byte of an all-zero register array is 0. -/
@[simp] theorem getByte_zero {n : Nat} (k : Nat) : getByte (Vector.replicate n 0#32) k = 0#8 := by
  by_cases h : k / 4 < n
  · rw [getByte, getD_eq_getElem _ _ h]; simp
  · exact getByte_of_le _ _ (by omega)

@[simp] theorem byteSlice_length {n : Nat} (ws : Vector Word n) (start len : Nat) :
    (byteSlice ws start len).length = len := by simp [byteSlice]

@[simp] theorem byteSlice_getElem {n : Nat} (ws : Vector Word n) (start len k : Nat) (hk : k < (byteSlice ws start len).length) :
    (byteSlice ws start len)[k] = getByte ws (start + k) := by simp [byteSlice]

/-- A byte string's number is below `256^length` (00_scope.md R11). -/
theorem leInt_lt (xs : List Byte) : leInt xs < 256 ^ xs.length := by
  induction xs with
  | nil => simp [leInt]
  | cons x xs ih =>
    have hx := x.isLt
    simp only [leInt, List.length_cons, pow_succ]
    omega

/-- LEINT of a concatenation. -/
theorem leInt_append (xs ys : List Byte) : leInt (xs ++ ys) = leInt xs + 256 ^ xs.length * leInt ys := by
  induction xs with
  | nil => simp [leInt]
  | cons x xs ih => simp only [List.cons_append, leInt, ih, List.length_cons, pow_succ]; ring

/-- Zero bytes add nothing. -/
@[simp] theorem leInt_replicate_zero (n : Nat) : leInt (List.replicate n 0#8) = 0 := by
  induction n with
  | zero => rfl
  | succ n ih => simp [List.replicate_succ, leInt, ih]

@[simp] theorem bytesLE_length (v n : Nat) : (bytesLE v n).length = n := by simp [bytesLE]

@[simp] theorem bytesLE_getElem (v n k : Nat) (hk : k < (bytesLE v n).length) :
    (bytesLE v n)[k] = BitVec.ofNat 8 (v / 2 ^ (8 * k)) := by simp [bytesLE]

/-- BYTES_LE takes the low byte first. -/
theorem bytesLE_succ (v n : Nat) : bytesLE v (n + 1) = BitVec.ofNat 8 v :: bytesLE (v / 256) n := by
  simp only [bytesLE, List.range_succ_eq_map, List.map_cons, List.map_map, Nat.mul_zero, pow_zero, Nat.div_one]
  congr 1
  apply List.map_congr_left
  intro k _
  have : 2 ^ (8 * (k + 1)) = 256 * 2 ^ (8 * k) := by
    rw [show 8 * (k + 1) = 8 + 8 * k by ring, pow_add]; rfl
  simp only [Function.comp, Nat.succ_eq_add_one, this, Nat.div_div_eq_div_mul]

/-- LEINT undoes BYTES_LE, which keeps `v mod 2^(8n)` (00_scope.md R11). -/
theorem leInt_bytesLE (v n : Nat) : leInt (bytesLE v n) = v % 256 ^ n := by
  induction n generalizing v with
  | zero => simp [bytesLE, leInt, Nat.mod_one]
  | succ n ih =>
    rw [bytesLE_succ, leInt, ih, BitVec.toNat_ofNat, Nat.pow_succ 256 n, Nat.mul_comm (256 ^ n) 256, Nat.mod_mul]

end Sys2Proof.Machine
end

