-- ==== Sys2Proof/Laws/State.lean ====
section
/-!
SUPPORT. The fields of State and of MacInst after each named update, one lemma a field, so that no proof unfolds a record
update.
-/

namespace Sys2Proof.Machine

/-! ### updateSelected -/

@[simp] theorem updateSelected_code (sel : Fin 4) (f : Fin 2 → MacInst → MacInst) (s : State) : (updateSelected sel f s).code = s.code := rfl
@[simp] theorem updateSelected_err (sel : Fin 4) (f : Fin 2 → MacInst → MacInst) (s : State) : (updateSelected sel f s).err = s.err := rfl
@[simp] theorem updateSelected_errcmd (sel : Fin 4) (f : Fin 2 → MacInst → MacInst) (s : State) : (updateSelected sel f s).errcmd = s.errcmd := rfl
@[simp] theorem updateSelected_nonceLen (sel : Fin 4) (f : Fin 2 → MacInst → MacInst) (s : State) : (updateSelected sel f s).nonceLen = s.nonceLen := rfl
@[simp] theorem updateSelected_counter (sel : Fin 4) (f : Fin 2 → MacInst → MacInst) (s : State) : (updateSelected sel f s).counter = s.counter := rfl
@[simp] theorem updateSelected_key (sel : Fin 4) (f : Fin 2 → MacInst → MacInst) (s : State) : (updateSelected sel f s).key = s.key := rfl
@[simp] theorem updateSelected_nonce (sel : Fin 4) (f : Fin 2 → MacInst → MacInst) (s : State) : (updateSelected sel f s).nonce = s.nonce := rfl
@[simp] theorem updateSelected_state (sel : Fin 4) (f : Fin 2 → MacInst → MacInst) (s : State) : (updateSelected sel f s).state = s.state := rfl
@[simp] theorem updateSelected_init (sel : Fin 4) (f : Fin 2 → MacInst → MacInst) (s : State) : (updateSelected sel f s).init = s.init := rfl
@[simp] theorem updateSelected_ks (sel : Fin 4) (f : Fin 2 → MacInst → MacInst) (s : State) : (updateSelected sel f s).ks = s.ks := rfl
@[simp] theorem updateSelected_dbuf (sel : Fin 4) (f : Fin 2 → MacInst → MacInst) (s : State) : (updateSelected sel f s).dbuf = s.dbuf := rfl
@[simp] theorem updateSelected_mac0 (sel : Fin 4) (f : Fin 2 → MacInst → MacInst) (s : State) : (updateSelected sel f s).mac0 = (if selected sel 0 then f 0 s.mac0 else s.mac0) := rfl
@[simp] theorem updateSelected_mac1 (sel : Fin 4) (f : Fin 2 → MacInst → MacInst) (s : State) : (updateSelected sel f s).mac1 = (if selected sel 1 then f 1 s.mac1 else s.mac1) := rfl
@[simp] theorem updateSelected_tag (sel : Fin 4) (f : Fin 2 → MacInst → MacInst) (s : State) : (updateSelected sel f s).tag = s.tag := rfl
@[simp] theorem updateSelected_pending (sel : Fin 4) (f : Fin 2 → MacInst → MacInst) (s : State) : (updateSelected sel f s).pending = s.pending := rfl
@[simp] theorem updateSelected_returned (sel : Fin 4) (f : Fin 2 → MacInst → MacInst) (s : State) : (updateSelected sel f s).returned = s.returned := rfl

/-! ### destroyState -/

@[simp] theorem destroyState_code (s : State) : (destroyState s).code = s.code := rfl
@[simp] theorem destroyState_err (s : State) : (destroyState s).err = s.err := rfl
@[simp] theorem destroyState_errcmd (s : State) : (destroyState s).errcmd = s.errcmd := rfl
@[simp] theorem destroyState_nonceLen (s : State) : (destroyState s).nonceLen = s.nonceLen := rfl
@[simp] theorem destroyState_counter (s : State) : (destroyState s).counter = s.counter := rfl
@[simp] theorem destroyState_key (s : State) : (destroyState s).key = s.key := rfl
@[simp] theorem destroyState_nonce (s : State) : (destroyState s).nonce = s.nonce := rfl
@[simp] theorem destroyState_state (s : State) : (destroyState s).state = Vector.replicate 16 0#32 := rfl
@[simp] theorem destroyState_init (s : State) : (destroyState s).init = Vector.replicate 16 0#32 := rfl
@[simp] theorem destroyState_ks (s : State) : (destroyState s).ks = s.ks := rfl
@[simp] theorem destroyState_dbuf (s : State) : (destroyState s).dbuf = s.dbuf := rfl
@[simp] theorem destroyState_mac0 (s : State) : (destroyState s).mac0 = s.mac0 := rfl
@[simp] theorem destroyState_mac1 (s : State) : (destroyState s).mac1 = s.mac1 := rfl
@[simp] theorem destroyState_tag (s : State) : (destroyState s).tag = s.tag := rfl
@[simp] theorem destroyState_pending (s : State) : (destroyState s).pending = s.pending := rfl
@[simp] theorem destroyState_returned (s : State) : (destroyState s).returned = s.returned := rfl

/-! ### scxorEffect -/

@[simp] theorem scxorEffect_code (n : Nat) (s : State) : (scxorEffect n s).code = s.code := rfl
@[simp] theorem scxorEffect_err (n : Nat) (s : State) : (scxorEffect n s).err = s.err := rfl
@[simp] theorem scxorEffect_errcmd (n : Nat) (s : State) : (scxorEffect n s).errcmd = s.errcmd := rfl
@[simp] theorem scxorEffect_nonceLen (n : Nat) (s : State) : (scxorEffect n s).nonceLen = s.nonceLen := rfl
@[simp] theorem scxorEffect_counter (n : Nat) (s : State) : (scxorEffect n s).counter = s.counter + 1 := rfl
@[simp] theorem scxorEffect_key (n : Nat) (s : State) : (scxorEffect n s).key = s.key := rfl
@[simp] theorem scxorEffect_nonce (n : Nat) (s : State) : (scxorEffect n s).nonce = s.nonce := rfl
@[simp] theorem scxorEffect_state (n : Nat) (s : State) : (scxorEffect n s).state = Vector.replicate 16 0#32 := rfl
@[simp] theorem scxorEffect_init (n : Nat) (s : State) : (scxorEffect n s).init = Vector.replicate 16 0#32 := rfl
@[simp] theorem scxorEffect_ks (n : Nat) (s : State) : (scxorEffect n s).ks = currentBlock s := rfl
@[simp] theorem scxorEffect_dbuf (n : Nat) (s : State) : (scxorEffect n s).dbuf = xorBytes n s.dbuf (currentBlock s) := rfl
@[simp] theorem scxorEffect_mac0 (n : Nat) (s : State) : (scxorEffect n s).mac0 = s.mac0 := rfl
@[simp] theorem scxorEffect_mac1 (n : Nat) (s : State) : (scxorEffect n s).mac1 = s.mac1 := rfl
@[simp] theorem scxorEffect_tag (n : Nat) (s : State) : (scxorEffect n s).tag = s.tag := rfl
@[simp] theorem scxorEffect_pending (n : Nat) (s : State) : (scxorEffect n s).pending = s.pending := rfl
@[simp] theorem scxorEffect_returned (n : Nat) (s : State) : (scxorEffect n s).returned = s.returned := rfl

/-! ### readAccess -/

@[simp] theorem readAccess_code (addr : Nat) (s : State) : (readAccess addr s).code = s.code := rfl
@[simp] theorem readAccess_err (addr : Nat) (s : State) : (readAccess addr s).err = s.err := rfl
@[simp] theorem readAccess_errcmd (addr : Nat) (s : State) : (readAccess addr s).errcmd = s.errcmd := rfl
@[simp] theorem readAccess_nonceLen (addr : Nat) (s : State) : (readAccess addr s).nonceLen = s.nonceLen := rfl
@[simp] theorem readAccess_counter (addr : Nat) (s : State) : (readAccess addr s).counter = s.counter := rfl
@[simp] theorem readAccess_key (addr : Nat) (s : State) : (readAccess addr s).key = s.key := rfl
@[simp] theorem readAccess_nonce (addr : Nat) (s : State) : (readAccess addr s).nonce = s.nonce := rfl
@[simp] theorem readAccess_state (addr : Nat) (s : State) : (readAccess addr s).state = s.state := rfl
@[simp] theorem readAccess_init (addr : Nat) (s : State) : (readAccess addr s).init = s.init := rfl
@[simp] theorem readAccess_ks (addr : Nat) (s : State) : (readAccess addr s).ks = s.ks := rfl
@[simp] theorem readAccess_dbuf (addr : Nat) (s : State) : (readAccess addr s).dbuf = s.dbuf := rfl
@[simp] theorem readAccess_mac0 (addr : Nat) (s : State) : (readAccess addr s).mac0 = s.mac0 := rfl
@[simp] theorem readAccess_mac1 (addr : Nat) (s : State) : (readAccess addr s).mac1 = s.mac1 := rfl
@[simp] theorem readAccess_tag (addr : Nat) (s : State) : (readAccess addr s).tag = s.tag := rfl
@[simp] theorem readAccess_pending (addr : Nat) (s : State) : (readAccess addr s).pending = s.pending := rfl
@[simp] theorem readAccess_returned (addr : Nat) (s : State) : (readAccess addr s).returned = busRead s addr :: s.returned := rfl

/-! ### State.withFetchWord -/

@[simp] theorem withFetchWord_code (s : State) (nbits w : Nat) : (s.withFetchWord nbits w).code = s.code := rfl
@[simp] theorem withFetchWord_err (s : State) (nbits w : Nat) : (s.withFetchWord nbits w).err = s.err := rfl
@[simp] theorem withFetchWord_errcmd (s : State) (nbits w : Nat) : (s.withFetchWord nbits w).errcmd = s.errcmd := rfl
@[simp] theorem withFetchWord_nonceLen (s : State) (nbits w : Nat) : (s.withFetchWord nbits w).nonceLen = s.nonceLen := rfl
@[simp] theorem withFetchWord_counter (s : State) (nbits w : Nat) : (s.withFetchWord nbits w).counter = s.counter := rfl
@[simp] theorem withFetchWord_key (s : State) (nbits w : Nat) : (s.withFetchWord nbits w).key = s.key := rfl
@[simp] theorem withFetchWord_nonce (s : State) (nbits w : Nat) : (s.withFetchWord nbits w).nonce = s.nonce := rfl
@[simp] theorem withFetchWord_state (s : State) (nbits w : Nat) : (s.withFetchWord nbits w).state = s.state := rfl
@[simp] theorem withFetchWord_init (s : State) (nbits w : Nat) : (s.withFetchWord nbits w).init = s.init := rfl
@[simp] theorem withFetchWord_ks (s : State) (nbits w : Nat) : (s.withFetchWord nbits w).ks = s.ks := rfl
@[simp] theorem withFetchWord_dbuf (s : State) (nbits w : Nat) : (s.withFetchWord nbits w).dbuf = s.dbuf := rfl
@[simp] theorem withFetchWord_mac0 (s : State) (nbits w : Nat) : (s.withFetchWord nbits w).mac0 = s.mac0 := rfl
@[simp] theorem withFetchWord_mac1 (s : State) (nbits w : Nat) : (s.withFetchWord nbits w).mac1 = s.mac1 := rfl
@[simp] theorem withFetchWord_tag (s : State) (nbits w : Nat) : (s.withFetchWord nbits w).tag = s.tag := rfl
@[simp] theorem withFetchWord_pending (s : State) (nbits w : Nat) : (s.withFetchWord nbits w).pending = .write .word cmdAddr (BitVec.ofNat 32 (w % 2 ^ nbits)) :: s.pending := rfl
@[simp] theorem withFetchWord_returned (s : State) (nbits w : Nat) : (s.withFetchWord nbits w).returned = s.returned := rfl

/-! ### resetAccess -/

@[simp] theorem resetAccess_code (s : State) : (resetAccess s).code = State.reset.code := rfl
@[simp] theorem resetAccess_err (s : State) : (resetAccess s).err = State.reset.err := rfl
@[simp] theorem resetAccess_errcmd (s : State) : (resetAccess s).errcmd = State.reset.errcmd := rfl
@[simp] theorem resetAccess_nonceLen (s : State) : (resetAccess s).nonceLen = State.reset.nonceLen := rfl
@[simp] theorem resetAccess_counter (s : State) : (resetAccess s).counter = State.reset.counter := rfl
@[simp] theorem resetAccess_key (s : State) : (resetAccess s).key = State.reset.key := rfl
@[simp] theorem resetAccess_nonce (s : State) : (resetAccess s).nonce = State.reset.nonce := rfl
@[simp] theorem resetAccess_state (s : State) : (resetAccess s).state = State.reset.state := rfl
@[simp] theorem resetAccess_init (s : State) : (resetAccess s).init = State.reset.init := rfl
@[simp] theorem resetAccess_ks (s : State) : (resetAccess s).ks = State.reset.ks := rfl
@[simp] theorem resetAccess_dbuf (s : State) : (resetAccess s).dbuf = State.reset.dbuf := rfl
@[simp] theorem resetAccess_mac0 (s : State) : (resetAccess s).mac0 = State.reset.mac0 := rfl
@[simp] theorem resetAccess_mac1 (s : State) : (resetAccess s).mac1 = State.reset.mac1 := rfl
@[simp] theorem resetAccess_tag (s : State) : (resetAccess s).tag = State.reset.tag := rfl
@[simp] theorem resetAccess_pending (s : State) : (resetAccess s).pending = s.pending := rfl
@[simp] theorem resetAccess_returned (s : State) : (resetAccess s).returned = s.returned := rfl

/-! ### Finalize on one instance -/

@[simp] theorem finalized_configured (I : MacInst) : (finalized I).configured = I.configured := rfl
@[simp] theorem finalized_var (I : MacInst) : (finalized I).var = I.var := rfl
@[simp] theorem finalized_mod (I : MacInst) : (finalized I).mod = I.mod := rfl
@[simp] theorem finalized_r (I : MacInst) : (finalized I).r = I.r := rfl
@[simp] theorem finalized_pad (I : MacInst) : (finalized I).pad = I.pad := rfl
@[simp] theorem finalized_finalized (I : MacInst) : (finalized I).finalized = true := rfl
@[simp] theorem finalized_count (I : MacInst) : (finalized I).count = 0#5 := rfl
@[simp] theorem finalized_buf (I : MacInst) : (finalized I).buf = Vector.replicate 6 0#32 := rfl
@[simp] theorem finalized_h (I : MacInst) : (finalized I).h = limbRegs (finalLimbs I) := rfl

/-! ### Absorb on one instance -/

@[simp] theorem absorbByte_configured (I : MacInst) (x : Byte) : (absorbByte I x).configured = I.configured := by
  unfold absorbByte
  split <;> rfl

@[simp] theorem absorb_configured (I : MacInst) (xs : List Byte) : (absorb I xs).configured = I.configured := by
  induction xs generalizing I with
  | nil => rfl
  | cons x xs ih => exact (ih (absorbByte I x)).trans (absorbByte_configured I x)

@[simp] theorem absorbByte_finalized (I : MacInst) (x : Byte) : (absorbByte I x).finalized = I.finalized := by
  unfold absorbByte
  split <;> rfl

@[simp] theorem absorb_finalized (I : MacInst) (xs : List Byte) : (absorb I xs).finalized = I.finalized := by
  induction xs generalizing I with
  | nil => rfl
  | cons x xs ih => exact (ih (absorbByte I x)).trans (absorbByte_finalized I x)

@[simp] theorem absorbByte_var (I : MacInst) (x : Byte) : (absorbByte I x).var = I.var := by
  unfold absorbByte
  split <;> rfl

@[simp] theorem absorb_var (I : MacInst) (xs : List Byte) : (absorb I xs).var = I.var := by
  induction xs generalizing I with
  | nil => rfl
  | cons x xs ih => exact (ih (absorbByte I x)).trans (absorbByte_var I x)

@[simp] theorem absorbByte_mod (I : MacInst) (x : Byte) : (absorbByte I x).mod = I.mod := by
  unfold absorbByte
  split <;> rfl

@[simp] theorem absorb_mod (I : MacInst) (xs : List Byte) : (absorb I xs).mod = I.mod := by
  induction xs generalizing I with
  | nil => rfl
  | cons x xs ih => exact (ih (absorbByte I x)).trans (absorbByte_mod I x)

@[simp] theorem absorbByte_r (I : MacInst) (x : Byte) : (absorbByte I x).r = I.r := by
  unfold absorbByte
  split <;> rfl

@[simp] theorem absorb_r (I : MacInst) (xs : List Byte) : (absorb I xs).r = I.r := by
  induction xs generalizing I with
  | nil => rfl
  | cons x xs ih => exact (ih (absorbByte I x)).trans (absorbByte_r I x)

@[simp] theorem absorbByte_pad (I : MacInst) (x : Byte) : (absorbByte I x).pad = I.pad := by
  unfold absorbByte
  split <;> rfl

@[simp] theorem absorb_pad (I : MacInst) (xs : List Byte) : (absorb I xs).pad = I.pad := by
  induction xs generalizing I with
  | nil => rfl
  | cons x xs ih => exact (ih (absorbByte I x)).trans (absorbByte_pad I x)

theorem absorb_nil (I : MacInst) : absorb I [] = I := rfl

theorem absorb_cons (I : MacInst) (x : Byte) (xs : List Byte) : absorb I (x :: xs) = absorb (absorbByte I x) xs := rfl

theorem absorb_append (I : MacInst) (xs ys : List Byte) : absorb I (xs ++ ys) = absorb (absorb I xs) ys :=
  List.foldl_append ..

/-! ### busWrite -/

/-- BusWrite touches only the six host-writable registers (20_memory.md R78). -/
theorem busWrite_frame (addr : Nat) (v : Word) (s : State) :
    ∃ nl c k n st d, busWrite addr v s
      = { s with nonceLen := nl, counter := c, key := k, nonce := n, state := st, dbuf := d } := by
  unfold busWrite
  split
  · exact ⟨_, _, _, _, _, _, rfl⟩
  split
  · exact ⟨_, _, _, _, _, _, rfl⟩
  split
  · exact ⟨_, _, _, _, _, _, rfl⟩
  split
  · exact ⟨_, _, _, _, _, _, rfl⟩
  split
  · exact ⟨_, _, _, _, _, _, rfl⟩
  split
  · exact ⟨_, _, _, _, _, _, rfl⟩
  · exact ⟨_, _, _, _, _, _, rfl⟩

@[simp] theorem busWrite_code (addr : Nat) (v : Word) (s : State) : (busWrite addr v s).code = s.code := by
  obtain ⟨_, _, _, _, _, _, h⟩ := busWrite_frame addr v s
  rw [h]

@[simp] theorem busWrite_err (addr : Nat) (v : Word) (s : State) : (busWrite addr v s).err = s.err := by
  obtain ⟨_, _, _, _, _, _, h⟩ := busWrite_frame addr v s
  rw [h]

@[simp] theorem busWrite_errcmd (addr : Nat) (v : Word) (s : State) : (busWrite addr v s).errcmd = s.errcmd := by
  obtain ⟨_, _, _, _, _, _, h⟩ := busWrite_frame addr v s
  rw [h]

@[simp] theorem busWrite_init (addr : Nat) (v : Word) (s : State) : (busWrite addr v s).init = s.init := by
  obtain ⟨_, _, _, _, _, _, h⟩ := busWrite_frame addr v s
  rw [h]

@[simp] theorem busWrite_ks (addr : Nat) (v : Word) (s : State) : (busWrite addr v s).ks = s.ks := by
  obtain ⟨_, _, _, _, _, _, h⟩ := busWrite_frame addr v s
  rw [h]

@[simp] theorem busWrite_mac0 (addr : Nat) (v : Word) (s : State) : (busWrite addr v s).mac0 = s.mac0 := by
  obtain ⟨_, _, _, _, _, _, h⟩ := busWrite_frame addr v s
  rw [h]

@[simp] theorem busWrite_mac1 (addr : Nat) (v : Word) (s : State) : (busWrite addr v s).mac1 = s.mac1 := by
  obtain ⟨_, _, _, _, _, _, h⟩ := busWrite_frame addr v s
  rw [h]

@[simp] theorem busWrite_tag (addr : Nat) (v : Word) (s : State) : (busWrite addr v s).tag = s.tag := by
  obtain ⟨_, _, _, _, _, _, h⟩ := busWrite_frame addr v s
  rw [h]

@[simp] theorem busWrite_pending (addr : Nat) (v : Word) (s : State) : (busWrite addr v s).pending = s.pending := by
  obtain ⟨_, _, _, _, _, _, h⟩ := busWrite_frame addr v s
  rw [h]

@[simp] theorem busWrite_returned (addr : Nat) (v : Word) (s : State) : (busWrite addr v s).returned = s.returned := by
  obtain ⟨_, _, _, _, _, _, h⟩ := busWrite_frame addr v s
  rw [h]

end Sys2Proof.Machine
end

