-- ==== Sys2Proof/Laws/Control.lean ====
section
/-!
SUPPORT. Everything a command can do at its end (00_scope.md R14, 60_exceptions.md R314, R320), and everything a step can
do (10_state.md R20), said once.
-/

namespace Sys2Proof.Machine

/-- What a command that completes leaves of the registers no command writes (20_memory.md R88) and of the host. -/
structure KeepsHostSide (s u : State) : Prop where
  code : u.code = s.code
  err : u.err = s.err
  errcmd : u.errcmd = s.errcmd
  nonceLen : u.nonceLen = s.nonceLen
  key : u.key = s.key
  nonce : u.nonce = s.nonce
  pending : u.pending = s.pending
  returned : u.returned = s.returned

/-- Every command either raises a code other than OK and BUFFER_BOUNDS_VIOLATION with its own word, or completes with an
effect that keeps the host's side. -/
theorem exec_raises_or_completes (i : Instr) (s : State) :
    (∃ e, e ≠ .ok ∧ e ≠ .illegalCommand ∧ e ≠ .bufferBoundsViolation ∧ exec i s = raise (encode i) e s) ∨
    (∃ u, KeepsHostSide s u ∧ exec i s = complete u) := by
  have fail {e : ResultCode} {w : Word} (h1 : e ≠ .ok) (h2 : e ≠ .illegalCommand) (h3 : e ≠ .bufferBoundsViolation) :
      (∃ e', e' ≠ .ok ∧ e' ≠ .illegalCommand ∧ e' ≠ .bufferBoundsViolation ∧ raise w e s = raise w e' s) :=
    ⟨e, h1, h2, h3, rfl⟩
  cases i with
  | nop => exact .inr ⟨s, ⟨rfl, rfl, rfl, rfl, rfl, rfl, rfl, rfl⟩, rfl⟩
  | qr a b c d =>
    simp only [exec, execQr]
    split
    · exact .inr ⟨_, by constructor <;> rfl, rfl⟩
    · exact .inl (fail (by decide) (by decide) (by decide))
  | colround => exact .inr ⟨{ s with state := columnRound s.state }, by constructor <;> rfl, rfl⟩
  | diaground => exact .inr ⟨{ s with state := diagonalRound s.state }, by constructor <;> rfl, rfl⟩
  | dround => exact .inr ⟨{ s with state := doubleRound s.state }, by constructor <;> rfl, rfl⟩
  | blkinit =>
    simp only [exec, execBlkinit]
    split
    · exact .inl (fail (by decide) (by decide) (by decide))
    · exact .inr ⟨_, by constructor <;> rfl, rfl⟩
  | blkfinal =>
    exact .inr ⟨destroyState { s with ks := feedForward s.state s.init }, by constructor <;> rfl, rfl⟩
  | genblock =>
    simp only [exec, execGenblock]
    split
    · exact .inl (fail (by decide) (by decide) (by decide))
    · exact .inr ⟨_, by constructor <;> rfl, rfl⟩
  | scxor n =>
    simp only [exec, execScxor]
    split
    · exact .inl (fail (by decide) (by decide) (by decide))
    split
    · exact .inl (fail (by decide) (by decide) (by decide))
    · exact .inr ⟨_, by constructor <;> rfl, rfl⟩
  | macinit sel var mod =>
    simp only [exec, execMacinit]
    split
    · exact .inl (fail (by decide) (by decide) (by decide))
    · exact .inr ⟨_, by constructor <;> rfl, rfl⟩
  | macwrite sel n =>
    simp only [exec, execMacwrite]
    split
    · exact .inl (fail (by decide) (by decide) (by decide))
    split
    · exact .inl (fail (by decide) (by decide) (by decide))
    split
    · exact .inl (fail (by decide) (by decide) (by decide))
    · exact .inr ⟨_, by constructor <;> rfl, rfl⟩
  | macfinal sel =>
    simp only [exec, execMacfinal]
    split
    · exact .inl (fail (by decide) (by decide) (by decide))
    split
    · exact .inl (fail (by decide) (by decide) (by decide))
    split
    · exact .inl (fail (by decide) (by decide) (by decide))
    split
    · exact .inl (fail (by decide) (by decide) (by decide))
    · exact .inr ⟨_, by constructor <;> rfl, rfl⟩

/-- Everything a step that answers a next state can have done: nothing (no access waits), a bus read, a bus write, a
reset, an illegal command word, or a command. -/
theorem step_next_cases {s t : State} (h : step s = .next t) :
    (s.pending = [] ∧ t = s) ∨
    ∃ a rest, s.pending = a :: rest ∧
      ((∃ addr, busAction a = .read addr ∧ t = readAccess addr { s with pending := rest }) ∨
       (∃ addr v, busAction a = .write addr v ∧ t = busWrite addr v { s with pending := rest }) ∨
       (busAction a = .reset ∧ t = resetAccess { s with pending := rest }) ∨
       (∃ w e, busAction a = .command w ∧ decode w = .error e
          ∧ illegalCommand w { s with pending := rest } = .next t) ∨
       (∃ w i, busAction a = .command w ∧ decode w = .ok i ∧ exec i { s with pending := rest } = .next t)) := by
  unfold step at h
  split at h
  · rename_i hp
    exact .inl ⟨hp, by simpa using h.symm⟩
  · rename_i a rest hp
    refine .inr ⟨a, rest, hp, ?_⟩
    unfold perform at h
    split at h
    · cases h
    · rename_i addr ha
      exact .inl ⟨addr, ha, by simpa using h.symm⟩
    · rename_i addr v ha
      exact .inr (.inl ⟨addr, v, ha, by simpa using h.symm⟩)
    · rename_i w ha
      unfold execute at h
      split at h
      · rename_i i hd
        exact .inr (.inr (.inr (.inr ⟨w, i, ha, hd, h⟩)))
      · rename_i e hd
        exact .inr (.inr (.inr (.inl ⟨w, e, ha, hd, h⟩)))
    · rename_i ha
      exact .inr (.inr (.inl ⟨ha, by simpa using h.symm⟩))

/-- A command access is the command word on CMD (20_memory.md R78). -/
@[simp] theorem busAction_cmd (w : Word) : busAction (.write .word cmdAddr w) = .command w := by
  simp [busAction, accessRefusal, cmdAddr]

/-- A run of one access more: the first step, then the rest (70_reset_and_hazards.md R348). -/
theorem runHost_cons (a : Access) (as : List Access) (s : State) :
    runHost (a :: as) s =
      match perform a { s with pending := as } with
      | .next t => core.run as.length t
      | .fault r => .fault r
      | .refused r => .refused r := by
  have e : core.step { s with pending := a :: as } = perform a { s with pending := as } := rfl
  simp only [runHost, List.length_cons, Host.Core.run, e]
  cases perform a { s with pending := as } <;> rfl

/-- A run of no access leaves the registers as they are. -/
@[simp] theorem runHost_nil (s : State) : runHost [] s = .next { s with pending := [] } := rfl

/-- No command and no access but the taking of one changes the host's input list. -/
theorem perform_pending {a : Access} {s t : State} (h : perform a s = .next t) : t.pending = s.pending := by
  unfold perform at h
  split at h
  · cases h
  · cases h; rfl
  · cases h; simp
  · unfold execute at h
    split at h
    · rename_i i _
      rcases exec_raises_or_completes i s with ⟨e, -, -, -, he⟩ | ⟨u, hu, he⟩
      · rw [he] at h; cases h; rfl
      · rw [he] at h; cases h; exact hu.pending
    · cases h; rfl
  · cases h; rfl

/-- The first access of a run answers `t`: the rest of the run goes on from `t`. -/
theorem runHost_cons_next {a : Access} {as : List Access} {s t : State}
    (h : perform a { s with pending := as } = .next t) : runHost (a :: as) s = runHost as t := by
  have hp := perform_pending h
  rw [runHost_cons, h]
  simp only at hp ⊢
  cases t
  simp only at hp
  subst hp
  rfl

/-- The result with its next state, if it has one, changed. -/
def mapNext (f : State → State) : Result → Result
  | .next t => .next (f t)
  | .fault r => .fault r
  | .refused r => .refused r

/-- No command reads or writes the host's input list (10_state.md R21). -/
theorem exec_pending (i : Instr) (p : List Access) (s : State) :
    exec i { s with pending := p } = mapNext (fun t => { t with pending := p }) (exec i s) := by
  have eN : nonceLengthWrong { s with pending := p } = nonceLengthWrong s := rfl
  have eU (sel : Fin 4) : someUnconfigured sel { s with pending := p } = someUnconfigured sel s := rfl
  have eF (sel : Fin 4) : someFinalized sel { s with pending := p } = someFinalized sel s := rfl
  have eD (sel : Fin 4) : dualMismatch sel { s with pending := p } = dualMismatch sel s := rfl
  cases i with
  | nop => rfl
  | qr a b c d => simp only [exec, execQr]; split <;> rfl
  | colround => rfl
  | diaground => rfl
  | dround => rfl
  | blkinit => simp only [exec, execBlkinit, eN]; cases nonceLengthWrong s <;> rfl
  | blkfinal => rfl
  | genblock => simp only [exec, execGenblock, eN]; cases nonceLengthWrong s <;> rfl
  | scxor n =>
    simp only [exec, execScxor, eN]
    cases scxorLengthIllegal n <;> cases nonceLengthWrong s <;> rfl
  | macinit sel var mod => simp only [exec, execMacinit]; cases macinitIllegal sel var mod <;> rfl
  | macwrite sel n =>
    simp only [exec, execMacwrite, eU, eF]
    cases macwriteIllegal sel n <;> cases someUnconfigured sel s <;> cases someFinalized sel s <;> rfl
  | macfinal sel =>
    simp only [exec, execMacfinal, eU, eF, eD]
    cases macfinalIllegal sel <;> cases someUnconfigured sel s <;> cases someFinalized sel s <;>
      cases dualMismatch sel s <;> rfl

/-- No access reads or writes the host's input list once it has been taken off it. -/
theorem perform_setPending (a : Access) (p : List Access) (s : State) :
    perform a { s with pending := p } = mapNext (fun t => { t with pending := p }) (perform a s) := by
  unfold perform
  cases busAction a with
  | refuse r => rfl
  | read addr => rfl
  | write addr v =>
    simp only [busWrite]
    split
    · rfl
    split
    · rfl
    split
    · rfl
    split
    · rfl
    split
    · rfl
    split <;> rfl
  | command w =>
    simp only [execute]
    cases decode w with
    | error e => rfl
    | ok i => exact exec_pending i p s
  | reset => rfl

/-- A run in two parts. -/
theorem runHost_append {as bs : List Access} {s t : State} (h : runHost as s = .next t) :
    runHost (as ++ bs) s = runHost bs t := by
  induction as generalizing s with
  | nil => cases h; rfl
  | cons a as ih =>
    cases hp : perform a s with
    | next u =>
      have h1 : perform a { s with pending := as } = .next { u with pending := as } := by
        rw [perform_setPending, hp]; rfl
      have h2 : perform a { s with pending := as ++ bs } = .next { u with pending := as ++ bs } := by
        rw [perform_setPending, hp]; rfl
      rw [runHost_cons_next h1] at h
      rw [List.cons_append, runHost_cons_next h2]
      exact ih (s := { u with pending := as ++ bs }) h
    | fault r => cases r
    | refused r =>
      have h1 : perform a { s with pending := as } = .refused r := by rw [perform_setPending, hp]; rfl
      rw [runHost_cons, h1] at h
      cases h

end Sys2Proof.Machine
end

