-- ==== Sys2Proof/Laws/Limbs.lean ====
section
/-!
SUPPORT. Laws of limb vectors (00_scope.md R13), the carry pass and Normalize (45_modular_reducer.md R231, R232), and the
limb registers (10_state.md R35).
-/

namespace Sys2Proof.Machine

/-- The value of a canonical vector is below `2^(N*b)` (00_scope.md R13). -/
theorem limbValue_lt {b : Nat} {x : List Nat} (hx : CanonicalLimbs b x) : limbValue b x < 2 ^ (b * x.length) := by
  induction x with
  | nil => simp [limbValue]
  | cons l x ih =>
    have hl : l < 2 ^ b := hx l (by simp)
    have hr := ih fun m hm => hx m (by simp [hm])
    have : 2 ^ b * (limbValue b x + 1) ≤ 2 ^ b * 2 ^ (b * x.length) := Nat.mul_le_mul_left _ hr
    rw [limbValue, List.length_cons, Nat.mul_add, Nat.mul_one, Nat.add_comm (b * _) b, pow_add]
    nlinarith

/-- A canonical vector is determined by its length and value. -/
theorem canonical_ext {b : Nat} {x y : List Nat} (hx : CanonicalLimbs b x) (hy : CanonicalLimbs b y)
    (hlen : x.length = y.length) (hv : limbValue b x = limbValue b y) : x = y := by
  induction x generalizing y with
  | nil => cases y with
    | nil => rfl
    | cons => simp at hlen
  | cons l x ih => cases y with
    | nil => simp at hlen
    | cons m y =>
      have hl : l < 2 ^ b := hx l (by simp)
      have hm : m < 2 ^ b := hy m (by simp)
      simp only [limbValue] at hv
      have h1 : l = m := by
        have := congrArg (· % 2 ^ b) hv
        simpa [Nat.add_mul_mod_self_left, Nat.mod_eq_of_lt hl, Nat.mod_eq_of_lt hm] using this
      have h2 : limbValue b x = limbValue b y := by
        subst h1
        exact Nat.eq_of_mul_eq_mul_left (Nat.two_pow_pos b) (by omega)
      rw [h1, ih (fun n hn => hx n (by simp [hn])) (fun n hn => hy n (by simp [hn])) (by simpa using hlen) h2]

/-- LIMBS is canonical, of the variant's length, and holds `v mod 2^K`. -/
theorem limbs_canonical (var : Variant) (v : Nat) : CanonicalLimbs (limbBits var) (limbs var v) := by
  intro l hl
  simp only [limbs, List.mem_map] at hl
  obtain ⟨i, -, rfl⟩ := hl
  exact Nat.mod_lt _ (Nat.two_pow_pos _)

@[simp] theorem limbs_length (var : Variant) (v : Nat) : (limbs var v).length = limbCount var := by simp [limbs]

/-- The value of the vector of base-`2^b` digits of a number. -/
theorem limbValue_digits (b n v : Nat) :
    limbValue b ((List.range n).map fun i => v / 2 ^ (b * i) % 2 ^ b) = v % 2 ^ (b * n) := by
  induction n generalizing v with
  | zero => simp [limbValue, Nat.mod_one]
  | succ n ih =>
    have e : (List.range (n + 1)).map (fun i => v / 2 ^ (b * i) % 2 ^ b)
        = v % 2 ^ b :: (List.range n).map fun i => v / 2 ^ b / 2 ^ (b * i) % 2 ^ b := by
      rw [List.range_succ_eq_map, List.map_cons, List.map_map]
      simp only [Nat.mul_zero, pow_zero, Nat.div_one]
      congr 1
      apply List.map_congr_left
      intro i _
      simp only [Function.comp, Nat.succ_eq_add_one, Nat.mul_add, Nat.mul_one, Nat.add_comm (b * i) b, pow_add,
        Nat.div_div_eq_div_mul]
    rw [e, limbValue, ih, Nat.mul_add, Nat.mul_one, Nat.add_comm (b * n) b, pow_add, Nat.mod_mul]

theorem limbValue_limbs (var : Variant) (v : Nat) : limbValue (limbBits var) (limbs var v) = v % 2 ^ valueBits var := by
  rw [limbs, limbValue_digits, valueBits, Nat.mul_comm]

/-- A carry pass is exact: no value is lost (45_modular_reducer.md R232 (1)). -/
theorem carryPass_value (b c : Nat) (x : List Nat) :
    limbValue b (carryPass b c x).1 + (carryPass b c x).2 * 2 ^ (b * x.length) = limbValue b x + c := by
  induction x generalizing c with
  | nil => simp [carryPass, limbValue]
  | cons l x ih =>
    have h := ih ((l + c) / 2 ^ b)
    have d := Nat.mod_add_div (l + c) (2 ^ b)
    simp only [carryPass, limbValue, List.length_cons]
    have e : 2 ^ (b * (x.length + 1)) = 2 ^ b * 2 ^ (b * x.length) := by
      rw [Nat.mul_add, Nat.mul_one, Nat.add_comm, pow_add]
    rw [e]
    nlinarith [congrArg (2 ^ b * ·) h]

/-- The output of a carry pass is canonical (45_modular_reducer.md R232 (1)). -/
theorem carryPass_canonical (b c : Nat) (x : List Nat) : CanonicalLimbs b (carryPass b c x).1 := by
  induction x generalizing c with
  | nil => simp [carryPass, CanonicalLimbs]
  | cons l x ih =>
    intro m hm
    simp only [carryPass, List.mem_cons] at hm
    rcases hm with rfl | hm
    · exact Nat.mod_lt _ (Nat.two_pow_pos _)
    · exact ih _ m hm

@[simp] theorem carryPass_length (b c : Nat) (x : List Nat) : (carryPass b c x).1.length = x.length := by
  induction x generalizing c with
  | nil => rfl
  | cons l x ih => simp [carryPass, ih]

@[simp] theorem foldCarry_length (c : Nat) (x : List Nat) : (foldCarry c x).length = x.length := by
  cases x <;> rfl

/-- The fold adds `5 * c` to the value (45_modular_reducer.md R231). -/
theorem foldCarry_value (b c : Nat) (x : List Nat) (hx : x ≠ []) :
    limbValue b (foldCarry c x) = limbValue b x + foldFactor * c := by
  cases x with
  | nil => exact absurd rfl hx
  | cons l x => simp only [foldCarry, limbValue]; ring

/-- Everything the loop of Normalize does while its fuel lasts: the result is canonical, of the same length, and has the
same residue mod `2^(b*N) - 5`. -/
theorem normalizeLoop_spec (b fuel : Nat) (x : List Nat) (hx : x ≠ []) (hP : foldFactor < 2 ^ (b * x.length))
    (hf : limbValue b x < fuel) :
    CanonicalLimbs b (normalizeLoop b fuel x) ∧ (normalizeLoop b fuel x).length = x.length ∧
      limbValue b (normalizeLoop b fuel x) % (2 ^ (b * x.length) - foldFactor)
        = limbValue b x % (2 ^ (b * x.length) - foldFactor) := by
  induction fuel generalizing x with
  | zero => omega
  | succ fuel ih =>
    have hv := carryPass_value b 0 x
    rw [normalizeLoop]
    split
    · rename_i hc
      refine ⟨carryPass_canonical b 0 x, carryPass_length b 0 x, ?_⟩
      rw [hc] at hv
      simp only [Nat.zero_mul, Nat.add_zero] at hv
      rw [hv]
    · rename_i hc
      have hne : (carryPass b 0 x).1 ≠ [] := by
        intro h
        exact hx (List.length_eq_zero_iff.1 (by rw [← carryPass_length b 0 x, h]; rfl))
      have hfold := foldCarry_value b (carryPass b 0 x).2 (carryPass b 0 x).1 hne
      generalize hK : 2 ^ (b * x.length) = K at hP hv ⊢
      have hc1 : 1 ≤ (carryPass b 0 x).2 := Nat.one_le_iff_ne_zero.2 hc
      have hlen : (foldCarry (carryPass b 0 x).2 (carryPass b 0 x).1).length = x.length := by simp
      have hval : limbValue b x = limbValue b (foldCarry (carryPass b 0 x).2 (carryPass b 0 x).1)
          + (K - foldFactor) * (carryPass b 0 x).2 := by
        have : (K - foldFactor) * (carryPass b 0 x).2 + foldFactor * (carryPass b 0 x).2 = (carryPass b 0 x).2 * K := by
          rw [← Nat.add_mul, Nat.sub_add_cancel hP.le, Nat.mul_comm]
        omega
      have hpos : 1 ≤ (K - foldFactor) * (carryPass b 0 x).2 := Nat.mul_pos (by omega) hc1
      have := ih (foldCarry (carryPass b 0 x).2 (carryPass b 0 x).1)
        (by intro h; rw [h] at hlen; exact hx (List.length_eq_zero_iff.1 hlen.symm))
        (by rw [hlen, hK]; exact hP) (by omega)
      rw [hlen, hK] at this
      refine ⟨this.1, this.2.1, ?_⟩
      rw [this.2.2, hval, Nat.add_mul_mod_self_left]

theorem foldFactor_lt (var : Variant) : foldFactor < 2 ^ valueBits var := by cases var <;> decide

theorem limbBits_mul_length {var : Variant} {x : List Nat} (hx : x.length = limbCount var) :
    limbBits var * x.length = valueBits var := by rw [hx, valueBits, Nat.mul_comm]

theorem ne_nil_of_length {var : Variant} {x : List Nat} (hx : x.length = limbCount var) : x ≠ [] := by
  rintro rfl
  cases var <;> simp [limbCount] at hx

/-- Everything Normalize does on a variant's vector (45_modular_reducer.md R232 (3)): the result is canonical, of the
same length and residue. -/
theorem normalize_spec (var : Variant) (x : List Nat) (hx : x.length = limbCount var) :
    CanonicalLimbs (limbBits var) (normalize (limbBits var) x) ∧
      (normalize (limbBits var) x).length = limbCount var ∧
      limbValue (limbBits var) (normalize (limbBits var) x) % modulus var = limbValue (limbBits var) x % modulus var := by
  have h := normalizeLoop_spec (limbBits var) (limbValue (limbBits var) x + 1) x (ne_nil_of_length hx)
    (by rw [limbBits_mul_length hx]; exact foldFactor_lt var) (Nat.lt_succ_self _)
  rw [limbBits_mul_length hx, hx] at h
  exact h

/-- Normalize only canonicalises a vector whose value is below `2^K` (45_modular_reducer.md R232 (4)). -/
theorem normalize_value_of_lt (var : Variant) (x : List Nat) (hx : x.length = limbCount var)
    (hv : limbValue (limbBits var) x < 2 ^ valueBits var) :
    limbValue (limbBits var) (normalize (limbBits var) x) = limbValue (limbBits var) x := by
  have h := carryPass_value (limbBits var) 0 x
  rw [limbBits_mul_length hx, Nat.add_zero] at h
  have hc : (carryPass (limbBits var) 0 x).2 = 0 := by
    by_contra hne
    have := Nat.mul_le_mul_right (2 ^ valueBits var) (Nat.one_le_iff_ne_zero.2 hne)
    omega
  rw [hc] at h
  simp only [normalize, normalizeLoop, hc, if_true]
  omega

@[simp] theorem limbsOf_length (var : Variant) (ws : Vector Word 6) : (limbsOf var ws).length = limbCount var := by
  cases var <;> simp [limbsOf, limbCount]

/-- The limb registers give back a canonical vector of the variant (10_state.md R35). -/
theorem limbsOf_limbRegs (var : Variant) (x : List Nat) (hx : CanonicalLimbs (limbBits var) x)
    (hlen : x.length = limbCount var) : limbsOf var (limbRegs x) = x := by
  have h32 : (2 : Nat) ^ limbBits var ≤ 2 ^ 32 := by cases var <;> decide
  have h6 : limbCount var ≤ 6 := by cases var <;> decide
  apply List.ext_getElem
  · simp [hlen]
  · intro i h1 h2
    have hi : i < 6 := by omega
    have hl : x[i] < 2 ^ 32 := Nat.lt_of_lt_of_le (hx _ (List.getElem_mem h2)) h32
    simp only [limbsOf, limbRegs, List.getElem_map, List.getElem_take, Vector.getElem_toList, Vector.getElem_ofFn,
      BitVec.toNat_ofNat, List.getD_eq_getElem?_getD, List.getElem?_eq_getElem h2, Option.getD_some,
      Nat.mod_eq_of_lt hl]

/-- A register above the vector's length holds 0. -/
theorem limbRegs_getElem_of_le (x : List Nat) (i : Nat) (hi : i < 6) (h : x.length ≤ i) : (limbRegs x)[i] = 0 := by
  simp [limbRegs, List.getElem?_eq_none h]

/-- A register of a limb vector holds the limb modulo `2^32`. -/
theorem limbRegs_getElem_toNat (x : List Nat) (i : Nat) (hi : i < 6) : (limbRegs x)[i].toNat = x.getD i 0 % 2 ^ 32 := by
  simp [limbRegs]

@[simp] theorem mulR_length (N : Nat) (a r : List Nat) : (mulR N a r).length = N := by simp [mulR]

/-- Process answers a canonical vector of the variant, whatever it is given (44_limb_engine.md R216). -/
theorem process_canonical (var : Variant) (h r : List Nat) (v : Nat) :
    CanonicalLimbs (limbBits var) (process var h r v) ∧ (process var h r v).length = limbCount var := by
  have s := normalize_spec var (mulR (limbCount var) (accumulate h (toLimbs var v)) r) (by simp)
  exact ⟨s.1, s.2.1⟩

/-- FinalReduce answers a canonical vector of the variant (45_modular_reducer.md R234). -/
theorem finalReduce_canonical (var : Variant) (x : List Nat) (hx : x.length = limbCount var) :
    CanonicalLimbs (limbBits var) (finalReduce (limbBits var) x) ∧
      (finalReduce (limbBits var) x).length = limbCount var := by
  have s := normalize_spec var x hx
  unfold finalReduce
  split
  · exact ⟨carryPass_canonical _ _ _, by rw [carryPass_length, s.2.1]⟩
  · exact ⟨s.1, s.2.1⟩

end Sys2Proof.Machine
end

