-- ==== Sys2Proof/Laws/Mac.lean ====
section
/-!
SUPPORT. Laws of the MAC instances: choosing them by SEL, the two things one absorbed byte can do, and the register form
of what the engine leaves (46_mac.md R254 to R263).
-/

namespace Sys2Proof.Machine

@[simp] theorem macOf_zero (s : State) : macOf s 0 = s.mac0 := rfl

@[simp] theorem macOf_one (s : State) : macOf s 1 = s.mac1 := rfl

/-- A selected instance becomes a function of itself, another one stays (30_encoding.md R107). -/
theorem macOf_updateSelected (sel : Fin 4) (f : Fin 2 → MacInst → MacInst) (s : State) (m : Fin 2) :
    macOf (updateSelected sel f s) m = if selected sel m then f m (macOf s m) else macOf s m := by
  match m with
  | 0 => rfl
  | 1 => rfl

/-- `someSelected` says that some selected instance has the property. -/
theorem someSelected_iff (sel : Fin 4) (p : MacInst → Bool) (s : State) :
    someSelected sel p s = true ↔ ∃ m : Fin 2, selected sel m = true ∧ p (macOf s m) = true := by
  simp [someSelected, Fin.exists_fin_two]

/-- SEL = 0 selects nothing, and only it does. -/
theorem selected_none_iff (sel : Fin 4) : (∀ m : Fin 2, selected sel m = false) ↔ sel = 0 := by
  revert sel; decide

/-- The byte that fills the block (46_mac.md R254). -/
theorem absorbByte_full {I : MacInst} (x : Byte) (h : I.count.toNat + 1 = blockBytes I.var) :
    absorbByte I x = { I with
      h := processedH I (leInt (byteSlice (setByte I.buf I.count.toNat x) 0 (blockBytes I.var)))
      buf := Vector.replicate 6 0
      count := 0 } := if_pos h

/-- Any other byte (46_mac.md R254). -/
theorem absorbByte_partial {I : MacInst} (x : Byte) (h : I.count.toNat + 1 ≠ blockBytes I.var) :
    absorbByte I x = { I with buf := setByte I.buf I.count.toNat x, count := I.count + 1 } := if_neg h

/-- A block fits the count field, so COUNT does not wrap below it. -/
theorem count_succ_toNat {I : MacInst} (h : I.count.toNat + 1 < blockBytes I.var) :
    (I.count + 1).toNat = I.count.toNat + 1 := by
  have : blockBytes I.var ≤ 24 := by cases I.var <;> decide
  rw [BitVec.toNat_add]
  change (I.count.toNat + 1) % 32 = _
  omega

/-- H after a block holds the engine's result, limb by limb (44_limb_engine.md R216). -/
theorem limbsOf_processedH (I : MacInst) (v : Nat) :
    limbsOf I.var (processedH I v) = process I.var (limbsOf I.var I.h) (limbsOf I.var I.r) v :=
  limbsOf_limbRegs _ _ (process_canonical ..).1 (process_canonical ..).2

/-- H after finalisation holds f, limb by limb (46_mac.md R263). -/
theorem finalLimbs_canonical (I : MacInst) :
    CanonicalLimbs (limbBits I.var) (finalLimbs I) ∧ (finalLimbs I).length = limbCount I.var :=
  finalReduce_canonical _ _ (limbsOf_length _ _)

theorem limbsOf_finalized (I : MacInst) : limbsOf I.var (finalized I).h = finalLimbs I :=
  limbsOf_limbRegs _ _ (finalLimbs_canonical I).1 (finalLimbs_canonical I).2

/-- The bytes that SCXOR leaves in DBUF (43_stream_cipher.md R190). -/
theorem getByte_xorBytes (n : Nat) (db ks : Vector Word 16) (k : Nat) (hk : k < 64) :
    getByte (xorBytes n db ks) k = if k < n then getByte db k ^^^ getByte ks k else getByte db k := by
  rw [xorBytes, getByte_ofBytes _ _ (by omega)]

/-- The bytes of TAG after MACFINAL (46_mac.md R265). -/
theorem getByte_placeTag (sel : Fin 4) (T0 T1 : List Byte) (k : Nat) (hk : k < 32) :
    getByte (placeTag sel T0 T1) k =
      if sel = 1 then T0.getD k 0 else if sel = 2 then T1.getD k 0
      else if k < 16 then T0.getD k 0 else T1.getD (k - 16) 0 := by
  rw [placeTag, getByte_ofBytes _ _ (by omega)]

/-- A tag has the length of its variant (46_mac.md R271). -/
theorem tagOf_length (I : MacInst) : (tagOf I).length = tagBytes I.var := by
  have h : 16 ≤ tagBytes I.var := by cases I.var <;> decide
  have hp (p : Nat) (T : List Byte) (hT : T.length = tagBytes I.var) : (addPad p T).length = tagBytes I.var := by
    simp [addPad, hT]; omega
  have hb (T : List Byte) : (bumpFirst T).length = T.length := by cases T <;> rfl
  unfold tagOf
  split
  · rw [hb, hp _ _ (bytesLE_length ..)]
  · exact hp _ _ (bytesLE_length ..)

end Sys2Proof.Machine
end

