-- ==== Sys2Proof/Laws/PerInstr.lean ====
section
/-!
SUPPORT. The encoding of each command, constructor by constructor: its opcode stands in bits [31:24] and every bit that
its format does not name is 0 (30_encoding.md R100 to R106).
-/

namespace Sys2Proof.Laws

/-- Bits of a command word built from an opcode and operand bits below `2^24`. -/
theorem encode_toNat (i : Instr) (op : Nat) (h : opcode i = op) (hop : op < 256) (hlow : operandBits i < 2 ^ 24) :
    (encode i).toNat = op * 2 ^ 24 + operandBits i := by
  rw [encode, BitVec.toNat_ofNat, h, Nat.mod_eq_of_lt (by omega)]

namespace EncodedForm

/-- The format of the command: the opcode, and the reserved fields of its format, all zero. -/
def Statement : Instr → Prop
  | .qr a b c d => bits (encode (.qr a b c d)) 31 24 = 0x01 ∧ bits (encode (.qr a b c d)) 23 16 = 0
  | .scxor n => bits (encode (.scxor n)) 31 24 = 0x08 ∧ bits (encode (.scxor n)) 23 7 = 0
  | .macinit sel var mod =>
    bits (encode (.macinit sel var mod)) 31 24 = 0x10 ∧ bits (encode (.macinit sel var mod)) 23 5 = 0
  | .macwrite sel n =>
    bits (encode (.macwrite sel n)) 31 24 = 0x11 ∧ bits (encode (.macwrite sel n)) 23 15 = 0
      ∧ bits (encode (.macwrite sel n)) 7 2 = 0
  | .macfinal sel => bits (encode (.macfinal sel)) 31 24 = 0x12 ∧ bits (encode (.macfinal sel)) 23 2 = 0
  | .nop => bits (encode .nop) 31 24 = 0x00 ∧ bits (encode .nop) 23 0 = 0
  | .colround => bits (encode .colround) 31 24 = 0x02 ∧ bits (encode .colround) 23 0 = 0
  | .diaground => bits (encode .diaground) 31 24 = 0x03 ∧ bits (encode .diaground) 23 0 = 0
  | .dround => bits (encode .dround) 31 24 = 0x04 ∧ bits (encode .dround) 23 0 = 0
  | .blkinit => bits (encode .blkinit) 31 24 = 0x05 ∧ bits (encode .blkinit) 23 0 = 0
  | .blkfinal => bits (encode .blkfinal) 31 24 = 0x06 ∧ bits (encode .blkfinal) 23 0 = 0
  | .genblock => bits (encode .genblock) 31 24 = 0x07 ∧ bits (encode .genblock) 23 0 = 0

theorem nop : Statement .nop := ⟨by decide, by decide⟩

theorem qr (a b c d : Fin 16) : Statement (.qr a b c d) := by
  have h := encode_toNat (.qr a b c d) 0x01 rfl (by decide) (by simp only [operandBits]; omega)
  simp only [Statement, bits, h, operandBits]
  omega

theorem colround : Statement .colround := ⟨by decide, by decide⟩

theorem diaground : Statement .diaground := ⟨by decide, by decide⟩

theorem dround : Statement .dround := ⟨by decide, by decide⟩

theorem blkinit : Statement .blkinit := ⟨by decide, by decide⟩

theorem blkfinal : Statement .blkfinal := ⟨by decide, by decide⟩

theorem genblock : Statement .genblock := ⟨by decide, by decide⟩

theorem scxor (n : Fin 128) : Statement (.scxor n) := by
  have h := encode_toNat (.scxor n) 0x08 rfl (by decide) (by simp only [operandBits]; omega)
  simp only [Statement, bits, h, operandBits]
  omega

theorem macinit (sel var : Fin 4) (mod : Bool) : Statement (.macinit sel var mod) := by
  have hm : mod.toNat ≤ 1 := Bool.toNat_le mod
  have h := encode_toNat (.macinit sel var mod) 0x10 rfl (by decide) (by simp only [operandBits]; omega)
  simp only [Statement, bits, h, operandBits]
  omega

theorem macwrite (sel : Fin 4) (n : Fin 128) : Statement (.macwrite sel n) := by
  have h := encode_toNat (.macwrite sel n) 0x11 rfl (by decide) (by simp only [operandBits]; omega)
  simp only [Statement, bits, h, operandBits]
  omega

theorem macfinal (sel : Fin 4) : Statement (.macfinal sel) := by
  have h := encode_toNat (.macfinal sel) 0x12 rfl (by decide) (by simp only [operandBits]; omega)
  simp only [Statement, bits, h, operandBits]
  omega

end EncodedForm

end Sys2Proof.Laws
end

