-- ==== Sys2Proof/Laws/Permutation.lean ====
section
/-!
SUPPORT. Laws of the quarter round (41_permutation.md R140, R141) and of the word-wise operations on a 16-word state.
-/

namespace Sys2Proof.Machine

/-! ## One step on one word -/

@[simp] theorem addWord_same (x y : Fin 16) (S : Vector Word 16) : (addWord x y S)[x.val] = S[x.val] + S[y.val] := by
  simp [addWord]

@[simp] theorem xorWord_same (x y : Fin 16) (S : Vector Word 16) : (xorWord x y S)[x.val] = S[x.val] ^^^ S[y.val] := by
  simp [xorWord]

@[simp] theorem rotWord_same (x : Fin 16) (n : Nat) (S : Vector Word 16) : (rotWord x n S)[x.val] = S[x.val].rotateLeft n := by
  simp [rotWord]

@[simp] theorem addConst_same (x : Fin 16) (v : Word) (S : Vector Word 16) : (addConst x v S)[x.val] = S[x.val] + v := by
  simp [addConst]

theorem set_other (S : Vector Word 16) (x j : Fin 16) (v : Word) (h : j ≠ x) : (S.set x v)[j.val] = S[j.val] := by
  have : x.val ≠ j.val := fun e => h (Fin.ext e.symm)
  simp [this]

@[simp] theorem addWord_other (x y j : Fin 16) (S : Vector Word 16) (h : j ≠ x) : (addWord x y S)[j.val] = S[j.val] :=
  set_other S x j _ h

@[simp] theorem xorWord_other (x y j : Fin 16) (S : Vector Word 16) (h : j ≠ x) : (xorWord x y S)[j.val] = S[j.val] :=
  set_other S x j _ h

@[simp] theorem rotWord_other (x j : Fin 16) (n : Nat) (S : Vector Word 16) (h : j ≠ x) : (rotWord x n S)[j.val] = S[j.val] :=
  set_other S x j _ h

@[simp] theorem addConst_other (x j : Fin 16) (v : Word) (S : Vector Word 16) (h : j ≠ x) : (addConst x v S)[j.val] = S[j.val] :=
  set_other S x j _ h

/-! ## The whole quarter round -/

/-- The four words that a quarter round makes of four words. -/
def quarterWords (a b c d : Word) : Word × Word × Word × Word :=
  let a := a + b
  let d := ((d ^^^ a).rotateLeft rot1) + qrConst
  let c := c + d
  let b := (b ^^^ c).rotateLeft rot2
  let a := a + b
  let d := (d ^^^ a).rotateLeft rot3
  let c := c + d
  let b := (b ^^^ c).rotateLeft rot4
  (a, b, c, d)

/-- A quarter round leaves the words at other indices alone (41_permutation.md R141). -/
theorem quarterRound_other (q : Quad) (S : Vector Word 16) (j : Fin 16) (ha : j ≠ q.a) (hb : j ≠ q.b) (hc : j ≠ q.c)
    (hd : j ≠ q.d) : (quarterRound q S)[j] = S[j] := by
  simp [quarterRound, ha, hb, hc, hd]

/-- Everything a quarter round does to its four words (41_permutation.md R140). -/
theorem quarterRound_words (q : Quad) (S : Vector Word 16) :
    ((quarterRound q S)[q.a], (quarterRound q S)[q.b], (quarterRound q S)[q.c], (quarterRound q S)[q.d])
      = quarterWords S[q.a] S[q.b] S[q.c] S[q.d] := by
  obtain ⟨hab, hac, had, hbc, hbd, hcd⟩ := q.distinct
  simp [quarterRound, quarterWords, hab, hac, had, hbc, hbd, hcd, hab.symm, hac.symm, had.symm, hbc.symm, hbd.symm,
    hcd.symm]

/-! ## Feed-forward and the list of words set -/

@[simp] theorem feedForward_getElem (S I : Vector Word 16) (i : Nat) (hi : i < 16) :
    (feedForward S I)[i] = S[i] + I[i] := by simp [feedForward]

/-- Double rounds, counted either way. -/
theorem doubleRoundN_eq_iterate (n : Nat) (S : Vector Word 16) : doubleRoundN n S = doubleRound^[n] S := by
  induction n generalizing S with
  | zero => rfl
  | succ n ih => rw [doubleRoundN, ih, Function.iterate_succ_apply]

end Sys2Proof.Machine
end

