-- ==== Sys2Proof/Tests/Slice0.lean ====
section
/-!
SUPPORT. The model's own tests. Expected values are the spec's: the examples of files 40 to 47 and the vectors of
95_test_vectors.md, named in each comment. After them, for each statement with hypotheses, a witness that they can be met.
-/

namespace Sys2Proof.Tests

open Sys2Proof.Machine Sys2Proof.Claims

/-! ## Helpers -/

/-- The key K1 of 95_test_vectors.md section 2 in KEY[0..7], the rest 0. -/
def keyK1 : Vector Word 16 := ofBytes fun k => if k < 32 then BitVec.ofNat 8 (k + 1) else 0

/-- The nonce N1. -/
def nonceN1 : Vector Word 4 := ofBytes fun k => BitVec.ofNat 8 (k + 101)

/-- "hello world" in DB[0..10]. -/
def dbufHW : Vector Word 16 := #v[0x6c6c6568, 0x6f77206f, 0x00646c72, 0, 0, 0, 0, 0, 0, 0, 0, 0, 0, 0, 0, 0]

/-- STATE[i] = i. -/
def iota : Vector Word 16 := Vector.ofFn fun i => BitVec.ofNat 32 i.val

/-- K1, N1, NONCE_LEN = 16, COUNTER = 0, "hello world". -/
def cipherState : State := { State.reset with key := keyK1, nonce := nonceN1, nonceLen := 16, dbuf := dbufHW }

/-- An Active V130 instance with r = 1 and pad 0 (key KR1 of 95_test_vectors.md). -/
def unitInst : MacInst := { MacInst.reset with configured := true, r := limbRegs [1] }

/-- An Active V130 instance under key KC with MOD = 1, its r and pad as row MAC1. -/
def kcInst : MacInst :=
  { MacInst.reset with
    configured := true, mod := true
    r := limbRegs [0x00030201, 0x01c18101, 0x00a08080, 0x0030302c, 0x00000f0e]
    pad := #v[0x14131211, 0x18171615, 0x1c1b1a19, 0x201f1e1d] }

/-- MAC[0] and MAC[1] both Active, V130, r = 1; DBUF "hello world". -/
def macState : State := { State.reset with dbuf := dbufHW, mac0 := unitInst, mac1 := unitInst }

/-- MAC[0] Finalized, MAC[1] Active. -/
def doneState : State := { macState with mac0 := { unitInst with finalized := true } }

/-- A question about the next state of a result. -/
def after {α : Type} (r : Result) (f : State → α) : Option α :=
  match r with
  | .next t => some (f t)
  | _ => none

/-- The step that executes one command word. -/
def stepWord (s : State) (w : Nat) : Result := step (s.withFetchWord 32 w)

/-! ## WellFormed: an ill-formed term for each check (30_encoding.md R111) -/

theorem test_wellFormed_qr_repeated : (Instr.qr 0 0 1 2).wellFormed = false := by decide
theorem test_wellFormed_scxor_zero : (Instr.scxor 0).wellFormed = false := by decide
theorem test_wellFormed_scxor_65 : (Instr.scxor 65).wellFormed = false := by decide
theorem test_wellFormed_macinit_sel0 : (Instr.macinit 0 0 false).wellFormed = false := by decide
theorem test_wellFormed_macinit_var2 : (Instr.macinit 1 2 false).wellFormed = false := by decide
theorem test_wellFormed_macinit_mod179 : (Instr.macinit 1 1 true).wellFormed = false := by decide
theorem test_wellFormed_macwrite_sel0 : (Instr.macwrite 0 1).wellFormed = false := by decide
theorem test_wellFormed_macwrite_65 : (Instr.macwrite 1 65).wellFormed = false := by decide
theorem test_wellFormed_macfinal_sel0 : (Instr.macfinal 0).wellFormed = false := by decide
theorem test_wellFormed_accepts :
    (Instr.qr 3 2 1 0).wellFormed = true ∧ (Instr.scxor 64).wellFormed = true ∧
      (Instr.macinit 3 0 true).wellFormed = true ∧ (Instr.macwrite 3 0).wellFormed = true := by decide

/-! ## Decoding: words written out bit by bit from the patterns of 30_encoding.md R101 to R106 -/

theorem test_decode_nop : decode 0b00000000_000000000000000000000000 = .ok .nop := by decide
theorem test_decode_qr : decode 0b00000001_00000000_1100_1000_0100_0000 = .ok (.qr 0 4 8 12) := by decide
theorem test_decode_colround : decode 0b00000010_000000000000000000000000 = .ok .colround := by decide
theorem test_decode_diaground : decode 0b00000011_000000000000000000000000 = .ok .diaground := by decide
theorem test_decode_dround : decode 0b00000100_000000000000000000000000 = .ok .dround := by decide
theorem test_decode_blkinit : decode 0b00000101_000000000000000000000000 = .ok .blkinit := by decide
theorem test_decode_blkfinal : decode 0b00000110_000000000000000000000000 = .ok .blkfinal := by decide
theorem test_decode_genblock : decode 0b00000111_000000000000000000000000 = .ok .genblock := by decide
theorem test_decode_scxor : decode 0b00001000_00000000_0000000000001011 = .ok (.scxor 11) := by decide
theorem test_decode_macinit : decode 0b00010000_0000000000000000000_1_00_01 = .ok (.macinit 1 0 true) := by decide
theorem test_decode_macinit_v179 : decode 0b00010000_0000000000000000000_0_01_10 = .ok (.macinit 2 1 false) := by decide
theorem test_decode_macwrite : decode 0b00010001_000000000_0001011_000000_11 = .ok (.macwrite 3 11) := by decide
theorem test_decode_macfinal : decode 0b00010010_0000000000000000000000_10 = .ok (.macfinal 2) := by decide
/-- ER1 to ER3. -/
theorem test_decode_refuses :
    decode 0x09000000 = .error (.undefinedOpcode 9) ∧ decode 0x00000001 = .error (.reservedBits 0) ∧
      decode 0x11000080 = .error (.reservedBits 0x11) ∧ decode 0x08000080 = .error (.reservedBits 8) := by decide
theorem test_decodeTableWord : decodeTableWord 32 0x0100c840 = some (.qr 0 4 8 12) := by decide

/-! ## Instructions -/

/-- The example of 40_control.md R130: STATUS 0x104 before, 0x100 after. -/
theorem test_nop_keeps_err :
    after (stepWord { State.reset with err := true, code := .useAfterFinalize } 0x00000000) statusWord
      = some 0x00000100 := by decide

/-- QR1. -/
theorem test_qr_zero_state :
    after (stepWord State.reset 0x01003210) (fun t => t.state.toList.take 4)
      = some [0x00004000, 0x20808200, 0x00100041, 0x00100040] := by decide

/-- QR4: the indices in another order. -/
theorem test_qr_reversed :
    after (stepWord { State.reset with state := iota } 0x01000123) (fun t => t.state.toList.take 4)
      = some [0x40050101, 0x40051503, 0x0a2a068a, 0x05000005] := by decide

/-- RD1, words 0, 4, 15. -/
theorem test_colround :
    after (stepWord { State.reset with state := iota } 0x02000000) (fun t => [t.state[0], t.state[4], t.state[15]])
      = some [0x08034004, 0xb6c29611, 0x40b502c1] := by decide

/-- RD2, words 0, 4, 15. -/
theorem test_diaground :
    after (stepWord { State.reset with state := iota } 0x03000000) (fun t => [t.state[0], t.state[4], t.state[15]])
      = some [0x0a038005, 0xd54b1893, 0x80ea0102] := by decide

/-- RD3, words 0 and 15. -/
theorem test_dround :
    after (stepWord { State.reset with state := iota } 0x04000000) (fun t => [t.state[0], t.state[15]])
      = some [0x01084a01, 0x994839eb] := by decide

/-- BLK1: word 11 is the nonce's first word. -/
theorem test_blkinit :
    after (stepWord cipherState 0x05000000) (fun t => [t.state[3], t.state[10], t.state[11], t.init[14], t.init[15]])
      = some [0x6b206574, 0x1c1b1a19, 0x68676665, 0x74737271, 0x00000000] := by decide

/-- BLK11's error on BLKINIT: NONCE_LEN = 12. -/
theorem test_blkinit_nonce_length :
    after (stepWord { cipherState with nonceLen := 12 } 0x05000000) (fun t => (statusWord t, t.errcmd))
      = some (0x00000103, 0x05000000) := by decide

/-- BLK3 to BLK4: KS[0] and KS[15] from the words after 12 double rounds. -/
theorem test_blkfinal :
    after (stepWord { State.reset with
        state := #v[0xdeb5a7d1, 0, 0, 0, 0, 0, 0, 0, 0, 0, 0, 0, 0, 0, 0, 0xfa47339d]
        init := #v[0x61707865, 0, 0, 0, 0, 0, 0, 0, 0, 0, 0, 0, 0, 0, 0, 0] } 0x06000000)
      (fun t => [t.ks[0], t.ks[15], t.state[0], t.init[0]])
      = some [0x40262036, 0xfa47339d, 0, 0] := by decide

/-- ER6. -/
theorem test_genblock_nonce_length :
    after (stepWord State.reset 0x07000000) (fun t => (statusWord t, t.errcmd)) = some (0x00000103, 0x07000000) := by
  decide

/-- SC4 and SC6: N = 0 and N = 65. -/
theorem test_scxor_length :
    after (stepWord cipherState 0x08000000) statusWord = some 0x00000102 ∧
      after (stepWord cipherState 0x08000041) statusWord = some 0x00000102 := by decide

/-- 43_stream_cipher.md R191: the counter wraps. -/
theorem test_scxor_counter_wraps :
    after (stepWord { cipherState with counter := 0xffffffff } 0x0800000b) (fun t => t.counter) = some 0 := by decide

/-- The example of 46_mac.md R253: MCTRL and PAD. -/
theorem test_macinit_fields :
    after (stepWord cipherState 0x10000011) (fun t => (mctrlWord t.mac0, t.mac0.pad))
      = some (0x00000011, #v[0x14131211, 0x18171615, 0x1c1b1a19, 0x201f1e1d]) := by decide

/-- The example of 46_mac.md R253: R under CLAMP_POLY and under CLAMP_NONE. -/
theorem test_macinit_multiplier :
    multiplierRegs .v130 0x0ffffffc0ffffffc0ffffffc0fffffff (byteSlice keyK1 0 16)
        = #v[0x00030201, 0x01c18101, 0x00a08080, 0x0030302c, 0x00000f0e, 0x00000000] ∧
      multiplierRegs .v130 (2 ^ 128 - 1) (byteSlice keyK1 0 16)
        = #v[0x00030201, 0x01c18141, 0x00a09080, 0x0034302c, 0x00100f0e, 0x00000000] := by decide

/-- MAC2: MCTRL and BUF after eleven bytes. -/
theorem test_macwrite_buffers :
    after (stepWord { State.reset with dbuf := dbufHW, mac0 := kcInst } 0x11000b01)
        (fun t => (mctrlWord t.mac0, t.mac0.buf))
      = some (0x00000b11, #v[0x6c6c6568, 0x6f77206f, 0x00646c72, 0, 0, 0]) := by decide

set_option maxRecDepth 4000 in
/-- LM7: a full block under r = 1. -/
theorem test_macwrite_block :
    after (stepWord { macState with dbuf := Vector.replicate 16 0xffffffff } 0x11001001)
        (fun t => (mctrlWord t.mac0, t.mac0.h))
      = some (0x00000001, #v[0x03ffffff, 0x03ffffff, 0x03ffffff, 0x03ffffff, 0x00ffffff, 0]) := by decide

/-- MAC3: the tag and MCTRL of "hello world" under KC, V130 with MOD. -/
theorem test_macfinal_tag :
    after (stepWord { State.reset with
        mac0 := { kcInst with count := 11, buf := #v[0x6c6c6568, 0x6f77206f, 0x00646c72, 0, 0, 0] } } 0x12000001)
      (fun t => (mctrlWord t.mac0, t.tag))
      = some (0x00000013, #v[0xf3513fc5, 0x3a7bdeb5, 0xb74d642f, 0xbf7265ab, 0, 0, 0, 0]) := by decide

/-- DU6: `macfinal 3` on unlike instances. -/
theorem test_macfinal_mismatch :
    after (stepWord { macState with mac0 := { unitInst with var := .v179 } } 0x12000003) statusWord
      = some 0x00000107 := by decide

/-- ER8: NOT_CONFIGURED comes before USE_AFTER_FINALIZE. -/
theorem test_macfinal_priority :
    after (stepWord { doneState with mac1 := MacInst.reset } 0x12000003) (fun t => (statusWord t, t.errcmd))
      = some (0x00000106, 0x12000003) := by decide

/-! ## Limb engine, reducer and bus -/

/-- LM2: the bits of a V179 block above 2^174 are folded, not dropped. -/
theorem test_toLimbs_folds : toLimbs .v179 (2 ^ 192 - 1) = [0x13ffff, 0, 0, 0, 0, 0] := by decide

/-- LM6. -/
theorem test_mulR_fold : mulR 5 [0, 0, 0, 0, 1] [0, 1, 0, 0, 0] = [5, 0, 0, 0, 0] := by decide

/-- RE3. -/
theorem test_normalize : normalize 26 [2 ^ 26 - 1, 2 ^ 26 - 1, 2 ^ 26 - 1, 2 ^ 26 - 1, 2 ^ 27 - 1] = [9, 0, 0, 0, 0] := by
  decide

/-- RE4: v = P - 1, P and P + 4. -/
theorem test_finalReduce :
    finalReduce 26 (limbs .v130 (2 ^ 130 - 6)) = [0x3fffffa, 0x3ffffff, 0x3ffffff, 0x3ffffff, 0x3ffffff] ∧
      finalReduce 26 (limbs .v130 (2 ^ 130 - 5)) = [0, 0, 0, 0, 0] ∧
      finalReduce 26 (limbs .v130 (2 ^ 130 - 1)) = [4, 0, 0, 0, 0] := by decide

/-- 20_memory.md R72: PAD[1] of MAC[1] stands at 0x2C4; a read has no side effect but on the host. -/
theorem test_read_pad :
    after (step { State.reset with mac1 := kcInst, pending := [.read .word 0x2C4] }) (fun t => t.returned)
      = some [0x18171615] := by decide

/-- 20_memory.md R78: NONCE_LEN keeps the low byte. -/
theorem test_write_nonce_len :
    after (step { State.reset with pending := [.write .word 0x00C 0x12345610] }) (fun t => t.nonceLen)
      = some 0x10 := by decide

/-! ## Witnesses: the hypotheses of each statement can be met, at the boundaries of each clause -/

/-- A state whose host writes the word to CMD next, then reads STATUS. -/
def withWord (s : State) (w : Word) : State := { s with pending := [.write .word 0x000 w, .read .word 0x004] }

theorem witness_UndefinedOpcode_bounds :
    UndefinedOpcode 0x09000000 ∧ UndefinedOpcode 0x0FFFFFFF ∧ UndefinedOpcode 0x13000000 ∧ UndefinedOpcode 0xFFFFFFFF :=
  ⟨by decide, by decide, by decide, by decide⟩

theorem witness_ReservedBitSet_each_format :
    (ReservedBitSet 0x00000001 ∧ ReservedBitSet 0x07800000 ∧ ReservedBitSet 0x01010000 ∧ ReservedBitSet 0x08000080) ∧
      (ReservedBitSet 0x10000020 ∧ ReservedBitSet 0x11000004 ∧ ReservedBitSet 0x11008000 ∧ ReservedBitSet 0x12000004) :=
  ⟨⟨by decide, by decide, by decide, by decide⟩, by decide, by decide, by decide, by decide⟩

theorem witness_EveryWordIsIllegalOrOneCommand :
    ¬ (UndefinedOpcode 0x0800007F ∨ ReservedBitSet 0x0800007F) ∧
      ¬ (UndefinedOpcode 0x12000003 ∨ ReservedBitSet 0x12000003) := ⟨by decide, by decide⟩

theorem witness_StepRunsTheDecodedCommand :
    (withWord cipherState 0x07000000).pending = .write .word 0x000 0x07000000 :: [.read .word 0x004] ∧
      decode 0x07000000 = .ok .genblock := by decide

theorem witness_IllegalWordsFailWithIllegalCommand :
    (withWord macState 0x13000000).pending = .write .word 0x000 0x13000000 :: [.read .word 0x004] ∧
      (UndefinedOpcode 0x13000000 ∨ ReservedBitSet 0x13000000) ∧
      (UndefinedOpcode 0x11000080 ∨ ReservedBitSet 0x11000080) := by decide

theorem witness_IllegalOperandsFailWithIllegalOperand :
    (Instr.qr 0 1 2 2).wellFormed = false ∧ (Instr.scxor 1).wellFormed = true ∧ (Instr.scxor 65).wellFormed = false ∧
      (Instr.macwrite 1 64).wellFormed = true ∧ ∃ t, exec (.macwrite 1 64) macState = .next t :=
  ⟨by decide, by decide, by decide, by decide, _, rfl⟩

theorem witness_OnlyAlignedWordAccessesGetAStep :
    (Width.half ≠ .word) ∧ (0x002 % 4 ≠ 0) ∧ (0x400 ≤ 0x400) ∧
      (Width.word = .word ∧ 0x3FC % 4 = 0 ∧ 0x3FC < 0x400) ∧
      { macState with pending := [.read .half 0x3FC] }.pending = .read .half 0x3FC :: [] ∧
      { macState with pending := [.write .word 0x400 7] }.pending = .write .word 0x400 7 :: [] := by decide

theorem witness_ReadsReturnTheMappedRegisters :
    ∀ a ∈ [0x014, 0x03C, 0x090, 0x0FC, 0x21C, 0x238, 0x23C, 0x268, 0x27C, 0x29C, 0x2FC, 0x320, 0x3FC],
      a % 4 = 0 ∧ ReservedOffset a := by decide

theorem witness_mapped_offsets_are_not_reserved :
    ∀ a ∈ [0x010, 0x040, 0x08C, 0x100, 0x1FC, 0x264, 0x2E4, 0x31C], ¬ ReservedOffset a := by decide

theorem witness_WritesReachTheMappedRegisters :
    ∀ a ∈ [0x004, 0x014, 0x090, 0x140, 0x200, 0x3FC], a % 4 = 0 ∧ a < 0x400 ∧ a ≠ 0x000 ∧ ¬ HostWritable a := by decide

theorem witness_ReadAfterWriteReturnsTheValue :
    (0x00C % 4 = 0 ∧ 0x00C < 0x400 ∧ 0x00C ≠ 0x000 ∧ HostWritable 0x00C) ∧
      (0x1FC % 4 = 0 ∧ 0x1FC < 0x400 ∧ 0x1FC ≠ 0x000 ∧ HostWritable 0x1FC) ∧
      (0x3FC % 4 = 0 ∧ 0x3FC < 0x400 ∧ 0x3FC ≠ 0x000 ∧ ¬ HostWritable 0x3FC) := by decide

theorem witness_ResetClearsEveryRegister :
    { doneState with pending := [.reset, .read .word 0x3FC] }.pending = .reset :: [.read .word 0x3FC] ∧
      0x3FC % 4 = 0 ∧ 0x3FC < 0x400 := by decide

theorem witness_IdleCoreKeepsAllState : doneState.pending = [] := by decide

theorem witness_EveryCommandEndUpdatesStatus :
    after (execute 0x12000002 macState) (fun t => t.code) = some .ok ∧
      after (execute 0x12000001 doneState) (fun t => t.code) = some .useAfterFinalize := by decide

theorem witness_FailingCommandChangesOnlyStatus :
    ∃ t, execute 0x12000001 doneState = .next t ∧ t.code ≠ .ok := ⟨_, rfl, by decide⟩

theorem witness_ErrorBitIsStickyUntilReset :
    ∃ s t : State, s.err = true ∧ (∀ rest, s.pending ≠ .reset :: rest) ∧ step s = .next t :=
  ⟨{ doneState with err := true, pending := [cmd .nop] }, _, rfl, fun _ h => by simp [cmd] at h, rfl⟩

theorem witness_NoCommandRaisesBufferBounds : ∃ t, execute 0x11001001 macState = .next t := ⟨_, rfl⟩

theorem witness_FirstFailingCheckDecidesTheCode_scxor :
    ((0 : Fin 128).val = 0 ∨ 64 < (0 : Fin 128).val) ∧ ((65 : Fin 128).val = 0 ∨ 64 < (65 : Fin 128).val) ∧
      (1 ≤ (1 : Fin 128).val ∧ (64 : Fin 128).val ≤ 64 ∧ State.reset.nonceLen.toNat ≠ 16) := by decide

theorem witness_FirstFailingCheckDecidesTheCode_mac :
    ((3 : Fin 4) ≠ 0 ∧ (64 : Fin 128).val ≤ 64 ∧
        SomeSelected 3 { doneState with mac1 := MacInst.reset } (fun I => I.configured = false)) ∧
      ((1 : Fin 4) ≠ 0 ∧ ¬ SomeSelected 1 doneState (fun I => I.configured = false) ∧
        SomeSelected 1 doneState (fun I => I.finalized = true)) := by decide

theorem witness_NopOnlySetsTheCode :
    (bits 0x00800000 31 24 = 0x00 ∧ bits 0x00800000 23 0 ≠ 0) ∧
      statusWord { macState with err := true, code := .useAfterFinalize } = 0x00000104 ∧
      ∃ t, execute 0x00000000 { macState with err := true, code := .useAfterFinalize } = .next t :=
  ⟨by decide, by decide, _, rfl⟩

theorem witness_QrAppliesTheQuarterRound : PairwiseDistinct 0 1 2 3 ∧ PairwiseDistinct 15 14 13 0 := by decide

theorem witness_RoundIsItsFourQuarterRounds : columns.reverse.Perm columns ∧ diagonals.reverse.Perm diagonals :=
  ⟨List.reverse_perm _, List.reverse_perm _⟩

theorem witness_QuarterRoundIsInvertible :
    PairwiseDistinct 3 2 1 0 ∧ (∃ t, exec (.qr 3 2 1 0) cipherState = .next t) ∧
      ∃ x y z w, unmixWords 1 2 3 4 = (x, y, z, w) :=
  ⟨by decide, ⟨_, rfl⟩, _, _, _, _, rfl⟩

theorem witness_BlkinitBuildsTheInitialState : cipherState.nonceLen = 16 := by decide

theorem witness_GenblockProducesTheBlock :
    { cipherState with counter := 0xffffffff }.nonceLen = 16 := by decide

theorem witness_StepwiseBlockEqualsGenblock : { cipherState with state := iota }.nonceLen = 16 := by decide

theorem witness_KeystreamSessionComputesApplyKeystream :
    { cipherState with counter := 0xffffffff, err := true }.nonceLen = 16 := by decide

theorem witness_StateDoesNotOutliveTheBlock :
    ∃ t, exec .genblock cipherState = .next t ∧ t.code = .ok := ⟨_, rfl, rfl⟩

theorem witness_WrongNonceLengthFails :
    State.reset.nonceLen ≠ 16 ∧ cipherState.nonceLen = 16 ∧
      ∃ n : Fin 128, 1 ≤ n.val ∧ n.val ≤ 64 ∧ Instr.scxor 64 = .scxor n :=
  ⟨by decide, by decide, 64, by decide, by decide, rfl⟩

theorem witness_KeyWordSevenDoesNotReachTheBlock :
    cipherState.nonceLen = 16 ∧
      (∀ i : Fin 16, i.val < 7 → (cipherState.key.set 7 0xddccbbaa)[i] = cipherState.key[i]) ∧
      cipherState.key.set 7 0xddccbbaa ≠ cipherState.key := by decide

theorem witness_ScxorCombinesAndAdvances :
    (1 ≤ (1 : Fin 128).val ∧ (1 : Fin 128).val ≤ 64) ∧ (1 ≤ (64 : Fin 128).val ∧ (64 : Fin 128).val ≤ 64) ∧
      { cipherState with counter := 0xffffffff }.nonceLen = 16 := by decide

theorem witness_ScxorTwiceRestoresTheData :
    1 ≤ (64 : Fin 128).val ∧ (64 : Fin 128).val ≤ 64 ∧ cipherState.nonceLen = 16 := by decide

theorem witness_ToLimbsKeepsTheResidue : 2 ^ 174 - 1 < 2 ^ valueBits .v179 ∧ ¬ 2 ^ 174 < 2 ^ valueBits .v179 := by decide

theorem witness_ProductSumsFitSixtyFourBits :
    (List.replicate 6 (2 ^ 29 - 1)).length = limbCount .v179 ∧
      CanonicalLimbs (limbBits .v179) (List.replicate 6 (2 ^ 29 - 1)) ∧
      (List.replicate 5 (2 ^ 26 - 1)).length = limbCount .v130 ∧
      CanonicalLimbs (limbBits .v130) (List.replicate 5 (2 ^ 26 - 1)) := by decide

theorem witness_ProcessMultipliesModuloP :
    [0, 0, 0, 0, 2 ^ 40].length = limbCount .v130 ∧ [1, 2, 3, 4, 5].length = limbCount .v130 := by decide

theorem witness_FinalReduceIsTheLeastResidue :
    [0, 0, 0, 0, 2 ^ 40].length = limbCount .v130 ∧ [1, 2, 3, 4, 5, 6].length = limbCount .v179 := by decide

theorem witness_MacinitCreatesFreshInstances :
    ((1 : Fin 4) ≠ 0 ∧ (0 : Fin 4).val ≤ 1 ∧ ¬ (true = true ∧ (0 : Fin 4) = 1)) ∧
      ((3 : Fin 4) ≠ 0 ∧ (1 : Fin 4).val ≤ 1 ∧ ¬ (false = true ∧ (1 : Fin 4) = 1)) ∧
      selected 1 0 = true ∧ selected 1 1 = false ∧ selected 2 1 = true ∧ selected 2 0 = false := by decide

theorem witness_MacwriteAbsorbsIntoSelected :
    (3 : Fin 4) ≠ 0 ∧ (64 : Fin 128).val ≤ 64 ∧ (0 : Fin 128).val ≤ 64 ∧ SelectedActive 3 macState ∧
      SelectedActive 2 doneState := by decide

theorem witness_ShortWriteOnlyBuffers :
    (15 : Fin 128).val ≤ 64 ∧ SelectedActive 3 macState ∧ selected 3 1 = true ∧
      (macOf macState 1).count.toNat + (15 : Fin 128).val < blockBytes (macOf macState 1).var := by decide

theorem witness_FullBlockIsProcessedAtOnce :
    (16 : Fin 128).val ≤ 64 ∧ SelectedActive 1 macState ∧ selected 1 0 = true ∧
      (macOf macState 0).count.toNat < blockBytes (macOf macState 0).var ∧
      (macOf macState 0).count.toNat + (16 : Fin 128).val = blockBytes (macOf macState 0).var := by decide

theorem witness_MacfinalWritesTheTag :
    ((3 : Fin 4) ≠ 0 ∧ SelectedActive 3 macState ∧
        ∀ m : Fin 2, (macOf macState m).var = .v130 ∧ (macOf macState m).mod = false) ∧
      ((2 : Fin 4) ≠ 0 ∧ SelectedActive 2 doneState ∧ (2 : Fin 4) ≠ 3) := by decide

theorem witness_DualFinalNeedsLikeInstances :
    ({ macState with mac1 := MacInst.reset }.mac0.configured = false ∨
        { macState with mac1 := MacInst.reset }.mac1.configured = false) ∧
      (doneState.mac0.configured = true ∧ doneState.mac1.configured = true ∧
        (doneState.mac0.finalized = true ∨ doneState.mac1.finalized = true)) ∧
      (SelectedActive 3 { macState with mac1 := kcInst } ∧
        ∃ m : Fin 2, (macOf { macState with mac1 := kcInst } m).var ≠ .v130 ∨
          (macOf { macState with mac1 := kcInst } m).mod = true) ∧
      (SelectedActive 3 macState ∧
        ∀ m : Fin 2, (macOf macState m).var = .v130 ∧ (macOf macState m).mod = false) := by decide

theorem witness_DualFinalNeedsLikeInstances_unlike :
    ((1 : Fin 4).val ≤ 1 ∧ ¬ (false = true ∧ (1 : Fin 4) = 1)) ∧ (64 : Fin 128).val ≤ 64 ∧
      SelectedActive 3 { macState with mac1 := kcInst } ∧ SelectedActive 2 doneState := by decide

theorem witness_MacSessionMeetsTheValueLaw :
    (1 : Fin 4).val ≤ 1 ∧ ¬ (false = true ∧ (1 : Fin 4) = 1) ∧
      ∀ p ∈ [List.replicate 64 (0x61 : Byte), [], [1, 2, 3]], p.length ≤ 64 := by decide

theorem witness_DoubleMacSessionConcatenatesTheTags :
    ∀ p ∈ [List.replicate 64 (0xff : Byte), [], [1]], p.length ≤ 64 := by decide

theorem witness_DualTagHalvesAreIndependent :
    (∀ p ∈ [List.replicate 64 (0x61 : Byte), [1]], p.length ≤ 64) ∧
      (∀ i : Fin 16, i.val < 8 → (keyK1.set 8 5)[i] = keyK1[i]) ∧
      (∀ i : Fin 16, 8 ≤ i.val → (keyK1.set 7 5)[i] = keyK1[i]) := by decide

theorem witness_MessageSplitDoesNotMatter :
    (∀ x ∈ [[1, 2], ([3] : List Byte)], x.length ≤ 64) ∧ (∀ x ∈ [[1], [], ([2, 3] : List Byte)], x.length ≤ 64) ∧
      [[1, 2], ([3] : List Byte)].flatten = [[1], [], ([2, 3] : List Byte)].flatten := by decide

theorem witness_LeadingZeroBlockIsAbsorbedWithoutTrace :
    (3 : Fin 4) ≠ 0 ∧ (1 : Fin 4).val ≤ 1 ∧ ¬ (false = true ∧ (1 : Fin 4) = 1) ∧
      (0 : Fin 4).val ≤ 1 ∧ ¬ (true = true ∧ (0 : Fin 4) = 1) := by decide

theorem witness_OnlyMacinitReopensAnInstance :
    ∃ s t : State, step s = .next t ∧ (∀ rest, s.pending ≠ .reset :: rest) ∧ (macOf s 0).configured = true ∧
      (macOf s 0).finalized = true ∧ (macOf t 0).finalized = false :=
  ⟨{ doneState with pending := [cmd (.macinit 1 0 false)] }, _, rfl, fun _ h => by simp [cmd] at h, rfl, rfl, rfl⟩

theorem witness_KeyIsCapturedAtMacinit : ∀ sel var mod, Instr.macfinal 3 ≠ .macinit sel var mod := by
  intro sel var mod h
  cases h

theorem witness_BothSelectedEqualsOneAfterTheOther :
    ((1 : Fin 4).val ≤ 1 ∧ ¬ (false = true ∧ (1 : Fin 4) = 1)) ∧ ((64 : Fin 128).val ≤ 64 ∧ SelectedActive 3 macState) := by
  decide

theorem witness_OnlyTheNamedCommandsWriteEachRegister :
    (∃ t, exec (.macwrite 3 16) macState = .next t) ∧ (∀ n, Instr.macwrite 3 16 ≠ .scxor n) ∧
      (∀ sel, Instr.macwrite 3 16 ≠ .macfinal sel) ∧ (∀ sel var mod, Instr.macwrite 3 16 ≠ .macinit sel var mod) ∧
      (∃ sel n, Instr.macwrite 3 16 = .macwrite sel n) ∧ ∃ t, exec .colround cipherState = .next t :=
  ⟨⟨_, rfl⟩, fun _ h => (nomatch h), fun _ h => (nomatch h), fun _ _ _ h => (nomatch h), ⟨3, 16, rfl⟩, ⟨_, rfl⟩⟩

theorem witness_EveryStepKeepsTheInvariants :
    { macState with pending := [cmd (.macwrite 3 16)] }.Inv ∧
      ∃ t, step { macState with pending := [cmd (.macwrite 3 16)] } = .next t := ⟨by decide, _, rfl⟩

end Sys2Proof.Tests
end

section
/-!
PROOFS. What one access of the host asks of the core (20_memory.md R73, R78, R79), and that every access the core defines
gets a next state.
-/

namespace Sys2Proof.Machine

/-- Taking the oldest access off the host's list is all a step does before the access takes effect. -/
theorem step_of_pending {s : State} {a : Access} {rest : List Access} (h : s.pending = a :: rest) :
    step s = perform a { s with pending := rest } := by
  simp only [step, h]

/-- What the rest of the host's list holds does not matter to the access that is taken off it. -/
theorem step_cons {a : Access} {s t : State} (h : perform a s = .next t) (rest : List Access) :
    step { s with pending := a :: rest } = .next { t with pending := rest } := by
  rw [step_of_pending rfl, perform_setPending a rest s, h, mapNext]

/-- 20_memory.md R73: the accesses the core defines are the aligned 32-bit ones below 0x400. -/
theorem accessRefusal_eq_none_iff (width : Width) (addr : Nat) :
    accessRefusal width addr = none ↔ width = .word ∧ addr % 4 = 0 ∧ addr < 0x400 := by
  unfold accessRefusal
  split
  · next hw => simp [hw]
  · next hw =>
    split
    · next hr => simp [hr]
    · next hr =>
      split
      · next ha => simp [ha]
      · next ha => simpa using ⟨not_not.1 hw, not_not.1 ha, not_le.1 hr⟩

theorem perform_read_refused {width : Width} {addr : Nat} {r : Refusal} (h : accessRefusal width addr = some r)
    (s : State) : perform (.read width addr) s = .refused r := by
  simp only [perform, busAction, h]

theorem perform_write_refused {width : Width} {addr : Nat} {r : Refusal} (h : accessRefusal width addr = some r)
    (v : Word) (s : State) : perform (.write width addr v) s = .refused r := by
  simp only [perform, busAction, h]

theorem perform_read {addr : Nat} (ha : addr % 4 = 0) (hr : addr < 0x400) (s : State) :
    perform (.read .word addr) s = .next (readAccess addr s) := by
  simp only [perform, busAction, (accessRefusal_eq_none_iff .word addr).2 ⟨rfl, ha, hr⟩]

theorem perform_write {addr : Nat} (ha : addr % 4 = 0) (hr : addr < 0x400) (h0 : addr ≠ cmdAddr) (v : Word) (s : State) :
    perform (.write .word addr v) s = .next (busWrite addr v s) := by
  simp only [perform, busAction, (accessRefusal_eq_none_iff .word addr).2 ⟨rfl, ha, hr⟩, if_neg h0]

theorem perform_cmd (w : Word) (s : State) : perform (.write .word cmdAddr w) s = execute w s := by
  simp only [perform, busAction_cmd]

/-- 70_reset_and_hazards.md R348: every command word, legal or not, answers a next state. -/
theorem execute_next (w : Word) (s : State) : ∃ t, execute w s = .next t := by
  unfold execute
  split
  · next i _ =>
    obtain ⟨e, -, -, -, h⟩ | ⟨u, -, h⟩ := exec_raises_or_completes i s
    · exact ⟨_, h⟩
    · exact ⟨_, h⟩
  · exact ⟨_, rfl⟩

/-- Every aligned 32-bit write below 0x400 answers a next state, the one to CMD included. -/
theorem perform_write_next {addr : Nat} (ha : addr % 4 = 0) (hr : addr < 0x400) (v : Word) (s : State) :
    ∃ t, perform (.write .word addr v) s = .next t := by
  by_cases h0 : addr = cmdAddr
  · subst h0
    rw [perform_cmd]
    exact execute_next v s
  · exact ⟨_, perform_write ha hr h0 v s⟩

end Sys2Proof.Machine
end

section
/-!
PROOFS. The register map (20_memory.md R71, R72): what BusRead returns and what BusWrite replaces, register by register.
-/

namespace Sys2Proof.Machine

/-- The word at `base + 4 * i` is word `i` of the register array that begins at `base`. -/
theorem getD_wordOffset {n : Nat} (ws : Vector Word n) (base : Nat) (i : Fin n) :
    ws.getD ((base + 4 * i.val - base) / 4) 0 = ws[i] := by
  simp [Vector.getD]

/-- A write at `base + 4 * i` replaces word `i` of the register array that begins at `base`. -/
theorem setIfInBounds_wordOffset {n : Nat} (ws : Vector Word n) (base : Nat) (i : Fin n) (v : Word) :
    ws.setIfInBounds ((base + 4 * i.val - base) / 4) v = ws.set i v := by
  simp [Vector.setIfInBounds, Vector.set, Array.setIfInBounds]

/-! ### BusRead -/

theorem busRead_key (s : State) (i : Fin 16) : busRead s (0x040 + 4 * i.val) = s.key[i] := by
  simp (disch := omega) only [busRead, if_neg, if_pos, getD_wordOffset]

theorem busRead_nonce (s : State) (i : Fin 4) : busRead s (0x080 + 4 * i.val) = s.nonce[i] := by
  simp (disch := omega) only [busRead, if_neg, if_pos, getD_wordOffset]

theorem busRead_state (s : State) (i : Fin 16) : busRead s (0x100 + 4 * i.val) = s.state[i] := by
  simp (disch := omega) only [busRead, if_neg, if_pos, getD_wordOffset]

theorem busRead_init (s : State) (i : Fin 16) : busRead s (0x140 + 4 * i.val) = s.init[i] := by
  simp (disch := omega) only [busRead, if_neg, if_pos, getD_wordOffset]

theorem busRead_ks (s : State) (i : Fin 16) : busRead s (0x180 + 4 * i.val) = s.ks[i] := by
  simp (disch := omega) only [busRead, if_neg, if_pos, getD_wordOffset]

theorem busRead_dbuf (s : State) (i : Fin 16) : busRead s (0x1C0 + 4 * i.val) = s.dbuf[i] := by
  simp (disch := omega) only [busRead, if_neg, if_pos, getD_wordOffset]

theorem busRead_tag (s : State) (i : Fin 8) : busRead s (0x300 + 4 * i.val) = s.tag[i] := by
  simp (disch := omega) only [busRead, if_neg, if_pos, getD_wordOffset]

/-- 20_memory.md R71, R74: the reserved offsets outside the MAC blocks read as 0. -/
theorem busRead_reserved (s : State) {addr : Nat}
    (h : (0x014 ≤ addr ∧ addr < 0x040) ∨ (0x090 ≤ addr ∧ addr < 0x100) ∨ 0x320 ≤ addr) : busRead s addr = 0 := by
  simp (disch := omega) only [busRead, if_neg]

/-- 20_memory.md R72: the block of MAC[m] stands at `0x200 + 0x80 * m`. -/
theorem busRead_macBlock (s : State) (m : Fin 2) {o : Nat} (ho : o < 0x80) :
    busRead s (0x200 + 0x80 * m.val + o) = macBlockRead (macOf s m) o := by
  obtain rfl | rfl : m = 0 ∨ m = 1 := by omega
  · have hsub : 0x200 + 0x80 * (0 : Fin 2).val + o - 0x200 = o := by omega
    simp (disch := omega) only [busRead, if_neg, if_pos, hsub, macOf_zero]
  · have hsub : 0x200 + 0x80 * (1 : Fin 2).val + o - 0x280 = o := by omega
    simp (disch := omega) only [busRead, if_neg, if_pos, hsub, macOf_one]

theorem macBlockRead_mctrl (I : MacInst) : macBlockRead I 0 = mctrlWord I := rfl

theorem macBlockRead_h (I : MacInst) (i : Fin 6) : macBlockRead I (0x04 + 4 * i.val) = I.h[i] := by
  simp (disch := omega) only [macBlockRead, if_neg, if_pos, getD_wordOffset]

theorem macBlockRead_r (I : MacInst) (i : Fin 6) : macBlockRead I (0x20 + 4 * i.val) = I.r[i] := by
  simp (disch := omega) only [macBlockRead, if_neg, if_pos, getD_wordOffset]

theorem macBlockRead_pad (I : MacInst) (i : Fin 4) : macBlockRead I (0x40 + 4 * i.val) = I.pad[i] := by
  simp (disch := omega) only [macBlockRead, if_neg, if_pos, getD_wordOffset]

theorem macBlockRead_buf (I : MacInst) (i : Fin 6) : macBlockRead I (0x50 + 4 * i.val) = I.buf[i] := by
  simp (disch := omega) only [macBlockRead, if_neg, if_pos, getD_wordOffset]

/-- 20_memory.md R72, R74: the reserved offsets of a MAC block read as 0. -/
theorem macBlockRead_reserved (I : MacInst) {o : Nat} (ho : o = 0x1C ∨ o = 0x38 ∨ o = 0x3C ∨ 0x68 ≤ o) :
    macBlockRead I o = 0 := by
  simp (disch := omega) only [macBlockRead, if_neg]

/-! ### BusWrite -/

theorem busWrite_key_word (i : Fin 16) (v : Word) (s : State) :
    busWrite (0x040 + 4 * i.val) v s = { s with key := s.key.set i v } := by
  simp (disch := omega) only [busWrite, if_neg, if_pos, setIfInBounds_wordOffset]

theorem busWrite_nonce_word (i : Fin 4) (v : Word) (s : State) :
    busWrite (0x080 + 4 * i.val) v s = { s with nonce := s.nonce.set i v } := by
  simp (disch := omega) only [busWrite, if_neg, if_pos, setIfInBounds_wordOffset]

theorem busWrite_state_word (i : Fin 16) (v : Word) (s : State) :
    busWrite (0x100 + 4 * i.val) v s = { s with state := s.state.set i v } := by
  simp (disch := omega) only [busWrite, if_neg, if_pos, setIfInBounds_wordOffset]

theorem busWrite_dbuf_word (i : Fin 16) (v : Word) (s : State) :
    busWrite (0x1C0 + 4 * i.val) v s = { s with dbuf := s.dbuf.set i v } := by
  simp (disch := omega) only [busWrite, if_neg, if_pos, setIfInBounds_wordOffset]

end Sys2Proof.Machine
end

section
/-!
PROOFS. The words of STATUS and MCTRL as the statements write them: fields shifted into place and joined bit by bit
(20_memory.md R79), with the numbers of the tables (60_exceptions.md R310, 10_state.md R34).
-/

namespace Sys2Proof.Claims

open Sys2Proof.Machine

theorem codeNumber_eq_codeInTable (e : ResultCode) : codeNumber e = codeInTable e := by cases e <;> rfl

theorem variantNumber_eq_varInTable (var : Variant) : variantNumber var = varInTable var := by cases var <;> rfl

theorem codeInTable_lt (e : ResultCode) : codeInTable e < 2 ^ 8 := by cases e <;> decide

theorem varInTable_lt (var : Variant) : varInTable var < 2 := by cases var <;> decide

theorem statusWord_eq_fields (s : State) :
    statusWord s = BitVec.ofNat 32 (s.err.toNat <<< 8 ||| codeInTable s.code) := by
  rw [statusWord, codeNumber_eq_codeInTable, ← Nat.shiftLeft_add_eq_or_of_lt (codeInTable_lt s.code), Nat.shiftLeft_eq]

theorem mctrlWord_eq_fields (I : MacInst) :
    mctrlWord I = BitVec.ofNat 32 (I.count.toNat <<< 8 ||| I.mod.toNat <<< 4 ||| varInTable I.var <<< 2
      ||| I.finalized.toNat <<< 1 ||| I.configured.toNat) := by
  have hc := Bool.toNat_lt I.configured
  have hf := Bool.toNat_lt I.finalized
  have hm := Bool.toNat_lt I.mod
  have hv := varInTable_lt I.var
  simp only [Nat.or_assoc]
  rw [← Nat.shiftLeft_add_eq_or_of_lt (i := 1) (by omega),
    ← Nat.shiftLeft_add_eq_or_of_lt (i := 2) (by simp only [Nat.shiftLeft_eq]; omega),
    ← Nat.shiftLeft_add_eq_or_of_lt (i := 4) (by simp only [Nat.shiftLeft_eq]; omega),
    ← Nat.shiftLeft_add_eq_or_of_lt (i := 8) (by simp only [Nat.shiftLeft_eq]; omega),
    mctrlWord, variantNumber_eq_varInTable]
  simp only [Nat.shiftLeft_eq, Nat.add_assoc, Nat.pow_one]

end Sys2Proof.Claims
end

section
/-!
PROOFS. The register space (20_memory.md): which accesses get a step, what each read returns and what each write replaces.
-/

namespace Sys2Proof.Claims

open Sys2Proof.Machine

/-- Settles O7: an access has a next state exactly where `accessRefusal` names no refusal. -/
theorem onlyAlignedWordAccessesGetAStep : Obligations.OnlyAlignedWordAccessesGetAStep := by
  intro s width addr v a rest hp ha
  rw [step_of_pending hp]
  constructor
  · intro hbad
    have hne : accessRefusal width addr ≠ none := by
      rw [Ne, accessRefusal_eq_none_iff]
      rintro ⟨hw, hal, hr⟩
      obtain h | h | h := hbad
      · exact h hw
      · exact h hal
      · omega
    obtain ⟨r, hr⟩ := Option.ne_none_iff_exists'.1 hne
    obtain rfl | rfl := ha
    · exact ⟨r, perform_read_refused hr _⟩
    · exact ⟨r, perform_write_refused hr v _⟩
  · rintro ⟨rfl, hal, hr⟩
    obtain rfl | rfl := ha
    · exact ⟨_, perform_read hal hr _⟩
    · exact perform_write_next hal hr v _

/-- A read returns BusRead's value and changes no register. -/
theorem readsAs_of_busRead {s : State} {addr : Nat} {v : Word} (ha : addr % 4 = 0) (hr : addr < 0x400)
    (hv : busRead s addr = v) : ReadsAs s addr v := by
  subst hv
  exact step_cons (perform_read ha hr s)

/-- A read in the block of MAC[m]. -/
theorem readsAs_of_macBlockRead {s : State} (m : Fin 2) {addr o : Nat} {v : Word} (haddr : addr = 0x200 + 0x80 * m.val + o)
    (ha : o % 4 = 0) (ho : o < 0x80) (hv : macBlockRead (macOf s m) o = v) : ReadsAs s addr v := by
  subst haddr
  exact readsAs_of_busRead (by omega) (by omega) ((busRead_macBlock s m ho).trans hv)

/-- 20_memory.md R74: reserved offsets read as 0. -/
theorem readsAs_reserved (s : State) {addr : Nat} (ha : addr % 4 = 0) (h : ReservedOffset addr) : ReadsAs s addr 0 := by
  obtain h | h | h | ⟨m, hm, h⟩ := h
  · exact readsAs_of_busRead ha (by omega) (busRead_reserved s (by omega))
  · exact readsAs_of_busRead ha (by omega) (busRead_reserved s (by omega))
  · exact readsAs_of_busRead ha (by omega) (busRead_reserved s (by omega))
  · obtain ⟨o, rfl⟩ : ∃ o, addr = 0x200 + 0x80 * m + o := ⟨addr - (0x200 + 0x80 * m), by omega⟩
    exact readsAs_of_macBlockRead ⟨m, hm⟩ rfl (by omega) (by omega) (macBlockRead_reserved _ (by omega))

/-- Settles O8: each offset of the map falls under one branch of BusRead. -/
theorem readsReturnTheMappedRegisters : Obligations.ReadsReturnTheMappedRegisters := by
  intro s
  have read {addr : Nat} {v : Word} := @readsAs_of_busRead s addr v
  refine ⟨read rfl (by decide) rfl, read rfl (by decide) (statusWord_eq_fields s), read rfl (by decide) rfl,
    read rfl (by decide) rfl, read rfl (by decide) rfl,
    fun i => read (by omega) (by omega) (busRead_key s i), fun i => read (by omega) (by omega) (busRead_nonce s i),
    fun i => read (by omega) (by omega) (busRead_state s i), fun i => read (by omega) (by omega) (busRead_init s i),
    fun i => read (by omega) (by omega) (busRead_ks s i), fun i => read (by omega) (by omega) (busRead_dbuf s i),
    fun i => read (by omega) (by omega) (busRead_tag s i), fun m => ?mctrl, fun m i => ?h, fun m i => ?r, fun m i => ?pad,
    fun m i => ?buf, fun addr => readsAs_reserved s⟩
  case mctrl =>
    exact readsAs_of_macBlockRead m (o := 0) rfl rfl (by decide)
      ((macBlockRead_mctrl (macOf s m)).trans (mctrlWord_eq_fields (macOf s m)))
  case h => exact readsAs_of_macBlockRead m (by omega) (by omega) (by omega) (macBlockRead_h (macOf s m) i)
  case r => exact readsAs_of_macBlockRead m (by omega) (by omega) (by omega) (macBlockRead_r (macOf s m) i)
  case pad => exact readsAs_of_macBlockRead m (by omega) (by omega) (by omega) (macBlockRead_pad (macOf s m) i)
  case buf => exact readsAs_of_macBlockRead m (by omega) (by omega) (by omega) (macBlockRead_buf (macOf s m) i)

/-- A write to an offset other than CMD's leaves BusWrite's registers. -/
theorem writesAs_of_busWrite {s u : State} {addr : Nat} {v : Word} (ha : addr % 4 = 0) (hr : addr < 0x400)
    (h0 : addr ≠ cmdAddr) (hu : busWrite addr v s = u) : WritesAs s addr v u := by
  subst hu
  exact step_cons (perform_write ha hr h0 v s)

/-- 20_memory.md R74, R75: a write to a read-only register or a reserved offset has no effect. -/
theorem busWrite_of_not_hostWritable {addr : Nat} (h : ¬ HostWritable addr) (v : Word) (s : State) :
    busWrite addr v s = s := by
  simp (disch := omega) only [busWrite, if_neg]

/-- Settles O9: a write to CMD is `execute`, and each other offset falls under one branch of BusWrite. -/
theorem writesReachTheMappedRegisters : Obligations.WritesReachTheMappedRegisters := by
  intro s v
  have write {addr : Nat} {u : State} := @writesAs_of_busWrite s u addr v
  refine ⟨fun rest => ?cmd, write rfl (by decide) (by decide) rfl, write rfl (by decide) (by decide) rfl,
    fun i => ?key, fun i => ?nonce, fun i => ?state, fun i => ?dbuf, fun addr ha hr h0 hw => ?other⟩
  case cmd => exact (step_of_pending rfl).trans (perform_cmd v _)
  case key => exact write (by omega) (by omega) (by simp [cmdAddr]) (busWrite_key_word i v s)
  case nonce => exact write (by omega) (by omega) (by simp [cmdAddr]) (busWrite_nonce_word i v s)
  case state => exact write (by omega) (by omega) (by simp [cmdAddr]) (busWrite_state_word i v s)
  case dbuf => exact write (by omega) (by omega) (by simp [cmdAddr]) (busWrite_dbuf_word i v s)
  case other => exact write ha hr h0 (busWrite_of_not_hostWritable hw v s)

end Sys2Proof.Claims
end

section
/-!
PROOFS. The words that the decoder refuses (30_encoding.md R109, R110, R112): each comes out under its own reason, with
the opcode the word holds, and executes as ILLEGAL_COMMAND (60_exceptions.md R311).
-/

namespace Sys2Proof.Claims

open Sys2Proof.Machine

theorem ifReservedZero_of_ne_zero {reserved : Nat} (h : reserved ≠ 0) (op : Nat) (i : Instr) :
    ifReservedZero op reserved i = .error (.reservedBits op) :=
  if_neg h

/-- 30_encoding.md R110: every arm of the decoder but the last names an opcode of the map. -/
theorem decode_of_undefinedOpcode {w : Word} (h : UndefinedOpcode w) :
    decode w = .error (.undefinedOpcode (bits w 31 24)) := by
  unfold decode
  split
  case h_13 => rfl
  all_goals omega

/-- 30_encoding.md R109: the arm of each opcode tests all the bits that its format does not name. -/
theorem decode_of_reservedBitSet {w : Word} (h : ReservedBitSet w) :
    decode w = .error (.reservedBits (bits w 31 24)) := by
  obtain ⟨hop, hr⟩ | ⟨hop, hr⟩ | ⟨hop, hr⟩ | ⟨hop, hr⟩ | ⟨hop, hr⟩ | ⟨hop, hr⟩ := h
  · simp only [List.mem_cons, List.not_mem_nil, or_false] at hop
    obtain hop | hop | hop | hop | hop | hop | hop := hop <;>
      simp only [decode, hop, ifReservedZero_of_ne_zero hr]
  · simp only [decode, hop, ifReservedZero_of_ne_zero hr]
  · simp only [decode, hop, ifReservedZero_of_ne_zero hr]
  · simp only [decode, hop, ifReservedZero_of_ne_zero hr]
  · have hsum : bits w 23 15 + bits w 7 2 ≠ 0 := by omega
    simp only [decode, hop, ifReservedZero_of_ne_zero hsum]
  · simp only [decode, hop, ifReservedZero_of_ne_zero hr]

/-- 30_encoding.md R112: a word that the decoder refuses executes as ILLEGAL_COMMAND, whatever the reason. -/
theorem execute_of_decode_error {w : Word} {e : DecodeError} (h : decode w = .error e) (s : State) :
    execute w s = illegalCommand w s := by
  simp only [execute, h]

/-- Settles O5: the decoder refuses the word for its opcode or for its reserved bits, and `illegalCommand` changes
STATUS and ERRCMD alone. -/
theorem illegalWordsFailWithIllegalCommand : Obligations.IllegalWordsFailWithIllegalCommand := by
  intro s w rest hp hw
  have hd : ∃ e, decode w = .error e := by
    obtain h | h := hw
    · exact ⟨_, decode_of_undefinedOpcode h⟩
    · exact ⟨_, decode_of_reservedBitSet h⟩
  obtain ⟨e, he⟩ := hd
  calc step s
    _ = execute w { s with pending := rest } := (step_of_pending hp).trans (perform_cmd w _)
    _ = illegalCommand w { s with pending := rest } := execute_of_decode_error he _
    _ = fails .illegalCommand w { s with pending := rest } := rfl

end Sys2Proof.Claims
end

section
/-!
PROOFS. The operand checks (30_encoding.md R111, 60_exceptions.md R312): each command tests what `Instr.wellFormed` says
of its operands, before anything else, and no later check raises ILLEGAL_OPERAND.
-/

namespace Sys2Proof.Claims

open Sys2Proof.Machine

/-! ### Each command's check is `Instr.wellFormed` -/

theorem pairwiseDistinct_iff_wellFormed (a b c d : Fin 16) :
    PairwiseDistinct a b c d ↔ (Instr.qr a b c d).wellFormed = true := by
  simp [PairwiseDistinct, Instr.wellFormed, and_assoc]

theorem scxorLengthIllegal_eq (n : Fin 128) : scxorLengthIllegal n = !(Instr.scxor n).wellFormed := by
  rw [scxorLengthIllegal, Instr.wellFormed, ← decide_not, decide_eq_decide, chunkBytes]
  omega

theorem macinitIllegal_eq (sel var : Fin 4) (mod : Bool) :
    macinitIllegal sel var mod = !(Instr.macinit sel var mod).wellFormed := by
  rw [macinitIllegal, Instr.wellFormed, ← decide_not, decide_eq_decide, gt_iff_lt, ← not_le]
  tauto

theorem macwriteIllegal_eq (sel : Fin 4) (n : Fin 128) : macwriteIllegal sel n = !(Instr.macwrite sel n).wellFormed := by
  rw [macwriteIllegal, Instr.wellFormed, ← decide_not, decide_eq_decide, chunkBytes]
  omega

theorem macfinalIllegal_eq (sel : Fin 4) : macfinalIllegal sel = !(Instr.macfinal sel).wellFormed := by
  rw [macfinalIllegal, Instr.wellFormed, ← decide_not, decide_eq_decide]
  exact not_not.symm

/-! ### The two outcomes -/

/-- 60_exceptions.md R312: the operand check stands before every other check and every write. -/
theorem exec_of_not_wellFormed {i : Instr} (h : i.wellFormed = false) (s : State) :
    exec i s = raise (encode i) .illegalOperand s := by
  cases i with
  | qr a b c d =>
    have hd : ¬ PairwiseDistinct a b c d := by simp [pairwiseDistinct_iff_wellFormed, h]
    simp only [exec, execQr, dif_neg hd]
  | scxor n => simp [exec, execScxor, scxorLengthIllegal_eq, h]
  | macinit sel var mod => simp [exec, execMacinit, macinitIllegal_eq, h]
  | macwrite sel n => simp [exec, execMacwrite, macwriteIllegal_eq, h]
  | macfinal sel => simp [exec, execMacfinal, macfinalIllegal_eq, h]
  | nop | colround | diaground | dround | blkinit | blkfinal | genblock => cases h

/-- The result, when it has a next state, ends with another code than ILLEGAL_OPERAND. -/
def EndsWithoutIllegalOperand (r : Result) : Prop := ∀ t, r = .next t → t.code ≠ .illegalOperand

theorem complete_endsWithoutIllegalOperand (u : State) : EndsWithoutIllegalOperand (complete u) := by
  rintro t ⟨⟩
  exact nofun

theorem raise_endsWithoutIllegalOperand {e : ResultCode} (he : e ≠ .illegalOperand) (w : Word) (s : State) :
    EndsWithoutIllegalOperand (raise w e s) := by
  rintro t ⟨⟩
  exact he

/-- 60_exceptions.md R312: past the operand check, every check raises a code of its own. -/
theorem exec_endsWithoutIllegalOperand {i : Instr} (h : i.wellFormed = true) (s : State) :
    EndsWithoutIllegalOperand (exec i s) := by
  have ok := complete_endsWithoutIllegalOperand
  have nonceLength (w : Word) := raise_endsWithoutIllegalOperand (e := .invalidNonceLength) (by decide) w s
  have unconfigured (w : Word) := raise_endsWithoutIllegalOperand (e := .notConfigured) (by decide) w s
  have useAfterFinalize (w : Word) := raise_endsWithoutIllegalOperand (e := .useAfterFinalize) (by decide) w s
  have mismatch (w : Word) := raise_endsWithoutIllegalOperand (e := .dualMismatch) (by decide) w s
  cases i with
  | nop | colround | diaground | dround | blkfinal => exact ok _
  | qr a b c d =>
    simp only [exec, execQr, dif_pos ((pairwiseDistinct_iff_wellFormed a b c d).2 h)]
    exact ok _
  | blkinit =>
    simp only [exec, execBlkinit]
    split
    · exact nonceLength _
    · exact ok _
  | genblock =>
    simp only [exec, execGenblock]
    split
    · exact nonceLength _
    · exact ok _
  | scxor n =>
    simp only [exec, execScxor, scxorLengthIllegal_eq, h, Bool.not_true, Bool.false_eq_true, if_false]
    split
    · exact nonceLength _
    · exact ok _
  | macinit sel var mod =>
    simp only [exec, execMacinit, macinitIllegal_eq, h, Bool.not_true, Bool.false_eq_true, if_false]
    exact ok _
  | macwrite sel n =>
    simp only [exec, execMacwrite, macwriteIllegal_eq, h, Bool.not_true, Bool.false_eq_true, if_false]
    split
    · exact unconfigured _
    split
    · exact useAfterFinalize _
    · exact ok _
  | macfinal sel =>
    simp only [exec, execMacfinal, macfinalIllegal_eq, h, Bool.not_true, Bool.false_eq_true, if_false]
    split
    · exact unconfigured _
    split
    · exact useAfterFinalize _
    split
    · exact mismatch _
    · exact ok _

/-- Settles O6: ILLEGAL_OPERAND comes from the operand check and from nothing after it. -/
theorem illegalOperandsFailWithIllegalOperand : Obligations.IllegalOperandsFailWithIllegalOperand :=
  fun _ s => ⟨fun h => exec_of_not_wellFormed h s, fun h => exec_endsWithoutIllegalOperand h s⟩

end Sys2Proof.Claims
end

section
/-!
PROOFS. The control command NOP (40_control.md R130): its one legal word, and what it leaves of STATUS.
-/

namespace Sys2Proof.Claims

open Sys2Proof.Machine

theorem exec_nop (s : State) : exec .nop s = completes s := rfl

theorem decode_zero : decode 0x00000000 = .ok .nop := by decide

/-- 40_control.md R130: the word 0 is NOP. -/
theorem execute_zero (s : State) : execute 0x00000000 s = completes s := by
  simp only [execute, decode_zero, exec_nop]

/-- Opcode 0 has format N, whose reserved bits are all of [23:0] (30_encoding.md R101). -/
theorem reservedBitSet_of_opcode_zero {w : Word} (hop : bits w 31 24 = 0x00) (hr : bits w 23 0 ≠ 0) :
    ReservedBitSet w :=
  .inl ⟨by simp [hop], hr⟩

/-- 10_state.md R24: bit 8 of STATUS is ERR. -/
theorem bits_statusWord_err (s : State) : bits (statusWord s) 8 8 = s.err.toNat := by
  have hcode := codeInTable_lt s.code
  have herr := Bool.toNat_lt s.err
  rw [bits, statusWord, codeNumber_eq_codeInTable, BitVec.toNat_ofNat]
  omega

/-- Settles O19: NOP completes on the state itself, so ERR stays set, and any other word with opcode 0 has a reserved bit
set, which the decoder refuses. -/
theorem nopOnlySetsTheCode : Obligations.NopOnlySetsTheCode := by
  refine ⟨exec_nop, execute_zero, fun w s hop hr => ?illegal, fun s t hs ht => ?status⟩
  case illegal =>
    exact execute_of_decode_error (decode_of_reservedBitSet (reservedBitSet_of_opcode_zero hop hr)) s
  case status =>
    have herr : s.err.toNat = 1 := by
      rw [← bits_statusWord_err, hs]
      decide
    obtain rfl : { s with code := .ok } = t := by
      rw [execute_zero] at ht
      exact Host.Outcome.next.inj ht
    simp [statusWord, herr, codeNumber]

end Sys2Proof.Claims
end

section
/-!
PROOFS. The quarter round (41_permutation.md R140, R141): the model's 13 steps on a whole state are `mixWords` on its four
words, and QR completes with them.
-/

namespace Sys2Proof.Claims

open Sys2Proof.Machine

/-- 00_scope.md R10: the shifts of `rotl32` are the library's rotation. -/
theorem rotl32_eq_rotateLeft (x : Word) {n : Nat} (hn : n < 32) : rotl32 x n = x.rotateLeft n := by
  rw [rotl32, BitVec.rotateLeft_eq_rotateLeftAux_of_lt hn, BitVec.rotateLeftAux]

theorem quarterWords_eq_mixWords (a b c d : Word) : quarterWords a b c d = mixWords a b c d := by
  simp (disch := decide) only [quarterWords, mixWords, rotl32_eq_rotateLeft, rot1, rot2, rot3, rot4, qrConst]

/-- 41_permutation.md R140: the four words of a quarter round are those of the thirteen steps. -/
theorem wordsAt_quarterRound (q : Quad) (S : Vector Word 16) :
    wordsAt (quarterRound q S) q.a q.b q.c q.d = mixedAt S q.a q.b q.c q.d :=
  (quarterRound_words q S).trans (quarterWords_eq_mixWords _ _ _ _)

/-- 41_permutation.md R148: on pairwise distinct indices QR completes with the quarter round of STATE. -/
theorem exec_qr_of_distinct {a b c d : Fin 16} (h : PairwiseDistinct a b c d) (s : State) :
    exec (.qr a b c d) s = completes { s with state := quarterRound ⟨a, b, c, d, h⟩ s.state } :=
  dif_pos h

/-- Settles O20: QR replaces STATE by its quarter round, which is the thirteen steps on the four words and leaves every
other word alone. -/
theorem qrAppliesTheQuarterRound : Obligations.QrAppliesTheQuarterRound :=
  fun a b c d s h =>
    ⟨quarterRound ⟨a, b, c, d, h⟩ s.state, exec_qr_of_distinct h s, wordsAt_quarterRound ⟨a, b, c, d, h⟩ s.state,
      quarterRound_other ⟨a, b, c, d, h⟩ s.state⟩

end Sys2Proof.Claims
end

section
/-!
PROOFS. The initial state (42_block_generator.md R170): each loop of InitState sets a run of words, and the sixteen words
that the four loops leave.
-/

namespace Sys2Proof.Claims

open Sys2Proof.Machine

/-- A loop that sets a run of words gives each word of the run its value and leaves every other word alone. -/
theorem setWords_getElem (base : Nat) (ws : List Word) (S : Vector Word 16) (i : Nat) (hi : i < 16) :
    (setWords base ws S)[i] = if h : base ≤ i ∧ i - base < ws.length then ws[i - base] else S[i] := by
  induction ws generalizing base S with
  | nil => simp [setWords]
  | cons w ws ih =>
    rw [setWords, ih]
    obtain hlt | rfl | hgt := Nat.lt_trichotomy i base
    · have hne : base ≠ i := by omega
      have hnot : ¬ base ≤ i := by omega
      have hnot' : ¬ base + 1 ≤ i := by omega
      simp [hne, hnot, hnot']
    · simp
    · obtain ⟨j, rfl⟩ : ∃ j, i = base + 1 + j := ⟨i - (base + 1), by omega⟩
      have hsub : base + 1 + j - base = j + 1 := by omega
      have hne : base ≠ base + 1 + j := by omega
      have hle : base ≤ base + 1 + j := by omega
      simp [hsub, hne, hle]

/-- 42_block_generator.md R170, R171 (1): the nonce loop comes after the key loop, so word 11 is the nonce's first. -/
theorem initState_eq_initialWords (s : State) : initState s.key s.nonce s.counter = initialWords s := by
  ext i hi
  simp only [initState, setWords_getElem]
  interval_cases i <;> simp [sigma, initialWords]

end Sys2Proof.Claims
end

section
/-!
PROOFS. The keystream block commands (42_block_generator.md R174 to R178, 43_stream_cipher.md R190): what each answers, by
NONCE_LEN; the nonce-length check and the lifetime of STATE and INIT follow from it.
-/

namespace Sys2Proof.Claims

open Sys2Proof.Machine

/-- 42_block_generator.md R174: the check compares the register with the one length that passes. -/
theorem nonceLengthWrong_eq (s : State) : nonceLengthWrong s = decide (s.nonceLen ≠ 16) :=
  decide_eq_decide.2 (not_congr (BitVec.toNat_inj (x := s.nonceLen) (y := 16)))

/-! ### The outcome of a command that checks NONCE_LEN -/

/-- The outcome of a command past its operand check, whose one other check is R174's and whose effect leaves `u`. -/
def unlessNonceLengthWrong (i : Instr) (s u : State) : Result :=
  if nonceLengthWrong s then raise (encode i) .invalidNonceLength s else complete u

theorem unlessNonceLengthWrong_of_ne {s : State} (h : s.nonceLen ≠ 16) (i : Instr) (u : State) :
    unlessNonceLengthWrong i s u = fails .invalidNonceLength (encode i) s :=
  if_pos ((nonceLengthWrong_eq s).trans (decide_eq_true h))

theorem unlessNonceLengthWrong_of_eq {s : State} (h : s.nonceLen = 16) (i : Instr) (u : State) :
    unlessNonceLengthWrong i s u = completes u :=
  if_neg (by simp [nonceLengthWrong_eq, h])

/-- The effect of a command shows only where the check has passed. -/
theorem eq_of_unlessNonceLengthWrong_ok {i : Instr} {s t u : State} (h : unlessNonceLengthWrong i s u = .next t)
    (hok : t.code = .ok) : t = { u with code := .ok } := by
  by_cases hn : s.nonceLen = 16
  · rw [unlessNonceLengthWrong_of_eq hn] at h
    exact (Host.Outcome.next.inj h).symm
  · rw [unlessNonceLengthWrong_of_ne hn] at h
    cases h
    cases hok

/-! ### What each command answers -/

theorem exec_blkinit (s : State) :
    exec .blkinit s = unlessNonceLengthWrong .blkinit s { s with state := initialWords s, init := initialWords s } := by
  rw [← initState_eq_initialWords]
  rfl

theorem exec_blkfinal (s : State) :
    exec .blkfinal s = completes (destroyState { s with ks := feedForward s.state s.init }) := rfl

theorem exec_genblock (s : State) :
    exec .genblock s = unlessNonceLengthWrong .genblock s (destroyState { s with ks := currentBlock s }) := rfl

theorem exec_scxor {n : Fin 128} (h : (Instr.scxor n).wellFormed = true) (s : State) :
    exec (.scxor n) s = unlessNonceLengthWrong (.scxor n) s (scxorEffect n s) :=
  if_neg (by simp [scxorLengthIllegal_eq, h])

/-- Settles O26: past the check, BLKINIT puts the sixteen words of InitState into STATE and INIT. -/
theorem blkinitBuildsTheInitialState : Obligations.BlkinitBuildsTheInitialState :=
  fun s h => (exec_blkinit s).trans (unlessNonceLengthWrong_of_eq h _ _)

/-- 42_block_generator.md R174: the commands that build a state from the nonce make the check, and no other after it. -/
theorem exec_eq_unlessNonceLengthWrong {i : Instr} (s : State)
    (hi : i = .blkinit ∨ i = .genblock ∨ ∃ n : Fin 128, 1 ≤ n.val ∧ n.val ≤ 64 ∧ i = .scxor n) :
    ∃ u, exec i s = unlessNonceLengthWrong i s u := by
  obtain rfl | rfl | ⟨n, hpos, hle, rfl⟩ := hi
  · exact ⟨_, exec_blkinit s⟩
  · exact ⟨_, exec_genblock s⟩
  · exact ⟨_, exec_scxor (decide_eq_true ⟨hpos, hle⟩) s⟩

/-- Settles O31: each of the three commands fails at the check or completes. -/
theorem wrongNonceLengthFails : Obligations.WrongNonceLengthFails := by
  intro i s hi
  obtain ⟨u, hu⟩ := exec_eq_unlessNonceLengthWrong s hi
  exact ⟨fun h => hu.trans (unlessNonceLengthWrong_of_ne h i u),
    fun h => ⟨_, hu.trans (unlessNonceLengthWrong_of_eq h i u), rfl⟩⟩

/-- 42_block_generator.md R175: a command that produces a block ends with `STATE <- 0; INIT <- 0` when it succeeds. -/
theorem eq_destroyState_of_block_ok {i : Instr} {s t : State} (hi : i = .blkfinal ∨ i = .genblock ∨ ∃ n, i = .scxor n)
    (h : exec i s = .next t) (hok : t.code = .ok) : ∃ u, t = { destroyState u with code := .ok } := by
  obtain rfl | rfl | ⟨n, rfl⟩ := hi
  · exact ⟨_, (Host.Outcome.next.inj h).symm⟩
  · exact ⟨_, eq_of_unlessNonceLengthWrong_ok ((exec_genblock s).symm.trans h) hok⟩
  · cases hw : (Instr.scxor n).wellFormed with
    | false =>
      rw [exec_of_not_wellFormed hw] at h
      cases h
      cases hok
    | true => exact ⟨_, eq_of_unlessNonceLengthWrong_ok ((exec_scxor hw s).symm.trans h) hok⟩

/-- Settles O29: success leaves STATE and INIT as `destroyState` does. -/
theorem stateDoesNotOutliveTheBlock : Obligations.StateDoesNotOutliveTheBlock := by
  intro i s t hi h hok
  obtain ⟨u, rfl⟩ := eq_destroyState_of_block_ok hi h hok
  exact ⟨rfl, rfl⟩

end Sys2Proof.Claims
end

section
/-!
PROOFS. The stream cipher combiner (43_stream_cipher.md R190, R191): the block that SCXOR takes is the sum the statements
write out, and what SCXOR leaves past its two checks.
-/

namespace Sys2Proof.Claims

open Sys2Proof.Machine

/-- 42_block_generator.md R172: twelve double rounds of the sixteen initial words, fed forward. -/
theorem currentBlock_eq_blockWords (s : State) : currentBlock s = blockWords s := by
  rw [currentBlock, block, initState_eq_initialWords, doubleRoundN_eq_iterate]
  rfl

theorem exec_scxor_of_checks {n : Fin 128} {s : State} (hw : (Instr.scxor n).wellFormed = true) (hn : s.nonceLen = 16) :
    exec (.scxor n) s = completes (scxorEffect n s) :=
  (exec_scxor hw s).trans (unlessNonceLengthWrong_of_eq hn _ _)

theorem scxorEffect_eq_blockWords (n : Nat) (s : State) :
    scxorEffect n s = { s with
      ks := blockWords s
      dbuf := xorBytes n s.dbuf (blockWords s)
      counter := s.counter + 1
      state := zero16
      init := zero16 } := by
  rw [← currentBlock_eq_blockWords]
  rfl

/-- Settles O33: past the checks SCXOR leaves its effect, whose DBUF is the combiner's and whose COUNTER is a 32-bit sum. -/
theorem scxorCombinesAndAdvances : Obligations.ScxorCombinesAndAdvances := by
  intro n s hpos hle hn
  refine ⟨xorBytes n s.dbuf (blockWords s), s.counter + 1, ?outcome, ?counter, ?bytes⟩
  case outcome =>
    rw [exec_scxor_of_checks (decide_eq_true ⟨hpos, hle⟩) hn, scxorEffect_eq_blockWords]
  case counter => exact BitVec.toNat_add s.counter 1
  case bytes => exact getByte_xorBytes n s.dbuf (blockWords s)

end Sys2Proof.Claims
end

section
/-!
PROOFS. The constants of the two variants and the fold `2^K ≡ 5 (mod P)` (44_limb_engine.md R210, 45_modular_reducer.md
R230).
-/

namespace Sys2Proof.Claims

open Sys2Proof.Machine

theorem modulus_add_foldFactor (var : Variant) : modulus var + foldFactor = 2 ^ valueBits var :=
  Nat.sub_add_cancel (foldFactor_lt var).le

/-- 45_modular_reducer.md R230: a carry of weight `2^K` counts five times at weight 1. -/
theorem mul_two_pow_valueBits_mod (var : Variant) (c : Nat) :
    c * 2 ^ valueBits var % modulus var = foldFactor * c % modulus var := by
  rw [← modulus_add_foldFactor, Nat.mul_add, Nat.mul_comm c foldFactor, Nat.mul_add_mod_self_right]

/-- Settles O57: the table is read off the definitions, and the fold identity comes from `P + 5 = 2^K`. -/
theorem variantConstantsAreTheTables : Obligations.VariantConstantsAreTheTables :=
  ⟨rfl, rfl, rfl, rfl, rfl, rfl, rfl, rfl, rfl, rfl, rfl, rfl, rfl, rfl, rfl, rfl,
    fun c => ⟨mul_two_pow_valueBits_mod .v130 c, mul_two_pow_valueBits_mod .v179 c⟩⟩

end Sys2Proof.Claims
end

section
/-!
PROOFS. Block to limbs (44_limb_engine.md R211): the vector that ToLimbs hands to Normalize holds exactly the block's value,
so the laws of Normalize give its residue and, below `2^K`, its limbs.
-/

namespace Sys2Proof.Claims

open Sys2Proof.Machine

theorem limbValue_append (b : Nat) (x y : List Nat) :
    limbValue b (x ++ y) = limbValue b x + 2 ^ (b * x.length) * limbValue b y := by
  induction x with
  | nil => simp [limbValue]
  | cons l x ih =>
    rw [List.cons_append, limbValue, limbValue, ih, List.length_cons, Nat.mul_succ, Nat.add_comm (b * _) b, pow_add]
    ring

/-- The vector of `n` limbs that R211 hands to Normalize: base-`2^b` digits of `v`, and in the top limb all the bits that
are left. -/
def splitLimbs (b n v : Nat) : List Nat :=
  (List.range n).map fun i => if i + 1 < n then v / 2 ^ (b * i) % 2 ^ b else v / 2 ^ (b * i)

theorem toLimbs_eq_normalize (var : Variant) (v : Nat) :
    toLimbs var v = normalize (limbBits var) (splitLimbs (limbBits var) (limbCount var) v) := rfl

@[simp] theorem splitLimbs_length (b n v : Nat) : (splitLimbs b n v).length = n := by simp [splitLimbs]

theorem splitLimbs_succ (b n v : Nat) :
    splitLimbs b (n + 1) v = (List.range n).map (fun i => v / 2 ^ (b * i) % 2 ^ b) ++ [v / 2 ^ (b * n)] := by
  rw [splitLimbs, List.range_succ, List.map_append, List.map_singleton, if_neg (Nat.lt_irrefl _)]
  congr 1
  exact List.map_congr_left fun i hi => if_pos (Nat.succ_lt_succ (List.mem_range.1 hi))

/-- 44_limb_engine.md R211: no bit of the block is dropped. -/
theorem limbValue_splitLimbs (b : Nat) {n : Nat} (hn : n ≠ 0) (v : Nat) : limbValue b (splitLimbs b n v) = v := by
  obtain ⟨n, rfl⟩ := Nat.exists_eq_succ_of_ne_zero hn
  rw [splitLimbs_succ, limbValue_append, limbValue_digits]
  simpa [limbValue] using Nat.mod_add_div v (2 ^ (b * n))

theorem limbCount_ne_zero (var : Variant) : limbCount var ≠ 0 := by cases var <;> decide

/-- 44_limb_engine.md R211: ToLimbs answers a canonical vector of the variant with the block's residue. -/
theorem toLimbs_spec (var : Variant) (v : Nat) :
    CanonicalLimbs (limbBits var) (toLimbs var v) ∧ (toLimbs var v).length = limbCount var ∧
      limbValue (limbBits var) (toLimbs var v) % modulus var = v % modulus var := by
  have h := normalize_spec var (splitLimbs (limbBits var) (limbCount var) v) (splitLimbs_length ..)
  rwa [limbValue_splitLimbs _ (limbCount_ne_zero var)] at h

/-- The value of a canonical vector of a variant is below `2^K` (00_scope.md R13). -/
theorem limbValue_lt_valueBits {var : Variant} {x : List Nat} (hx : CanonicalLimbs (limbBits var) x)
    (hlen : x.length = limbCount var) : limbValue (limbBits var) x < 2 ^ valueBits var :=
  limbBits_mul_length hlen ▸ limbValue_lt hx

/-- 44_limb_engine.md R211: below `2^K` ToLimbs keeps the value itself. -/
theorem limbValue_toLimbs_of_lt {var : Variant} {v : Nat} (hv : v < 2 ^ valueBits var) :
    limbValue (limbBits var) (toLimbs var v) = v := by
  have e := limbValue_splitLimbs (limbBits var) (limbCount_ne_zero var) v
  rw [toLimbs_eq_normalize, normalize_value_of_lt var _ (splitLimbs_length ..) (e.symm ▸ hv), e]

theorem toLimbs_eq_limbs_of_lt {var : Variant} {v : Nat} (hv : v < 2 ^ valueBits var) : toLimbs var v = limbs var v := by
  obtain ⟨hcanon, hlen, -⟩ := toLimbs_spec var v
  refine canonical_ext hcanon (limbs_canonical var v) (hlen.trans (limbs_length var v).symm) ?_
  rw [limbValue_toLimbs_of_lt hv, limbValue_limbs, Nat.mod_eq_of_lt hv]

/-- Settles O36: canonical with the block's residue, as Normalize leaves every vector of the block's value; a canonical
vector is determined by its value, which gives the plain limbs. -/
theorem toLimbsKeepsTheResidue : Obligations.ToLimbsKeepsTheResidue := by
  intro var v
  obtain ⟨hcanon, hlen, hres⟩ := toLimbs_spec var v
  exact ⟨hlen, hcanon, limbValue_lt_valueBits hcanon hlen, hres,
    fun hv => ⟨limbValue_toLimbs_of_lt hv, toLimbs_eq_limbs_of_lt hv⟩⟩

end Sys2Proof.Claims
end

section
/-!
PROOFS. Width of the intermediates (44_limb_engine.md R214): bounds on the limbs of the two factors bound every term of
MulR, and each product sum has at least one term without the fold factor.
-/

namespace Sys2Proof.Claims

open Sys2Proof.Machine

/-- A bound on the limbs of a vector bounds the limb read at any index, past the end too. -/
theorem getD_zero_le {x : List Nat} {M : Nat} (h : ∀ l ∈ x, l ≤ M) (j : Nat) : x.getD j 0 ≤ M := by
  rw [List.getD_eq_getElem?_getD]
  cases e : x[j]? with
  | none => exact Nat.zero_le M
  | some l => exact h l (List.mem_of_getElem? e)

/-- 44_limb_engine.md R212: the sum of two canonical limbs needs one bit more. -/
theorem accumulate_le {b : Nat} {h t : List Nat} (hh : CanonicalLimbs b h) (ht : CanonicalLimbs b t) :
    ∀ a ∈ accumulate h t, a ≤ 2 ^ (b + 1) - 2 := by
  intro a ha
  obtain ⟨i, hi, rfl⟩ := List.mem_iff_getElem.1 ha
  simp only [accumulate, List.length_zipWith, Nat.lt_min] at hi
  have hhi : h[i] < 2 ^ b := hh _ (List.getElem_mem hi.1)
  have hti : t[i] < 2 ^ b := ht _ (List.getElem_mem hi.2)
  simp only [accumulate, List.getElem_zipWith, pow_succ]
  omega

/-! ### The product sums of bounded limbs -/

section
variable {a r : List Nat} {A R : Nat} (ha : ∀ l ∈ a, l ≤ A) (hr : ∀ l ∈ r, l ≤ R)
include ha hr

theorem mulTerm_zero_le (N i : Nat) : mulTerm N a r i 0 ≤ A * R := by
  rw [mulTerm, if_pos (Nat.zero_le i)]
  exact Nat.mul_le_mul (getD_zero_le ha _) (getD_zero_le hr _)

theorem mulTerm_le (N i j : Nat) : mulTerm N a r i j ≤ foldFactor * (A * R) := by
  unfold mulTerm
  split
  · calc a.getD j 0 * r.getD (i - j) 0
        ≤ A * R := Nat.mul_le_mul (getD_zero_le ha _) (getD_zero_le hr _)
      _ ≤ foldFactor * (A * R) := Nat.le_mul_of_pos_left _ (by decide)
  · calc a.getD j 0 * (foldFactor * r.getD (i + N - j) 0)
        ≤ A * (foldFactor * R) :=
          Nat.mul_le_mul (getD_zero_le ha _) (Nat.mul_le_mul_left _ (getD_zero_le hr _))
      _ = foldFactor * (A * R) := Nat.mul_left_comm ..

/-- 44_limb_engine.md R214: the term of limb 0 of the accumulator is never scaled, each of the others at most by the fold
factor. -/
theorem mulR_le {N : Nat} (hN : N ≠ 0) : ∀ d ∈ mulR N a r, d ≤ (1 + (N - 1) * foldFactor) * (A * R) := by
  intro d hd
  obtain ⟨n, rfl⟩ := Nat.exists_eq_succ_of_ne_zero hN
  simp only [mulR, List.mem_map] at hd
  obtain ⟨i, -, rfl⟩ := hd
  rw [List.range_succ_eq_map, List.map_cons, List.sum_cons, List.map_map]
  have hrest := List.sum_le_card_nsmul ((List.range n).map (mulTerm (n + 1) a r i ∘ Nat.succ)) (foldFactor * (A * R))
    (by simpa using fun j _ => mulTerm_le ha hr (n + 1) i (j + 1))
  calc mulTerm (n + 1) a r i 0 + ((List.range n).map (mulTerm (n + 1) a r i ∘ Nat.succ)).sum
      ≤ A * R + n * (foldFactor * (A * R)) := Nat.add_le_add (mulTerm_zero_le ha hr _ _) (by simpa using hrest)
    _ = (1 + (n + 1 - 1) * foldFactor) * (A * R) := by rw [Nat.add_sub_cancel]; ring

end

/-- The stated bound on the product sums of a variant (44_limb_engine.md R214). -/
def productSumBound (var : Variant) : Nat :=
  (1 + (limbCount var - 1) * 5) * (2 ^ (limbBits var + 1) - 2) * (2 ^ limbBits var - 1)

theorem productSumBound_lt (var : Variant) : productSumBound var < 2 ^ 64 := by cases var <;> decide

theorem productSumBound_v130_lt : productSumBound .v130 < 2 ^ 58 := by decide

theorem mulR_accumulate_le {var : Variant} {h t r : List Nat} (hh : CanonicalLimbs (limbBits var) h)
    (ht : CanonicalLimbs (limbBits var) t) (hr : CanonicalLimbs (limbBits var) r) :
    ∀ d ∈ mulR (limbCount var) (accumulate h t) r, d ≤ productSumBound var := by
  intro d hd
  rw [productSumBound, Nat.mul_assoc]
  exact mulR_le (accumulate_le hh ht) (fun l hl => Nat.le_sub_one_of_lt (hr l hl)) (limbCount_ne_zero var) d hd

/-- Settles O37: the bound holds limb by limb, and the numbers of the two variants keep it below 64 and 58 bits. -/
theorem productSumsFitSixtyFourBits : Obligations.ProductSumsFitSixtyFourBits := by
  intro var h t r _ _ _ hh ht hr d hd
  have hle := mulR_accumulate_le hh ht hr d hd
  refine ⟨hle, hle.trans_lt (productSumBound_lt var), ?_⟩
  rintro rfl
  exact hle.trans_lt productSumBound_v130_lt

end Sys2Proof.Claims
end

section
/-!
PROOFS. FinalReduce (45_modular_reducer.md R234, R235): adding 5 to a canonical vector carries out of the top limb exactly
when its value is at least P, and then leaves the value less P.
-/

namespace Sys2Proof.Claims

open Sys2Proof.Machine

/-- 45_modular_reducer.md R235: FinalReduce holds the least residue mod P. -/
theorem limbValue_finalReduce {var : Variant} {h : List Nat} (hlen : h.length = limbCount var) :
    limbValue (limbBits var) (finalReduce (limbBits var) h) = limbValue (limbBits var) h % modulus var := by
  obtain ⟨hcanon, hxlen, hres⟩ := normalize_spec var h hlen
  have hx := limbValue_lt_valueBits hcanon hxlen
  have hg := limbValue_lt_valueBits (carryPass_canonical (limbBits var) foldFactor (normalize (limbBits var) h))
    ((carryPass_length ..).trans hxlen)
  have hexact := carryPass_value (limbBits var) foldFactor (normalize (limbBits var) h)
  rw [limbBits_mul_length hxlen] at hexact
  have hP := modulus_add_foldFactor var
  have h5 : foldFactor < modulus var := by cases var <;> decide
  rw [← hres, finalReduce]
  generalize 2 ^ valueBits var = K at *
  split
  · next hc =>
    -- the carry is 1: the value is in `[P, 2P)`, and the masked sum is the value less P
    rw [hc] at hexact
    rw [Nat.mod_eq_sub_mod (by omega), Nat.mod_eq_of_lt (by omega)]
    omega
  · next hc =>
    -- there is no carry: the value is below P already
    have hle : (carryPass (limbBits var) foldFactor (normalize (limbBits var) h)).2 < 2 :=
      Nat.lt_of_mul_lt_mul_right (a := K) (by omega)
    have hzero : (carryPass (limbBits var) foldFactor (normalize (limbBits var) h)).2 = 0 := by omega
    rw [hzero] at hexact
    exact (Nat.mod_eq_of_lt (by omega)).symm

theorem finalReduce_eq_limbs {var : Variant} {h : List Nat} (hlen : h.length = limbCount var) :
    finalReduce (limbBits var) h = limbs var (limbValue (limbBits var) h % modulus var) := by
  obtain ⟨hcanon, hrlen⟩ := finalReduce_canonical var h hlen
  have hval := limbValue_finalReduce hlen
  refine canonical_ext hcanon (limbs_canonical var _) (hrlen.trans (limbs_length ..).symm) ?_
  rw [limbValue_limbs, ← hval, Nat.mod_eq_of_lt (limbValue_lt_valueBits hcanon hrlen)]

end Sys2Proof.Claims
end

section
/-!
PROOFS. Two register forms: the limbs of a number in limb registers (10_state.md R35, R36), and a run of register words as
the little-endian number of its bytes (20_memory.md R76, R77).
-/

namespace Sys2Proof.Claims

open Sys2Proof.Machine

theorem limbBits_le (var : Variant) : limbBits var ≤ 32 := by cases var <;> decide

theorem limbs_getD (var : Variant) (v i : Nat) :
    (limbs var v).getD i 0 = if i < limbCount var then v / 2 ^ (limbBits var * i) % 2 ^ limbBits var else 0 := by
  split
  · next hi => simp [limbs, hi]
  · next hi => exact List.getD_eq_default _ _ ((limbs_length var v).trans_le (Nat.le_of_not_lt hi))

/-- 10_state.md R35: limb `i` in register `i`, and 0 in the registers above the variant's limbs. -/
theorem limbRegs_limbs_toNat (var : Variant) (v : Nat) (i : Fin 6) :
    (limbRegs (limbs var v))[i].toNat =
      if i.val < limbCount var then v / 2 ^ (limbBits var * i.val) % 2 ^ limbBits var else 0 := by
  rw [Fin.getElem_fin, limbRegs_getElem_toNat _ _ i.isLt, limbs_getD]
  refine Nat.mod_eq_of_lt ?_
  split
  · exact (Nat.mod_lt _ (Nat.two_pow_pos _)).trans_le (Nat.pow_le_pow_right (by decide) (limbBits_le var))
  · decide

theorem byteSlice_add {n : Nat} (ws : Vector Word n) (start k l : Nat) :
    byteSlice ws start (k + l) = byteSlice ws start k ++ byteSlice ws (start + k) l := by
  simp [byteSlice, List.range_add, Nat.add_assoc]

/-- 20_memory.md R77: LE32 of the four bytes of a register is the register. -/
theorem leInt_byteSlice_word {n : Nat} (ws : Vector Word n) (i : Nat) :
    leInt (byteSlice ws (4 * i) 4) = (ws.getD i 0).toNat := by
  have hbyte (j : Nat) (hj : j < 4) : (getByte ws (4 * i + j)).toNat = (ws.getD i 0).toNat / 2 ^ (8 * j) % 2 ^ 8 := by
    rw [getByte, show (4 * i + j) / 4 = i by omega, show (4 * i + j) % 4 = j by omega, extract_byte_toNat]
  have hslice : byteSlice ws (4 * i) 4 = [getByte ws (4 * i + 0), getByte ws (4 * i + 1), getByte ws (4 * i + 2),
      getByte ws (4 * i + 3)] := rfl
  have hw := (ws.getD i 0).isLt
  rw [hslice]
  simp only [leInt, hbyte 0 (by decide), hbyte 1 (by decide), hbyte 2 (by decide), hbyte 3 (by decide)]
  omega

/-- 46_mac.md R252: four registers in a row are the number of their 16 bytes. -/
theorem leInt_byteSlice_four_words {n : Nat} (ws : Vector Word n) (i : Nat) :
    leInt (byteSlice ws (4 * i) 16) = (ws.getD i 0).toNat + (ws.getD (i + 1) 0).toNat * 2 ^ 32
      + (ws.getD (i + 2) 0).toNat * 2 ^ 64 + (ws.getD (i + 3) 0).toNat * 2 ^ 96 := by
  have hsplit : byteSlice ws (4 * i) 16 = byteSlice ws (4 * i) 4 ++ byteSlice ws (4 * (i + 1)) 4
      ++ byteSlice ws (4 * (i + 2)) 4 ++ byteSlice ws (4 * (i + 3)) 4 := by
    simp only [Nat.mul_add, ← byteSlice_add]
  rw [hsplit]
  simp only [leInt_append, leInt_byteSlice_word, List.length_append, byteSlice_length]
  ring

end Sys2Proof.Claims
end

section
/-!
PROOFS. MACINIT (46_mac.md R250 to R253): the multiplier is below `2^128`, so its limbs are those of ToLimbs; the pad is
four registers of the key half.
-/

namespace Sys2Proof.Claims

open Sys2Proof.Machine

/-- The state with which MACINIT completes (46_mac.md R253). -/
def macinitState (sel var : Fin 4) (mod : Bool) (s : State) : State :=
  updateSelected sel (fun m _ => freshInstance (variantOfField var) mod s.key m) s

theorem macOf_macinitState (sel var : Fin 4) (mod : Bool) (s : State) (m : Fin 2) :
    macOf (macinitState sel var mod s) m =
      if selected sel m = true then freshInstance (variantOfField var) mod s.key m else macOf s m :=
  macOf_updateSelected ..

theorem exec_macinit {sel var : Fin 4} {mod : Bool} (h : (Instr.macinit sel var mod).wellFormed = true) (s : State) :
    exec (.macinit sel var mod) s = completes (macinitState sel var mod s) := by
  simp only [exec, execMacinit, macinitIllegal_eq, h, Bool.not_true, Bool.false_eq_true, if_false]
  rfl

/-- 46_mac.md R251: the mask has 128 bits, whatever its value. -/
theorem keyMultiplier_lt (var : Variant) (key : Vector Word 16) (m : Fin 2) : keyMultiplier var key m < 2 ^ 128 :=
  Nat.and_lt_two_pow _ (rClamp var).isLt

theorem keyMultiplier_lt_valueBits (var : Variant) (key : Vector Word 16) (m : Fin 2) :
    keyMultiplier var key m < 2 ^ valueBits var :=
  (keyMultiplier_lt var key m).trans_le (Nat.pow_le_pow_right (by decide) (by cases var <;> decide))

/-- 46_mac.md R251: R holds LIMBS of the masked key integer. -/
theorem freshInstance_r (var : Variant) (mod : Bool) (key : Vector Word 16) (m : Fin 2) :
    (freshInstance var mod key m).r = limbRegs (limbs var (keyMultiplier var key m)) := rfl

theorem freshInstance_pad_getElem (var : Variant) (mod : Bool) (key : Vector Word 16) (m : Fin 2) (i : Nat)
    (hi : i < 4) : (freshInstance var mod key m).pad[i] = key.getD (8 * m.val + 4 + i) 0 := by
  simp [freshInstance, padRegs]

theorem freshInstance_freshFrom (var : Variant) (mod : Bool) (key : Vector Word 16) (m : Fin 2) :
    FreshFrom (freshInstance var mod key m) var mod key m :=
  ⟨rfl, rfl, rfl, rfl, rfl, rfl, rfl,
    fun i => freshInstance_pad_getElem var mod key m i.val i.isLt,
    fun i => by rw [freshInstance_r, limbRegs_limbs_toNat]⟩

/-- 46_mac.md R251: no fold is needed below `2^K`. -/
theorem limbsOf_freshInstance_r (var : Variant) (mod : Bool) (key : Vector Word 16) (m : Fin 2) :
    limbsOf var (freshInstance var mod key m).r = toLimbs var (keyMultiplier var key m) := by
  rw [freshInstance_r, limbsOf_limbRegs _ _ (limbs_canonical var _) (limbs_length ..),
    toLimbs_eq_limbs_of_lt (keyMultiplier_lt_valueBits var key m)]

/-- 46_mac.md R252: V(PAD) holds the last 16 bytes of the key half. -/
theorem freshInstance_pad_value (var : Variant) (mod : Bool) (key : Vector Word 16) (m : Fin 2) :
    (freshInstance var mod key m).pad[0].toNat + (freshInstance var mod key m).pad[1].toNat * 2 ^ 32
      + (freshInstance var mod key m).pad[2].toNat * 2 ^ 64 + (freshInstance var mod key m).pad[3].toNat * 2 ^ 96
      = keyPad key m := by
  rw [keyPad, show 32 * m.val + 16 = 4 * (8 * m.val + 4) by ring, leInt_byteSlice_four_words]
  simp only [freshInstance_pad_getElem, Nat.add_zero]

/-- 46_mac.md R251: limb `i` of r holds the bits of r from `b*i` up to bit 127. -/
theorem freshInstance_r_lt (var : Variant) (mod : Bool) (key : Vector Word 16) (m : Fin 2) (i : Fin 6) {e : Nat}
    (he : 128 ≤ limbBits var * i.val + e) : (freshInstance var mod key m).r[i].toNat < 2 ^ e := by
  rw [freshInstance_r, limbRegs_limbs_toNat]
  split
  · refine (Nat.mod_le _ _).trans_lt (Nat.div_lt_of_lt_mul ?_)
    rw [← pow_add]
    exact (keyMultiplier_lt var key m).trans_le (Nat.pow_le_pow_right (by decide) he)
  · exact Nat.two_pow_pos e

/-- Settles O40: a selected slot becomes `freshInstance`, whose fields are read off one by one; another slot stays. -/
theorem macinitCreatesFreshInstances : Obligations.MacinitCreatesFreshInstances := by
  intro sel var mod s hsel hvar hmod
  have hwf : (Instr.macinit sel var mod).wellFormed = true := decide_eq_true ⟨hsel, hvar, hmod⟩
  refine ⟨(macinitState sel var mod s).mac0, (macinitState sel var mod s).mac1, exec_macinit hwf s, fun m => ?_⟩
  rw [← macOf, macOf_macinitState]
  refine ⟨fun h => ?_, fun h => by simp [h]⟩
  rw [if_pos h]
  refine ⟨freshInstance_freshFrom _ mod s.key m, limbsOf_freshInstance_r _ mod s.key m,
    freshInstance_pad_value _ mod s.key m, ?_, ?_⟩
  · rintro rfl
    exact freshInstance_r_lt .v130 mod s.key m 4 (by decide)
  · rintro rfl
    have h5 := freshInstance_r_lt .v179 mod s.key m 5 (e := 0) (by decide)
    exact ⟨freshInstance_r_lt .v179 mod s.key m 4 (by decide), BitVec.eq_of_toNat_eq (Nat.lt_one_iff.1 h5)⟩

end Sys2Proof.Claims
end

section
/-!
PROOFS. MACFINAL (46_mac.md R257 to R265): its checks pass on Active instances, Finalize leaves the limbs of the least
residue, and its tag is the one that the rules compute from that residue.
-/

namespace Sys2Proof.Claims

open Sys2Proof.Machine

/-! ### The checks and the outcome -/

theorem someUnconfigured_of_active {sel : Fin 4} {s : State} (h : SelectedActive sel s) :
    someUnconfigured sel s = false := by
  rw [Bool.eq_false_iff, someUnconfigured, Ne, someSelected_iff]
  rintro ⟨m, hm, hp⟩
  simp [(h m hm).1] at hp

theorem someFinalized_of_active {sel : Fin 4} {s : State} (h : SelectedActive sel s) : someFinalized sel s = false := by
  rw [Bool.eq_false_iff, someFinalized, Ne, someSelected_iff]
  rintro ⟨m, hm, hp⟩
  simp [(h m hm).2] at hp

theorem dualMismatch_of_like {sel : Fin 4} {s : State}
    (h : sel = 3 → ∀ m : Fin 2, (macOf s m).var = .v130 ∧ (macOf s m).mod = false) : dualMismatch sel s = false := by
  by_cases h3 : sel = 3
  · obtain ⟨hvar0, hmod0⟩ := h h3 0
    obtain ⟨hvar1, hmod1⟩ := h h3 1
    rw [macOf_zero] at hvar0 hmod0
    rw [macOf_one] at hvar1 hmod1
    simp [dualMismatch, hvar0, hmod0, hvar1, hmod1]
  · simp [dualMismatch, h3]

/-- The state with which MACFINAL completes (46_mac.md R264). -/
def macfinalState (sel : Fin 4) (s : State) : State :=
  updateSelected sel (fun _ I => finalized I) { s with tag := placeTag sel (tagOf s.mac0) (tagOf s.mac1) }

theorem macOf_macfinalState (sel : Fin 4) (s : State) (m : Fin 2) :
    macOf (macfinalState sel s) m = if selected sel m = true then finalized (macOf s m) else macOf s m :=
  macOf_updateSelected ..

theorem macfinalState_tag (sel : Fin 4) (s : State) :
    (macfinalState sel s).tag = placeTag sel (tagOf s.mac0) (tagOf s.mac1) := rfl

theorem exec_macfinal {sel : Fin 4} {s : State} (hsel : sel ≠ 0) (hact : SelectedActive sel s)
    (hlike : sel = 3 → ∀ m : Fin 2, (macOf s m).var = .v130 ∧ (macOf s m).mod = false) :
    exec (.macfinal sel) s = completes (macfinalState sel s) := by
  simp only [exec, execMacfinal, macfinalIllegal, hsel, someUnconfigured_of_active hact, someFinalized_of_active hact,
    dualMismatch_of_like hlike, decide_false, Bool.false_eq_true, if_false]
  rfl

/-! ### The reduced accumulator -/

/-- 46_mac.md R257: the limbs that Finalize reduces. -/
theorem limbsOf_paddedH (I : MacInst) :
    limbsOf I.var (paddedH I) =
      if I.count = 0 then limbsOf I.var I.h
      else process I.var (limbsOf I.var I.h) (limbsOf I.var I.r)
        (leInt (byteSlice I.buf 0 I.count.toNat) + 2 ^ (8 * I.count.toNat)) := by
  unfold paddedH
  split
  · rfl
  · exact limbsOf_processedH ..

/-- 46_mac.md R259: f is the limb vector of the least residue. -/
theorem finalLimbs_eq_limbs (I : MacInst) : finalLimbs I = limbs I.var (finalValue I) := by
  rw [finalLimbs, finalReduce_eq_limbs (limbsOf_length ..), limbsOf_paddedH, finalValue]

theorem limbValue_finalLimbs (I : MacInst) : limbValue (limbBits I.var) (finalLimbs I) = finalValue I := by
  rw [finalLimbs, limbValue_finalReduce (limbsOf_length ..), limbsOf_paddedH, finalValue]

/-! ### The tag -/

theorem bumpFirst_eq {T : List Byte} (h : T ≠ []) : bumpFirst T = [T.getD 0 0 + 1] ++ T.drop 1 := by
  cases T with
  | nil => exact absurd rfl h
  | cons x T => rfl

theorem addPad_ne_nil (pad : Nat) (T : List Byte) : addPad pad T ≠ [] := by
  rw [addPad, bytesLE_succ]
  exact nofun

/-- 46_mac.md R258, R260 to R262. -/
theorem tagOf_eq_instanceTag (I : MacInst) : tagOf I = instanceTag I := by
  rw [tagOf, instanceTag, finishTag, limbValue_finalLimbs, bumpFirst_eq (addPad_ne_nil _ _)]
  rfl

/-- 46_mac.md R265: past its own length a tag reads 0. -/
theorem instanceTag_getD (I : MacInst) (k : Nat) : (instanceTag I).getD k 0 = singleTagByte I k := by
  have hpast (h : tagBytes I.var ≤ k) : (instanceTag I).getD k 0 = 0 :=
    List.getD_eq_default _ _ (by rw [← tagOf_eq_instanceTag, tagOf_length]; exact h)
  unfold singleTagByte
  split
  · rfl
  split
  · rfl
  · next h16 h24 =>
    apply hpast
    cases hv : I.var with
    | v130 => exact Nat.le_of_not_lt h16
    | v179 => exact Nat.le_of_not_lt fun h => h24 ⟨h, hv⟩

/-- Settles O44: a selected slot becomes `finalized`, whose H is the limbs of the least residue; TAG is what Place
makes of the two tags. -/
theorem macfinalWritesTheTag : Obligations.MacfinalWritesTheTag := by
  intro sel s hsel hact hlike
  refine ⟨(macfinalState sel s).mac0, (macfinalState sel s).mac1, (macfinalState sel s).tag,
    exec_macfinal hsel hact hlike, fun m => ?_, fun k hk => ?_⟩
  · rw [← macOf, macOf_macfinalState]
    refine ⟨fun h => ?_, fun h => by simp [h]⟩
    rw [if_pos h]
    refine ⟨limbRegs (finalLimbs (macOf s m)), rfl, fun i => ?_⟩
    rw [finalLimbs_eq_limbs, limbRegs_limbs_toNat]
  · rw [macfinalState_tag, getByte_placeTag _ _ _ _ hk]
    simp only [tagOf_eq_instanceTag, instanceTag_getD]

end Sys2Proof.Claims
end

section
/-!
PROOFS. The checks of MACFINAL and MACWRITE in their order (46_mac.md R256, R264; 47_dual_mac.md R293): which of them a
state meets, and how the command then ends.
-/

namespace Sys2Proof.Claims

open Sys2Proof.Machine

/-! ### The checks of SEL = 3 -/

theorem selected_three (m : Fin 2) : selected 3 m = true := by
  revert m; decide

theorem someUnconfigured_three (s : State) :
    someUnconfigured 3 s = true ↔ s.mac0.configured = false ∨ s.mac1.configured = false := by
  rw [someUnconfigured, someSelected_iff, Fin.exists_fin_two]
  simp [selected_three]

theorem someFinalized_three (s : State) :
    someFinalized 3 s = true ↔ s.mac0.finalized = true ∨ s.mac1.finalized = true := by
  rw [someFinalized, someSelected_iff, Fin.exists_fin_two]
  simp [selected_three]

theorem dualMismatch_of_unlike {s : State} (h : ∃ m : Fin 2, (macOf s m).var ≠ .v130 ∨ (macOf s m).mod = true) :
    dualMismatch 3 s = true := by
  rw [Fin.exists_fin_two, macOf_zero, macOf_one] at h
  simp only [dualMismatch, decide_true, Bool.true_and, Bool.not_eq_true', Bool.and_eq_false_iff, decide_eq_false_iff_not,
    Bool.not_eq_false']
  tauto

/-! ### How the two commands end -/

theorem exec_macfinal_of_unconfigured {sel : Fin 4} {s : State} (hsel : sel ≠ 0) (h : someUnconfigured sel s = true) :
    exec (.macfinal sel) s = fails .notConfigured (encode (.macfinal sel)) s := by
  simp only [exec, execMacfinal, macfinalIllegal, hsel, h, decide_false, Bool.false_eq_true, if_false, if_true]
  rfl

theorem exec_macfinal_of_finalized {sel : Fin 4} {s : State} (hsel : sel ≠ 0) (hconf : someUnconfigured sel s = false)
    (h : someFinalized sel s = true) :
    exec (.macfinal sel) s = fails .useAfterFinalize (encode (.macfinal sel)) s := by
  simp only [exec, execMacfinal, macfinalIllegal, hsel, hconf, h, decide_false, Bool.false_eq_true, if_false, if_true]
  rfl

theorem exec_macfinal_of_dualMismatch {sel : Fin 4} {s : State} (hsel : sel ≠ 0) (hact : SelectedActive sel s)
    (h : dualMismatch sel s = true) :
    exec (.macfinal sel) s = fails .dualMismatch (encode (.macfinal sel)) s := by
  simp only [exec, execMacfinal, macfinalIllegal, hsel, someUnconfigured_of_active hact, someFinalized_of_active hact, h,
    decide_false, Bool.false_eq_true, if_false, if_true]
  rfl

/-- The state with which MACWRITE completes (46_mac.md R256). -/
def macwriteState (sel : Fin 4) (n : Fin 128) (s : State) : State :=
  updateSelected sel (fun _ I => absorb I (byteSlice s.dbuf 0 n.val)) s

theorem macOf_macwriteState (sel : Fin 4) (n : Fin 128) (s : State) (m : Fin 2) :
    macOf (macwriteState sel n s) m =
      if selected sel m = true then absorb (macOf s m) (byteSlice s.dbuf 0 n.val) else macOf s m :=
  macOf_updateSelected ..

theorem exec_macwrite {sel : Fin 4} {n : Fin 128} {s : State} (h : (Instr.macwrite sel n).wellFormed = true)
    (hact : SelectedActive sel s) : exec (.macwrite sel n) s = completes (macwriteState sel n s) := by
  simp only [exec, execMacwrite, macwriteIllegal_eq, h, someUnconfigured_of_active hact, someFinalized_of_active hact,
    Bool.not_true, Bool.false_eq_true, if_false]
  rfl

/-! ### TAG of SEL = 3 -/

/-- 46_mac.md R265: with SEL = 3 two V130 tags fill TAG, one after the other. -/
theorem placeTag_three_bytes {T0 T1 : List Byte} (h0 : T0.length = 16) (h1 : T1.length = 16) :
    (List.range 32).map (getByte (placeTag 3 T0 T1)) = T0 ++ T1 := by
  refine List.ext_getElem (by simp [h0, h1]) fun k hk hk' => ?_
  have hk32 : k < 32 := by simpa using hk
  rw [List.getElem_map, List.getElem_range, getByte_placeTag _ _ _ _ hk32, if_neg (by decide), if_neg (by decide)]
  split
  · next hlt => rw [List.getElem_append_left (by omega), List.getD_eq_getElem]
  · next hge =>
    rw [List.getElem_append_right (by omega), List.getD_eq_getElem _ _ (by omega)]
    simp only [h0]

theorem instanceTag_length (I : MacInst) : (instanceTag I).length = tagBytes I.var := by
  rw [← tagOf_eq_instanceTag, tagOf_length]

theorem macfinalState_three_tagBytes {s : State} (h : ∀ m : Fin 2, (macOf s m).var = .v130) :
    (List.range 32).map (getByte (macfinalState 3 s).tag) = instanceTag s.mac0 ++ instanceTag s.mac1 := by
  have hlen (m : Fin 2) : (instanceTag (macOf s m)).length = 16 := by rw [instanceTag_length, h m]; rfl
  rw [macfinalState_tag, tagOf_eq_instanceTag, tagOf_eq_instanceTag]
  exact placeTag_three_bytes (hlen 0) (hlen 1)

/-- Settles O45: each clause is one outcome of a MAC command, with the checks before it passed. -/
theorem dualFinalNeedsLikeInstances : Obligations.DualFinalNeedsLikeInstances := by
  intro s
  refine ⟨fun h => ?unconfigured, fun h0 h1 h => ?finalized, fun hact h => ?unlike, fun hact h => ?completes,
    fun var mod hvar hmod => ?macinit, fun hact n hn => ?macwrite, fun sel hsel hact => ?single⟩
  case unconfigured => exact exec_macfinal_of_unconfigured (by decide) ((someUnconfigured_three s).2 h)
  case finalized =>
    have hconf : someUnconfigured 3 s = false := by simp [Bool.eq_false_iff, someUnconfigured_three, h0, h1]
    exact exec_macfinal_of_finalized (by decide) hconf ((someFinalized_three s).2 h)
  case unlike => exact exec_macfinal_of_dualMismatch (by decide) hact (dualMismatch_of_unlike h)
  case completes =>
    exact ⟨_, exec_macfinal (by decide) hact fun _ => h, rfl, rfl, rfl,
      macfinalState_three_tagBytes fun m => (h m).1⟩
  case macinit =>
    exact ⟨_, exec_macinit (decide_eq_true ⟨by decide, hvar, hmod⟩) s, rfl⟩
  case macwrite => exact ⟨_, exec_macwrite (decide_eq_true ⟨by decide, hn⟩) hact, rfl⟩
  case single =>
    obtain ⟨h0, h3⟩ : sel ≠ 0 ∧ sel ≠ 3 := by rcases hsel with rfl | rfl <;> decide
    exact ⟨_, exec_macfinal h0 hact fun h => absurd h h3, rfl⟩

end Sys2Proof.Claims
end

section
/-!
PROOFS. The value law of the engine's step (44_limb_engine.md R213, R216): MulR is the product of two sums of limbs with
`2^K` folded to 5, so mod P its value is the product of the values.
-/

namespace Sys2Proof.Claims

open Sys2Proof.Machine

theorem limbValue_cast_eq_sum {R : Type} [CommSemiring R] (b : Nat) (x : List Nat) :
    (limbValue b x : R) = ∑ i ∈ Finset.range x.length, (2 ^ b) ^ i * (x.getD i 0 : R) := by
  induction x with
  | nil => simp [limbValue]
  | cons l x ih =>
    rw [List.length_cons, Finset.sum_range_succ', limbValue, Nat.cast_add, Nat.cast_mul, ih, Finset.mul_sum, add_comm]
    congr 1
    · refine Finset.sum_congr rfl fun i _ => ?_
      rw [List.getD_cons_succ]
      push_cast
      ring
    · simp

theorem limbValue_accumulate (b : Nat) {h t : List Nat} (hlen : h.length = t.length) :
    limbValue b (accumulate h t) = limbValue b h + limbValue b t := by
  induction h generalizing t with
  | nil =>
    obtain rfl := List.length_eq_zero_iff.1 hlen.symm
    rfl
  | cons l h ih =>
    cases t with
    | nil => cases hlen
    | cons m t =>
      have hrec : limbValue b (List.zipWith (· + ·) h t) = _ := ih (Nat.succ.inj hlen)
      simp only [accumulate, List.zipWith_cons_cons, limbValue, hrec]
      ring

/-- In a ring where `w^N = c`, shifting the coefficients up by `j` places, with a factor `c` for each that wraps round,
multiplies the sum by `w^j`. -/
theorem sum_shift_wrapped {R : Type} [CommSemiring R] {w c : R} {N j : Nat} (hw : w ^ N = c) (hj : j ≤ N) (f : Nat → R) :
    ∑ i ∈ Finset.range N, w ^ i * (if j ≤ i then f (i - j) else c * f (i + N - j)) =
      w ^ j * ∑ k ∈ Finset.range N, w ^ k * f k := by
  obtain ⟨m, rfl⟩ := Nat.exists_eq_add_of_le hj
  have hwrapped : ∑ i ∈ Finset.range j, w ^ i * (if j ≤ i then f (i - j) else c * f (i + (j + m) - j)) =
      w ^ j * ∑ i ∈ Finset.range j, w ^ (m + i) * f (m + i) := by
    rw [Finset.mul_sum]
    refine Finset.sum_congr rfl fun i hi => ?_
    rw [if_neg (Nat.not_le.2 (Finset.mem_range.1 hi)), show i + (j + m) - j = m + i by omega, ← hw]
    ring
  have hshifted : ∑ i ∈ Finset.range m, w ^ (j + i) * (if j ≤ j + i then f (j + i - j) else c * f (j + i + (j + m) - j)) =
      w ^ j * ∑ i ∈ Finset.range m, w ^ i * f i := by
    rw [Finset.mul_sum]
    refine Finset.sum_congr rfl fun i _ => ?_
    rw [if_pos (Nat.le_add_right j i), Nat.add_sub_cancel_left]
    ring
  rw [Finset.sum_range_add, hwrapped, hshifted, Nat.add_comm j m, Finset.sum_range_add]
  ring

theorem mulR_getD (N : Nat) (a r : List Nat) {i : Nat} (hi : i < N) :
    (mulR N a r).getD i 0 = ∑ j ∈ Finset.range N, mulTerm N a r i j := by
  have hrow : (mulR N a r).getD i 0 = ((List.range N).map (mulTerm N a r i)).sum := by simp [mulR, hi]
  exact hrow

theorem mulTerm_eq (N : Nat) (a r : List Nat) (i j : Nat) :
    mulTerm N a r i j = a.getD j 0 * (if j ≤ i then r.getD (i - j) 0 else foldFactor * r.getD (i + N - j) 0) := by
  rw [mulTerm, mul_ite]

/-- 44_limb_engine.md R213: the product sums of MulR are those of the product of the two vectors, with `w^N` folded. -/
theorem sum_mulR_eq_mul {R : Type} [CommSemiring R] {w : R} {N : Nat} (hw : w ^ N = foldFactor) (a r : List Nat) :
    ∑ i ∈ Finset.range N, w ^ i * ((mulR N a r).getD i 0 : R) =
      (∑ j ∈ Finset.range N, w ^ j * (a.getD j 0 : R)) * ∑ k ∈ Finset.range N, w ^ k * (r.getD k 0 : R) := by
  have hcolumn (j : Nat) (hj : j ∈ Finset.range N) :=
    sum_shift_wrapped hw (Finset.mem_range.1 hj).le fun k => (r.getD k 0 : R)
  calc ∑ i ∈ Finset.range N, w ^ i * ((mulR N a r).getD i 0 : R)
    _ = ∑ i ∈ Finset.range N, ∑ j ∈ Finset.range N, (a.getD j 0 : R) *
          (w ^ i * (if j ≤ i then (r.getD (i - j) 0 : R) else foldFactor * (r.getD (i + N - j) 0 : R))) := by
        refine Finset.sum_congr rfl fun i hi => ?_
        rw [mulR_getD _ _ _ (Finset.mem_range.1 hi), Nat.cast_sum, Finset.mul_sum]
        refine Finset.sum_congr rfl fun j _ => ?_
        rw [mulTerm_eq]
        push_cast
        ring
    _ = ∑ j ∈ Finset.range N, w ^ j * (a.getD j 0 : R) * ∑ k ∈ Finset.range N, w ^ k * (r.getD k 0 : R) := by
        rw [Finset.sum_comm]
        refine Finset.sum_congr rfl fun j hj => ?_
        rw [← Finset.mul_sum, hcolumn j hj]
        ring
    _ = _ := (Finset.sum_mul ..).symm

/-- 45_modular_reducer.md R230: `2^K` folds to 5 mod P. -/
theorem two_pow_limbBits_pow_limbCount (var : Variant) :
    ((2 : ZMod (modulus var)) ^ limbBits var) ^ limbCount var = foldFactor := by
  have hK : ((2 ^ valueBits var : Nat) : ZMod (modulus var)) = foldFactor := by
    rw [← modulus_add_foldFactor, Nat.cast_add, ZMod.natCast_self, zero_add]
  rw [← pow_mul, Nat.mul_comm, ← valueBits, ← hK, Nat.cast_pow, Nat.cast_ofNat]

theorem limbValue_mulR {var : Variant} {a r : List Nat} (ha : a.length = limbCount var) (hr : r.length = limbCount var) :
    limbValue (limbBits var) (mulR (limbCount var) a r) ≡
      limbValue (limbBits var) a * limbValue (limbBits var) r [MOD modulus var] := by
  rw [← ZMod.natCast_eq_natCast_iff, Nat.cast_mul]
  simp only [limbValue_cast_eq_sum, mulR_length, ha, hr]
  exact sum_mulR_eq_mul (two_pow_limbBits_pow_limbCount var) a r

/-- 44_limb_engine.md section 3: the step of the engine multiplies mod P. -/
theorem limbValue_process {var : Variant} {h r : List Nat} (v : Nat) (hh : h.length = limbCount var)
    (hr : r.length = limbCount var) :
    limbValue (limbBits var) (process var h r v) ≡
      (limbValue (limbBits var) h + v) * limbValue (limbBits var) r [MOD modulus var] := by
  obtain ⟨-, htlen, htv⟩ := toLimbs_spec var v
  have hsum : (accumulate h (toLimbs var v)).length = limbCount var := by simp [accumulate, hh, htlen]
  have hnorm := (normalize_spec var (mulR (limbCount var) (accumulate h (toLimbs var v)) r) (mulR_length ..)).2.2
  refine (show _ ≡ _ [MOD modulus var] from hnorm).trans ((limbValue_mulR hsum hr).trans ?_)
  rw [limbValue_accumulate _ (hh.trans htlen.symm)]
  exact ((show _ ≡ _ [MOD modulus var] from htv).add_left _).mul_right _

end Sys2Proof.Claims
end

section
/-!
PROOFS. The value law of one MAC slot (46_mac.md R254 to R266): after the bytes of a message its registers hold the
value of the full blocks and the bytes of the last, partial one, so its tag is the tag of the message.
-/

namespace Sys2Proof.Claims

open Sys2Proof.Machine

/-! ### The blocks of a message -/

theorem blockBytes_pos (var : Variant) : 0 < blockBytes var := by cases var <;> decide

/-- The bytes of `M` past its full blocks (46_mac.md R257). -/
def partialBlock (var : Variant) (M : List Byte) : List Byte := M.drop (blockBytes var * (M.length / blockBytes var))

theorem partialBlock_length (var : Variant) (M : List Byte) :
    (partialBlock var M).length = M.length % blockBytes var := by
  rw [partialBlock, List.length_drop, Nat.mod_eq_sub_mul_div]

/-- The full blocks of a message do not change when bytes follow it. -/
theorem valueAfter_append (var : Variant) (r : Nat) (M L : List Byte) (i : Nat) (hi : blockBytes var * i ≤ M.length) :
    valueAfter var r (M ++ L) i = valueAfter var r M i := by
  induction i with
  | zero => rfl
  | succ i ih =>
    rw [Nat.mul_succ] at hi
    have hblock : ((M ++ L).drop (blockBytes var * i)).take (blockBytes var) =
        (M.drop (blockBytes var * i)).take (blockBytes var) := by
      rw [List.drop_append_of_le_length (by omega), List.take_append_of_le_length (by rw [List.length_drop]; omega)]
    rw [valueAfter, valueAfter, ih (by omega), hblock]

/-- The value of the full blocks of `M` (46_mac.md R266). -/
def blocksValue (var : Variant) (r : Nat) (M : List Byte) : Nat := valueAfter var r M (M.length / blockBytes var)

theorem blocksValue_lt (var : Variant) (r : Nat) (M : List Byte) : blocksValue var r M < modulus var := by
  have hpos : 0 < modulus var := by cases var <;> decide
  unfold blocksValue
  cases M.length / blockBytes var with
  | zero => exact hpos
  | succ i => exact Nat.mod_lt _ hpos

section
variable {var : Variant} {M : List Byte} {x : Byte}

theorem length_div_append_partial (h : M.length % blockBytes var + 1 ≠ blockBytes var) :
    (M ++ [x]).length / blockBytes var = M.length / blockBytes var := by
  rw [List.length_append, List.length_singleton]
  cases var <;> simp only [blockBytes] at h ⊢ <;> omega

theorem length_div_append_full (h : M.length % blockBytes var + 1 = blockBytes var) :
    (M ++ [x]).length / blockBytes var = M.length / blockBytes var + 1 := by
  rw [List.length_append, List.length_singleton]
  cases var <;> simp only [blockBytes] at h ⊢ <;> omega

theorem partialBlock_append_partial (h : M.length % blockBytes var + 1 ≠ blockBytes var) :
    partialBlock var (M ++ [x]) = partialBlock var M ++ [x] := by
  rw [partialBlock, length_div_append_partial h, List.drop_append_of_le_length (Nat.mul_div_le ..), partialBlock]

theorem partialBlock_append_full (h : M.length % blockBytes var + 1 = blockBytes var) :
    partialBlock var (M ++ [x]) = [] := by
  refine List.length_eq_zero_iff.1 ?_
  rw [partialBlock_length, List.length_append, List.length_singleton]
  cases var <;> simp only [blockBytes] at h ⊢ <;> omega

theorem blocksValue_append_partial (r : Nat) (h : M.length % blockBytes var + 1 ≠ blockBytes var) :
    blocksValue var r (M ++ [x]) = blocksValue var r M := by
  rw [blocksValue, length_div_append_partial h, valueAfter_append _ _ _ _ _ (Nat.mul_div_le ..), blocksValue]

theorem blocksValue_append_full (r : Nat) (h : M.length % blockBytes var + 1 = blockBytes var) :
    blocksValue var r (M ++ [x]) =
      (blocksValue var r M + leInt (partialBlock var M ++ [x])) * r % modulus var := by
  have hlen : (partialBlock var M ++ [x]).length = blockBytes var := by
    rw [List.length_append, partialBlock_length, List.length_singleton, h]
  rw [blocksValue, length_div_append_full h, valueAfter, valueAfter_append _ _ _ _ _ (Nat.mul_div_le ..),
    List.drop_append_of_le_length (Nat.mul_div_le ..), ← partialBlock, List.take_of_length_le hlen.le, blocksValue]

end

/-! ### What a slot holds of a message -/

/-- The slot has absorbed the bytes of `M` and no others since its MACINIT (46_mac.md R254). -/
structure HoldsMessage (I : MacInst) (M : List Byte) : Prop where
  count : I.count.toNat = (partialBlock I.var M).length
  buf : byteSlice I.buf 0 I.count.toNat = partialBlock I.var M
  h : limbValue (limbBits I.var) (limbsOf I.var I.h) ≡
    blocksValue I.var (limbValue (limbBits I.var) (limbsOf I.var I.r)) M [MOD modulus I.var]

theorem byteSlice_setByte_last {n : Nat} (ws : Vector Word n) {k : Nat} (hk : k < 4 * n) (x : Byte) :
    byteSlice (setByte ws k x) 0 (k + 1) = byteSlice ws 0 k ++ [x] := by
  have hlast : byteSlice (setByte ws k x) (0 + k) 1 = [x] := by
    simp [byteSlice, getByte_setByte ws k k x hk]
  have hbelow : byteSlice (setByte ws k x) 0 k = byteSlice ws 0 k := by
    refine List.map_congr_left fun j hj => ?_
    have hjk : j < k := List.mem_range.1 hj
    rw [Nat.zero_add, getByte_setByte ws k j x (by omega), if_neg hjk.ne]
  rw [byteSlice_add, hlast, hbelow]

theorem holdsMessage_absorbByte {I : MacInst} {M : List Byte} (hI : HoldsMessage I M) (x : Byte) :
    HoldsMessage (absorbByte I x) (M ++ [x]) := by
  obtain ⟨hcount, hbuf, hh⟩ := hI
  have hmod : I.count.toNat = M.length % blockBytes I.var := hcount.trans (partialBlock_length ..)
  have hlt : I.count.toNat < blockBytes I.var := hmod.trans_lt (Nat.mod_lt _ (blockBytes_pos I.var))
  have h24 : blockBytes I.var ≤ 24 := by cases I.var <;> decide
  have hslice := byteSlice_setByte_last I.buf (hlt.trans_le h24) x
  rw [hbuf] at hslice
  by_cases hfull : I.count.toNat + 1 = blockBytes I.var
  · have hM : M.length % blockBytes I.var + 1 = blockBytes I.var := by rw [← hmod, hfull]
    rw [absorbByte_full x hfull, ← hfull, hslice]
    refine ⟨?_, ?_, ?_⟩ <;> dsimp only
    · rw [partialBlock_append_full hM]; rfl
    · rw [partialBlock_append_full hM]; rfl
    · rw [limbsOf_processedH, blocksValue_append_full _ hM]
      refine (limbValue_process _ (limbsOf_length ..) (limbsOf_length ..)).trans ?_
      exact ((hh.add_right _).mul_right _).trans (Nat.mod_modEq _ _).symm
  · have hM : M.length % blockBytes I.var + 1 ≠ blockBytes I.var := by rwa [← hmod]
    have hsucc : (I.count + 1).toNat = I.count.toNat + 1 := count_succ_toNat (by omega)
    rw [absorbByte_partial x hfull]
    refine ⟨?_, ?_, ?_⟩ <;> dsimp only
    · rw [hsucc, hcount, partialBlock_append_partial hM, List.length_append, List.length_singleton]
    · rw [hsucc, hslice, partialBlock_append_partial hM]
    · rwa [blocksValue_append_partial _ hM]

theorem holdsMessage_absorb {I : MacInst} {M : List Byte} (hI : HoldsMessage I M) (L : List Byte) :
    HoldsMessage (absorb I L) (M ++ L) := by
  induction L generalizing I M with
  | nil => rwa [List.append_nil]
  | cons x L ih =>
    rw [absorb_cons, List.append_cons]
    exact ih (holdsMessage_absorbByte hI x)

theorem limbValue_limbsOf_zero (var : Variant) : limbValue (limbBits var) (limbsOf var (Vector.replicate 6 0)) = 0 := by
  cases var <;> decide

theorem freshInstance_holdsMessage (var : Variant) (mod : Bool) (key : Vector Word 16) (m : Fin 2) :
    HoldsMessage (freshInstance var mod key m) [] where
  count := by simp [freshInstance, partialBlock]
  buf := by simp [freshInstance, partialBlock, byteSlice]
  h := by
    rw [blocksValue, List.length_nil, Nat.zero_div, valueAfter]
    exact congrArg (· % modulus var) (limbValue_limbsOf_zero var)

/-- 46_mac.md R266: the reduced accumulator is the value of the message. -/
theorem finalValue_of_holdsMessage {I : MacInst} {M : List Byte} (hI : HoldsMessage I M) :
    finalValue I = macValue I.var (limbValue (limbBits I.var) (limbsOf I.var I.r)) M := by
  obtain ⟨hcount, hbuf, hh⟩ := hI
  have hmod : I.count.toNat = M.length % blockBytes I.var := hcount.trans (partialBlock_length ..)
  have hzero : I.count = 0 ↔ M.length % blockBytes I.var = 0 := by
    rw [← hmod]
    exact BitVec.toNat_inj.symm
  simp only [finalValue, macValue, hzero]
  split
  · exact Nat.mod_eq_of_modEq hh (blocksValue_lt ..)
  · rw [hbuf, hmod, Nat.add_assoc]
    exact (limbValue_process _ (limbsOf_length ..) (limbsOf_length ..)).trans ((hh.add_right _).mul_right _)

@[simp] theorem freshInstance_var (var : Variant) (mod : Bool) (key : Vector Word 16) (m : Fin 2) :
    (freshInstance var mod key m).var = var := rfl

@[simp] theorem freshInstance_mod (var : Variant) (mod : Bool) (key : Vector Word 16) (m : Fin 2) :
    (freshInstance var mod key m).mod = mod := rfl

theorem limbValue_freshInstance_r (var : Variant) (mod : Bool) (key : Vector Word 16) (m : Fin 2) :
    limbValue (limbBits var) (limbsOf var (freshInstance var mod key m).r) = keyMultiplier var key m := by
  rw [limbsOf_freshInstance_r, limbValue_toLimbs_of_lt (keyMultiplier_lt_valueBits var key m)]

theorem leInt_freshInstance_pad (var : Variant) (mod : Bool) (key : Vector Word 16) (m : Fin 2) :
    leInt (byteSlice (freshInstance var mod key m).pad 0 16) = keyPad key m := by
  rw [← freshInstance_pad_value var mod key m]
  exact leInt_byteSlice_four_words _ 0

/-- 46_mac.md R266: the tag of a slot is MAC of the bytes it has absorbed since its MACINIT. -/
theorem instanceTag_absorb_freshInstance (var : Variant) (mod : Bool) (key : Vector Word 16) (m : Fin 2)
    (M : List Byte) : instanceTag (absorb (freshInstance var mod key m) M) =
      macTag var mod (keyMultiplier var key m) (keyPad key m) M := by
  have hM := finalValue_of_holdsMessage (holdsMessage_absorb (freshInstance_holdsMessage var mod key m) M)
  rw [List.nil_append, absorb_r, absorb_var, freshInstance_var, limbValue_freshInstance_r] at hM
  rw [instanceTag, hM, absorb_var, absorb_mod, absorb_pad, freshInstance_var, freshInstance_mod, leInt_freshInstance_pad,
    macTag]

end Sys2Proof.Claims
end

section
/-!
PROOFS. Runs of the host (70_reset_and_hazards.md R348) as weakest preconditions: what must hold of a state so that the
accesses made from it, every command ending with OK, lead to a state with a given property; one rule an access.
-/

namespace Sys2Proof.Claims

open Sys2Proof.Machine

/-- The accesses `as`, made in order from `s`, end in a state with the property `Q`, every command of them with OK. -/
def Reaches (as : List Access) (Q : State → Prop) (s : State) : Prop :=
  EveryCommandOk as s ∧ ∃ t, runHost as s = .next t ∧ Q t

variable {as : List Access} {Q : State → Prop} {s u : State}

theorem everyCommandOk_setPending (p : List Access) :
    EveryCommandOk as { s with pending := p } ↔ EveryCommandOk as s := by
  cases as <;> exact Iff.rfl

theorem reaches_nil (h : Q { s with pending := [] }) : Reaches [] Q s := ⟨trivial, _, runHost_nil s, h⟩

theorem reaches_cons {a : Access} (hstep : perform a s = .next u) (hok : (∃ w, a = .write .word 0x000 w) → u.code = .ok)
    (h : Reaches as Q u) : Reaches (a :: as) Q s := by
  obtain ⟨hall, t, hrun, ht⟩ := h
  have hfirst (p : List Access) : perform a { s with pending := p } = .next { u with pending := p } := by
    rw [perform_setPending, hstep]; rfl
  refine ⟨⟨{ u with pending := [] }, ?_, hok, (everyCommandOk_setPending []).2 hall⟩, t, ?_, ht⟩
  · rw [runHost_cons_next (hfirst [])]; rfl
  · rw [runHost_cons_next (hfirst as)]; exact hrun

/-! ### Register writes -/

theorem reaches_write {addr : Nat} {v : Word} (ha : addr % 4 = 0) (hr : addr < 0x400) (h0 : addr ≠ cmdAddr)
    (h : Reaches as Q (busWrite addr v s)) : Reaches (.write .word addr v :: as) Q s :=
  reaches_cons (perform_write ha hr h0 v s) (fun ⟨_, hw⟩ => absurd (by cases hw; rfl) h0) h

/-- Writing the words of `ws` one after the other replaces a whole register array: once the words that are still to be
written are the only ones that may differ from `ws`, the rest of the writes leaves `ws`. -/
theorem reaches_writes {n base : Nat} {ws : Vector Word n} {put : Vector Word n → State} (hbase : base % 4 = 0)
    (h0 : cmdAddr < base) (hr : base + 4 * n ≤ 0x400)
    (hput : ∀ (i : Fin n) (vs : Vector Word n), busWrite (base + 4 * i.val) ws[i] (put vs) = put (vs.set i ws[i]))
    (l : List (Fin n)) (vs : Vector Word n) (hvs : ∀ j ∉ l, vs[j] = ws[j]) (h : Reaches as Q (put ws)) :
    Reaches (l.map (fun i => .write .word (base + 4 * i.val) ws[i]) ++ as) Q (put vs) := by
  induction l generalizing vs with
  | nil =>
    have hall : vs = ws := Vector.ext fun j hj => hvs ⟨j, hj⟩ List.not_mem_nil
    exact hall ▸ h
  | cons i l ih =>
    refine reaches_write (by omega) (by omega) (by omega) ?_
    rw [hput]
    refine ih _ fun j hj => ?_
    by_cases hji : j = i
    · subst hji; simp
    · rw [← hvs j (List.not_mem_cons_of_ne_of_not_mem hji hj)]
      exact Vector.getElem_set_ne _ _ fun e => hji (Fin.ext e.symm)

theorem reaches_writeKey {key : Vector Word 16} (h : Reaches as Q { s with key := key }) :
    Reaches (writeKey key ++ as) Q s :=
  reaches_writes (put := fun v => { s with key := v }) (by decide) (by decide) (by decide)
    (fun i _ => busWrite_key_word i _ _) _ s.key (fun j hj => absurd (List.mem_finRange j) hj) h

/-- DBUF after the host has written a piece of at most 64 bytes: its bytes, then 0 (assumption 12). -/
def pieceRegs (p : List Byte) : Vector Word 16 := ofBytes fun k => p.getD k 0

theorem byteSlice_pieceRegs {p : List Byte} (hp : p.length ≤ 64) : byteSlice (pieceRegs p) 0 p.length = p := by
  refine List.ext_getElem (byteSlice_length ..) fun k _ hk => ?_
  rw [byteSlice_getElem, Nat.zero_add, pieceRegs, getByte_ofBytes _ _ (by omega), List.getD_eq_getElem _ _ hk]

theorem loadData_eq_pieceRegs (p : List Byte) :
    loadData p = (List.finRange 16).map fun i => .write .word (0x1C0 + 4 * i.val) (pieceRegs p)[i] := by
  rw [loadData, ← List.map_coe_finRange_eq_range, List.map_map]
  refine List.map_congr_left fun i _ => ?_
  simp [pieceRegs, ofBytes]

theorem reaches_loadData {p : List Byte} (h : Reaches as Q { s with dbuf := pieceRegs p }) :
    Reaches (loadData p ++ as) Q s := by
  rw [loadData_eq_pieceRegs]
  exact reaches_writes (put := fun v => { s with dbuf := v }) (by decide) (by decide) (by decide)
    (fun i _ => busWrite_dbuf_word i _ _) _ s.dbuf (fun j hj => absurd (List.mem_finRange j) hj) h

/-! ### Commands -/

theorem reaches_cmd {i : Instr} (hdec : decode (encode i) = .ok i) (hexec : exec i s = completes u)
    (h : Reaches as Q { u with code := .ok }) : Reaches (cmd i :: as) Q s := by
  refine reaches_cons ?_ (fun _ => rfl) h
  rw [cmd, perform_cmd, execute, hdec]
  exact hexec

theorem decode_encode_macinit (sel var : Fin 4) (mod : Bool) :
    decode (encode (.macinit sel var mod)) = .ok (.macinit sel var mod) := by
  revert sel var mod; decide

theorem decode_encode_macwrite (sel : Fin 4) (n : Fin 128) :
    decode (encode (.macwrite sel n)) = .ok (.macwrite sel n) := by
  obtain ⟨hop, hhigh, hlow⟩ := Laws.EncodedForm.macwrite sel n
  have hword := Laws.encode_toNat (.macwrite sel n) 0x11 rfl (by decide) (by simp only [operandBits]; omega)
  have hsel : bits (encode (.macwrite sel n)) 1 0 = sel.val := by
    simp only [bits, hword, operandBits]; omega
  have hn : bits (encode (.macwrite sel n)) 14 8 = n.val := by
    simp only [bits, hword, operandBits]; omega
  simp [decode, hop, hhigh, hlow, hsel, hn, ifReservedZero]

theorem decode_encode_macfinal (sel : Fin 4) : decode (encode (.macfinal sel)) = .ok (.macfinal sel) := by
  revert sel; decide

end Sys2Proof.Claims
end

section
/-!
PROOFS. The host sequence of a MAC (30_encoding.md R118 to R121): between its MACINIT and its MACFINAL each slot
that SEL selects is a fresh one that has absorbed the pieces written so far.
-/

namespace Sys2Proof.Claims

open Sys2Proof.Machine

/-- Each selected slot is the one that MACINIT left, with the bytes of `M` absorbed. -/
def SelectedAbsorbed (sel : Fin 4) (var : Variant) (mod : Bool) (key : Vector Word 16) (M : List Byte) (s : State) : Prop :=
  ∀ m : Fin 2, selected sel m = true → macOf s m = absorb (freshInstance var mod key m) M

section
variable {sel : Fin 4} {var : Variant} {mod : Bool} {key : Vector Word 16} {M : List Byte} {s : State}
  {as : List Access} {Q : State → Prop}

theorem SelectedAbsorbed.active (h : SelectedAbsorbed sel var mod key M s) : SelectedActive sel s := by
  intro m hm
  rw [h m hm, absorb_configured, absorb_finalized]
  exact ⟨rfl, rfl⟩

theorem SelectedAbsorbed.macwrite {n : Fin 128} (h : SelectedAbsorbed sel var mod key M s) :
    SelectedAbsorbed sel var mod key (M ++ byteSlice s.dbuf 0 n.val) { macwriteState sel n s with code := .ok } := by
  intro m hm
  refine (macOf_macwriteState sel n s m).trans ?_
  rw [if_pos hm, h m hm, absorb_append]

theorem selectedAbsorbed_macinit (sel var : Fin 4) (mod : Bool) (s : State) :
    SelectedAbsorbed sel (variantOfField var) mod s.key [] (macinitState sel var mod s) := by
  intro m hm
  rw [macOf_macinitState, if_pos hm, absorb_nil]

/-- 46_mac.md R256: one piece, loaded and written. -/
theorem reaches_piece (hsel : sel ≠ 0) {p : List Byte} (hp : p.length ≤ 64)
    (hs : SelectedAbsorbed sel var mod key M s)
    (h : ∀ u, SelectedAbsorbed sel var mod key (M ++ p) u → u.err = s.err → Reaches as Q u) :
    Reaches (loadData p ++ cmd (.macwrite sel (Fin.ofNat 128 p.length)) :: as) Q s := by
  have hn : (Fin.ofNat 128 p.length).val = p.length := Nat.mod_eq_of_lt (by omega)
  have hwf : (Instr.macwrite sel (Fin.ofNat 128 p.length)).wellFormed = true :=
    decide_eq_true ⟨hsel, hn.trans_le hp⟩
  -- DBUF matters through the bytes of the piece alone
  have hloaded (d : Vector Word 16) (hd : byteSlice d 0 p.length = p) :
      Reaches (cmd (.macwrite sel (Fin.ofNat 128 p.length)) :: as) Q { s with dbuf := d } := by
    have hs' : SelectedAbsorbed sel var mod key M { s with dbuf := d } := hs
    have hwritten := hs'.macwrite (n := Fin.ofNat 128 p.length)
    rw [hn, hd] at hwritten
    exact reaches_cmd (decode_encode_macwrite ..) (exec_macwrite hwf hs'.active) (h _ hwritten rfl)
  exact reaches_loadData (hloaded _ (byteSlice_pieceRegs hp))

theorem reaches_pieces (hsel : sel ≠ 0) {pieces : List (List Byte)}
    (hlen : ∀ p ∈ pieces, p.length ≤ 64) (hs : SelectedAbsorbed sel var mod key M s)
    (h : ∀ u, SelectedAbsorbed sel var mod key (M ++ pieces.flatten) u → u.err = s.err → Reaches as Q u) :
    Reaches (pieces.flatMap (fun p => loadData p ++ [cmd (.macwrite sel (Fin.ofNat 128 p.length))]) ++ as) Q s := by
  induction pieces generalizing M s with
  | nil => exact h s (by simpa using hs) rfl
  | cons p pieces ih =>
    obtain ⟨hp, hlen⟩ := List.forall_mem_cons.1 hlen
    rw [List.flatMap_cons, List.append_assoc, List.append_assoc, List.singleton_append]
    refine reaches_piece hsel hp hs fun u hu herr => ih hlen hu fun v hv herr' => h v ?_ (herr'.trans herr)
    rwa [List.flatten_cons, ← List.append_assoc]

end

/-- 46_mac.md R253 to R265: the whole session, from any state; TAG is what Place makes of the tags of the two slots, the
selected ones with the whole message absorbed. -/
theorem reaches_macSession {sel var : Fin 4} {mod : Bool} {pieces : List (List Byte)}
    (hwf : (Instr.macinit sel var mod).wellFormed = true) (hlike : sel = 3 → var = 0 ∧ mod = false)
    (hlen : ∀ p ∈ pieces, p.length ≤ 64) (s : State) :
    Reaches (macSession sel var mod pieces)
      (fun t => t.code = .ok ∧ t.err = s.err ∧
        ∃ u, SelectedAbsorbed sel (variantOfField var) mod s.key pieces.flatten u ∧
          t.tag = placeTag sel (instanceTag u.mac0) (instanceTag u.mac1)) s := by
  have hsel : sel ≠ 0 := by
    rintro rfl
    simp [Instr.wellFormed] at hwf
  refine reaches_cmd (decode_encode_macinit sel var mod) (exec_macinit hwf s)
    (reaches_pieces hsel hlen (selectedAbsorbed_macinit sel var mod s) fun u hu herr => ?_)
  have hfinal : exec (.macfinal sel) u = completes (macfinalState sel u) := by
    refine exec_macfinal hsel hu.active fun h3 m => ?_
    obtain ⟨rfl, rfl⟩ := hlike h3
    subst h3
    rw [hu m (selected_three m), absorb_var, absorb_mod, freshInstance_var, freshInstance_mod]
    exact ⟨rfl, rfl⟩
  refine reaches_cmd (decode_encode_macfinal sel) hfinal (reaches_nil ⟨rfl, herr, u, hu, ?_⟩)
  rw [← tagOf_eq_instanceTag, ← tagOf_eq_instanceTag]
  rfl

theorem macTag_length (var : Variant) (mod : Bool) (key : Vector Word 16) (m : Fin 2) (M : List Byte) :
    (macTag var mod (keyMultiplier var key m) (keyPad key m) M).length = tagBytes var := by
  rw [← instanceTag_absorb_freshInstance, instanceTag_length, absorb_var, freshInstance_var]

/-- 47_dual_mac.md R290: the two V130 tags of a key, one of each half, side by side. -/
def doubleMac (key : Vector Word 16) (M : List Byte) : List Byte :=
  macTag .v130 false (keyMultiplier .v130 key 0) (keyPad key 0) M
    ++ macTag .v130 false (keyMultiplier .v130 key 1) (keyPad key 1) M

theorem placeTag_three_of_absorbed {key : Vector Word 16} {M : List Byte} {u : State}
    (hu : SelectedAbsorbed 3 .v130 false key M u) :
    (List.range 32).map (getByte (placeTag 3 (instanceTag u.mac0) (instanceTag u.mac1))) = doubleMac key M := by
  have htag (m : Fin 2) : instanceTag (macOf u m) = macTag .v130 false (keyMultiplier .v130 key m) (keyPad key m) M := by
    rw [hu m (selected_three m), instanceTag_absorb_freshInstance]
  rw [← macOf_zero u, ← macOf_one u, htag, htag, placeTag_three_bytes (macTag_length ..) (macTag_length ..), doubleMac]

theorem reaches_doubleMac {pieces : List (List Byte)} (hlen : ∀ p ∈ pieces, p.length ≤ 64) (s : State) :
    Reaches (macSession 3 0 false pieces)
      (fun t => t.code = .ok ∧ t.err = s.err ∧
        (List.range 32).map (getByte t.tag) = doubleMac s.key pieces.flatten) s := by
  obtain ⟨hok, t, hrun, hcode, herr, u, hu, htag⟩ :=
    reaches_macSession (sel := 3) (var := 0) (mod := false) (by decide) (fun _ => ⟨rfl, rfl⟩) hlen s
  exact ⟨hok, t, hrun, hcode, herr, by rw [htag, placeTag_three_of_absorbed hu]⟩

/-- Settles O47: the session leaves the two tags, and writing the key first only changes the key it starts from. -/
theorem doubleMacSessionConcatenatesTheTags : Obligations.DoubleMacSessionConcatenatesTheTags := by
  intro pieces s hlen
  exact ⟨reaches_doubleMac hlen s, fun key => reaches_writeKey (reaches_doubleMac hlen { s with key := key })⟩

end Sys2Proof.Claims
end

section
/-!
PROOFS. How a command word ends (60_exceptions.md R314, R320): it fails and changes STATUS and ERRCMD alone, or it
completes and leaves ERR and ERRCMD. The word that a failing command records is the word written, since the encoder gives
every word back from the command it decodes to (30_encoding.md R112).
-/

namespace Sys2Proof.Claims

open Sys2Proof.Machine

/-! ### A word is the encoding of the command it decodes to -/

theorem ifReservedZero_eq_ok_iff {op reserved : Nat} {i j : Instr} :
    ifReservedZero op reserved i = .ok j ↔ reserved = 0 ∧ i = j := by
  unfold ifReservedZero
  split
  · next h => simp [h]
  · next h => simp [h]

/-- 30_encoding.md R100: a word is its opcode field over its 24 operand bits. -/
theorem encode_eq_of_fields {w : Word} {i : Instr} (hop : bits w 31 24 = opcode i) (hlow : bits w 23 0 = operandBits i) :
    encode i = w := by
  have hw : w.toNat < 2 ^ 32 := w.isLt
  apply BitVec.eq_of_toNat_eq
  rw [encode, BitVec.toNat_ofNat, ← hop, ← hlow]
  simp only [bits]
  omega

/-- A word that its arm of the decoder accepts: what is left to show is that the arm's fields make up the operand bits. -/
theorem encode_of_ifReservedZero {w : Word} {op reserved : Nat} {i j : Instr} (h : ifReservedZero op reserved i = .ok j)
    (hop : bits w 31 24 = opcode i) (hlow : reserved = 0 → bits w 23 0 = operandBits i) : encode j = w := by
  obtain ⟨hr, rfl⟩ := ifReservedZero_eq_ok_iff.1 h
  exact encode_eq_of_fields hop (hlow hr)

/-- A field of one bit is the number of the flag that it holds. -/
theorem toNat_decide_eq_one {n : Nat} (h : n < 2) : (decide (n = 1)).toNat = n := by
  interval_cases n <;> rfl

/-- 30_encoding.md R112: with the reserved bits 0, the fields that the decoder reads are the whole word. -/
theorem encode_of_decode_ok {w : Word} {i : Instr} (h : decode w = .ok i) : encode i = w := by
  unfold decode at h
  split at h
  case h_1 hop | h_3 hop | h_4 hop | h_5 hop | h_6 hop | h_7 hop | h_8 hop =>
    exact encode_of_ifReservedZero h hop id
  case h_2 hop | h_9 hop | h_11 hop | h_12 hop =>
    refine encode_of_ifReservedZero h hop fun hr => ?_
    simp only [operandBits, Fin.val_ofNat, bits] at hr ⊢
    omega
  case h_10 hop =>
    have hmod : bits w 4 4 < 2 := Nat.mod_lt _ (by decide)
    refine encode_of_ifReservedZero h hop fun hr => ?_
    simp only [operandBits, Fin.val_ofNat, toNat_decide_eq_one hmod]
    simp only [bits] at hr ⊢
    omega
  case h_13 => cases h

/-! ### The two ends of a command word -/

/-- 60_exceptions.md R314, R320: every word, legal or not, fails with itself as ERRCMD or completes. -/
theorem execute_raises_or_completes (w : Word) (s : State) :
    (∃ e, e ≠ .ok ∧ e ≠ .bufferBoundsViolation ∧ execute w s = raise w e s) ∨
    (∃ u, KeepsHostSide s u ∧ execute w s = complete u) := by
  cases hd : decode w with
  | error e => exact .inl ⟨.illegalCommand, by decide, by decide, execute_of_decode_error hd s⟩
  | ok i =>
    have hexec : execute w s = exec i s := by simp only [execute, hd]
    obtain ⟨e, hok, -, hbounds, he⟩ | ⟨u, hu, he⟩ := exec_raises_or_completes i s
    · rw [encode_of_decode_ok hd] at he
      exact .inl ⟨e, hok, hbounds, hexec.trans he⟩
    · exact .inr ⟨u, hu, hexec.trans he⟩

/-- Settles O13: a word that fails sets ERR and records itself, and a word that completes keeps both. -/
theorem everyCommandEndUpdatesStatus : Obligations.EveryCommandEndUpdatesStatus := by
  intro w s
  obtain ⟨e, hok, -, he⟩ | ⟨u, hu, he⟩ := execute_raises_or_completes w s
  · exact ⟨_, he, fun h => absurd h hok, fun _ => ⟨rfl, rfl⟩⟩
  · exact ⟨_, he, fun _ => ⟨hu.err, hu.errcmd⟩, fun h => absurd rfl h⟩

/-- Settles O14: the CODE of a word that completes is OK, so a word with another CODE has failed, by `raise`. -/
theorem failingCommandChangesOnlyStatus : Obligations.FailingCommandChangesOnlyStatus := by
  intro w s t h ht
  obtain ⟨e, -, -, he⟩ | ⟨u, -, he⟩ := execute_raises_or_completes w s
  · cases he.symm.trans h
    rfl
  · cases he.symm.trans h
    exact absurd rfl ht

end Sys2Proof.Claims
end

section
/-!
PROOFS. The state after reset (70_reset_and_hazards.md R340): every register is 0, so every branch of BusRead gives 0, the
invariants of 10_state.md R41 hold, and NONCE_LEN = 0 fails the check of 42_block_generator.md R174.
-/

namespace Sys2Proof.Claims

open Sys2Proof.Machine

theorem macOf_reset (m : Fin 2) : macOf State.reset m = MacInst.reset := ite_self _

/-! ### What a read returns -/

theorem getD_replicate_self {α : Type} (n i : Nat) (x : α) : (Vector.replicate n x).getD i x = x := by
  simp [Vector.getD, Array.getD]

theorem statusWord_reset : statusWord State.reset = 0 := rfl

theorem mctrlWord_reset : mctrlWord MacInst.reset = 0 := rfl

/-- Each branch of the map of a MAC block reads a register that is 0. -/
theorem macBlockRead_reset (o : Nat) : macBlockRead MacInst.reset o = 0 := by
  rw [macBlockRead, mctrlWord_reset]
  simp only [MacInst.reset, getD_replicate_self, ite_self]

/-- Each branch of the register map reads a register that is 0. -/
theorem busRead_reset (addr : Nat) : busRead State.reset addr = 0 := by
  rw [busRead, statusWord_reset]
  simp only [State.reset, macBlockRead_reset, getD_replicate_self, BitVec.ofNat_eq_ofNat, BitVec.setWidth_zero,
    ite_self]

/-! ### The invariants -/

theorem canonicalLimbs_limbsOf_zero (var : Variant) :
    CanonicalLimbs (limbBits var) (limbsOf var (Vector.replicate 6 0)) := by
  cases var <;> decide

theorem macInst_reset_inv : MacInst.reset.Inv :=
  ⟨by decide, canonicalLimbs_limbsOf_zero .v130, canonicalLimbs_limbsOf_zero .v130, fun k _ _ => getByte_zero k,
    fun _ => ⟨rfl, rfl, rfl, rfl, rfl, rfl⟩, fun _ => ⟨rfl, rfl, fun k _ _ => getByte_zero k⟩, fun _ => rfl⟩

theorem reset_inv : State.reset.Inv :=
  ⟨fun m => (macOf_reset m).symm ▸ macInst_reset_inv, by decide⟩

/-- Settles O58: the registers are read off the definition, and the reads, the invariants and the cipher commands follow
from their values. -/
theorem stateAfterResetIsAllZero : Obligations.StateAfterResetIsAllZero := by
  refine ⟨statusWord_reset, rfl, rfl, rfl, rfl, rfl, rfl, rfl, rfl, rfl, rfl, rfl, rfl, fun m => ?instances,
    fun addr ha hr => readsAs_of_busRead ha hr (busRead_reset addr), reset_inv, fun i hi => ?ciphers⟩
  case instances =>
    rw [macOf_reset]
    exact ⟨mctrlWord_reset, rfl, rfl, rfl, rfl, rfl, rfl, rfl, rfl, rfl⟩
  case ciphers => exact (wrongNonceLengthFails i State.reset hi).1 (by decide)

end Sys2Proof.Claims
end

section
/-!
PROOFS. The decoder against the encoder (30_encoding.md R100 to R114): no operand bit of a command is lost, and a word is
refused for its opcode, refused for a reserved bit, or is the word of one command.
-/

namespace Sys2Proof.Claims

open Sys2Proof.Machine

/-! ### From a command to its word and back -/

theorem decode_encode_qr (a b c d : Fin 16) : decode (encode (.qr a b c d)) = .ok (.qr a b c d) := by
  obtain ⟨hop, hreserved⟩ := Laws.EncodedForm.qr a b c d
  have hword := Laws.encode_toNat (.qr a b c d) 0x01 rfl (by decide) (by simp only [operandBits]; omega)
  have ha : bits (encode (.qr a b c d)) 3 0 = a.val := by
    simp only [bits, hword, operandBits]; omega
  have hb : bits (encode (.qr a b c d)) 7 4 = b.val := by
    simp only [bits, hword, operandBits]; omega
  have hc : bits (encode (.qr a b c d)) 11 8 = c.val := by
    simp only [bits, hword, operandBits]; omega
  have hd : bits (encode (.qr a b c d)) 15 12 = d.val := by
    simp only [bits, hword, operandBits]; omega
  simp [decode, hop, hreserved, ha, hb, hc, hd, ifReservedZero]

theorem decode_encode_scxor (n : Fin 128) : decode (encode (.scxor n)) = .ok (.scxor n) := by
  revert n; decide

theorem decode_encode (i : Instr) : decode (encode i) = .ok i := by
  cases i with
  | nop | colround | diaground | dround | blkinit | blkfinal | genblock => decide
  | qr a b c d => exact decode_encode_qr a b c d
  | scxor n => exact decode_encode_scxor n
  | macinit sel var mod => exact decode_encode_macinit sel var mod
  | macwrite sel n => exact decode_encode_macwrite sel n
  | macfinal sel => exact decode_encode_macfinal sel

/-- Settles O1: each command's fields come back from the bits of its word. -/
theorem decodeOfEncodeIsTheCommand : Obligations.DecodeOfEncodeIsTheCommand := decode_encode

/-! ### From a word to its command and back -/

theorem ne_zero_of_ifReservedZero_error {op reserved : Nat} {i : Instr} {e : DecodeError}
    (h : ifReservedZero op reserved i = .error e) : reserved ≠ 0 := by
  rintro rfl
  cases h

/-- 30_encoding.md R109, R110: the decoder has no other reason to refuse a word. -/
theorem illegal_of_decode_error {w : Word} {e : DecodeError} (h : decode w = .error e) :
    UndefinedOpcode w ∨ ReservedBitSet w := by
  unfold decode at h
  split at h
  case h_13 =>
    left
    simp only [imp_false] at *
    omega
  case h_1 hop | h_3 hop | h_4 hop | h_5 hop | h_6 hop | h_7 hop | h_8 hop =>
    exact .inr (.inl ⟨by simp [hop], ne_zero_of_ifReservedZero_error h⟩)
  all_goals
    have := ne_zero_of_ifReservedZero_error h
    right
    omega

/-- Settles O2: a word that is not illegal decodes, to a command whose word it is, and `decode` gives every command back
from its word. -/
theorem everyWordIsIllegalOrOneCommand : Obligations.EveryWordIsIllegalOrOneCommand := by
  refine fun w => ⟨fun hbad => ?illegal, fun hgood => ?legal⟩
  case illegal =>
    obtain h | h := hbad
    · exact ⟨_, decode_of_undefinedOpcode h⟩
    · exact ⟨_, decode_of_reservedBitSet h⟩
  case legal =>
    cases hd : decode w with
    | error e => exact absurd (illegal_of_decode_error hd) hgood
    | ok i =>
      refine ⟨i, rfl, encode_of_decode_ok hd, fun j hj => ?_⟩
      have hij : Except.ok j = Except.ok i := (decode_encode j).symm.trans (hj ▸ hd)
      exact Except.ok.inj hij

/-- Settles O3: each word is evaluated. -/
theorem writtenOutWordsDecode : Obligations.WrittenOutWordsDecode := by
  unfold Obligations.WrittenOutWordsDecode
  decide

/-! ### What a step does with a command word, and with none -/

/-- Settles O4: the access that writes a word to CMD is `execute`, which runs the command that the word decodes to. -/
theorem stepRunsTheDecodedCommand : Obligations.StepRunsTheDecodedCommand := by
  intro s w i rest hp hd
  calc step s
    _ = execute w { s with pending := rest } := (step_of_pending hp).trans (perform_cmd w _)
    _ = exec i { s with pending := rest } := by simp only [execute, hd]

/-- Settles O12: `step` takes an access off the list only where one waits. -/
theorem idleCoreKeepsAllState : Obligations.IdleCoreKeepsAllState := by
  intro s hp
  simp only [step, hp]

end Sys2Proof.Claims
end

section
/-!
PROOFS. Every command as its checks and its effect (60_exceptions.md R312 to R319): the code of the first check that fails,
and, where none does, the registers that the command leaves.
-/

namespace Sys2Proof.Claims

open Sys2Proof.Machine

/-! ### The two forms and the command -/

/-- The code of the first check that fails, if one does, in the order of 60_exceptions.md R316. -/
def failedCheck (i : Instr) (s : State) : Option ResultCode :=
  if i.wellFormed = false then some .illegalOperand
  else match i with
    | .blkinit | .genblock | .scxor _ => if nonceLengthWrong s then some .invalidNonceLength else none
    | .macwrite sel _ =>
      if someUnconfigured sel s then some .notConfigured
      else if someFinalized sel s then some .useAfterFinalize
      else none
    | .macfinal sel =>
      if someUnconfigured sel s then some .notConfigured
      else if someFinalized sel s then some .useAfterFinalize
      else if dualMismatch sel s then some .dualMismatch
      else none
    | .nop | .qr _ _ _ _ | .colround | .diaground | .dround | .blkfinal | .macinit _ _ _ => none

/-- What a command makes of the registers, CODE apart, once its checks have passed. -/
def commandEffect (i : Instr) (s : State) : State :=
  match i with
  | .nop => s
  | .qr a b c d =>
    { s with state := if h : PairwiseDistinct a b c d then quarterRound ⟨a, b, c, d, h⟩ s.state else s.state }
  | .colround => { s with state := columnRound s.state }
  | .diaground => { s with state := diagonalRound s.state }
  | .dround => { s with state := doubleRound s.state }
  | .blkinit => { s with state := initState s.key s.nonce s.counter, init := initState s.key s.nonce s.counter }
  | .blkfinal => destroyState { s with ks := feedForward s.state s.init }
  | .genblock => destroyState { s with ks := currentBlock s }
  | .scxor n => scxorEffect n s
  | .macinit sel var mod => macinitState sel var mod s
  | .macwrite sel n => macwriteState sel n s
  | .macfinal sel => macfinalState sel s

/-- A check in front of others passes together with them. -/
theorem checkFirst_eq_none_iff {c : Prop} [Decidable c] {e : ResultCode} {rest : Option ResultCode} :
    (if c then some e else rest) = none ↔ ¬ c ∧ rest = none := by
  by_cases hc : c <;> simp [hc]

theorem failedCheck_of_not_wellFormed {i : Instr} (h : i.wellFormed = false) (s : State) :
    failedCheck i s = some .illegalOperand :=
  if_pos h

theorem wellFormed_of_failedCheck_none {i : Instr} {s : State} (h : failedCheck i s = none) : i.wellFormed = true := by
  cases hw : i.wellFormed with
  | false => cases (failedCheck_of_not_wellFormed hw s).symm.trans h
  | true => rfl

/-- The command fails at its first failed check, or completes with its effect. -/
theorem exec_eq (i : Instr) (s : State) :
    exec i s = match failedCheck i s with
      | some e => raise (encode i) e s
      | none => complete (commandEffect i s) := by
  cases hw : i.wellFormed with
  | false => rw [exec_of_not_wellFormed hw, failedCheck_of_not_wellFormed hw]
  | true =>
    cases i with
    | nop | colround | diaground | dround | blkfinal => rfl
    | qr a b c d =>
      have hd := (pairwiseDistinct_iff_wellFormed a b c d).2 hw
      simp only [exec_qr_of_distinct hd, failedCheck, hw, commandEffect, dif_pos hd]
      rfl
    | blkinit => simp only [exec, execBlkinit, failedCheck]; cases nonceLengthWrong s <;> rfl
    | genblock => simp only [exec, execGenblock, failedCheck]; cases nonceLengthWrong s <;> rfl
    | scxor n =>
      rw [exec_scxor hw]
      simp only [unlessNonceLengthWrong, failedCheck, hw]
      cases nonceLengthWrong s <;> rfl
    | macinit sel var mod =>
      rw [exec_macinit hw]
      simp only [failedCheck, hw]
      rfl
    | macwrite sel n =>
      simp only [exec, execMacwrite, macwriteIllegal_eq, failedCheck, hw]
      cases someUnconfigured sel s <;> cases someFinalized sel s <;> rfl
    | macfinal sel =>
      simp only [exec, execMacfinal, macfinalIllegal_eq, failedCheck, hw]
      cases someUnconfigured sel s <;> cases someFinalized sel s <;> cases dualMismatch sel s <;> rfl

theorem exec_of_failedCheck {i : Instr} {s : State} {e : ResultCode} (h : failedCheck i s = some e) :
    exec i s = fails e (encode i) s := by
  rw [exec_eq, h]
  rfl

theorem exec_of_passed {i : Instr} {s : State} (h : failedCheck i s = none) :
    exec i s = completes (commandEffect i s) := by
  rw [exec_eq, h]
  rfl

/-- Everything a command that answers `t` can have done. -/
theorem exec_next_cases {i : Instr} {s t : State} (h : exec i s = .next t) :
    (∃ e, failedCheck i s = some e ∧ t = { s with code := e, err := true, errcmd := encode i }) ∨
    (failedCheck i s = none ∧ t = { commandEffect i s with code := .ok }) := by
  cases hc : failedCheck i s with
  | some e => exact .inl ⟨e, rfl, (Host.Outcome.next.inj ((exec_of_failedCheck hc).symm.trans h)).symm⟩
  | none => exact .inr ⟨rfl, (Host.Outcome.next.inj ((exec_of_passed hc).symm.trans h)).symm⟩

theorem exec_next (i : Instr) (s : State) : ∃ t, exec i s = .next t := by
  cases hc : failedCheck i s with
  | some e => exact ⟨_, exec_of_failedCheck hc⟩
  | none => exact ⟨_, exec_of_passed hc⟩

/-! ### The checks of the selected slots -/

theorem someUnconfigured_iff (sel : Fin 4) (s : State) :
    someUnconfigured sel s = true ↔ SomeSelected sel s (fun I => I.configured = false) := by
  simp [someUnconfigured, someSelected_iff]

theorem someFinalized_iff (sel : Fin 4) (s : State) :
    someFinalized sel s = true ↔ SomeSelected sel s (fun I => I.finalized = true) := by
  simp [someFinalized, someSelected_iff]

/-- 46_mac.md R269: the two checks pass on Active slots alone. -/
theorem selectedActive_of_checks {sel : Fin 4} {s : State} (hconf : someUnconfigured sel s = false)
    (hfin : someFinalized sel s = false) : SelectedActive sel s := by
  refine fun m hm => ⟨Bool.eq_true_of_not_eq_false fun h => ?_, Bool.eq_false_of_not_eq_true fun h => ?_⟩
  · exact Bool.false_ne_true (hconf.symm.trans ((someUnconfigured_iff sel s).2 ⟨m, hm, h⟩))
  · exact Bool.false_ne_true (hfin.symm.trans ((someFinalized_iff sel s).2 ⟨m, hm, h⟩))

/-- 46_mac.md R256: MACWRITE passes its checks exactly on accepted operands and Active slots. -/
theorem failedCheck_macwrite_eq_none_iff {sel : Fin 4} {n : Fin 128} {s : State} :
    failedCheck (.macwrite sel n) s = none ↔ (Instr.macwrite sel n).wellFormed = true ∧ SelectedActive sel s := by
  constructor
  · intro h
    have hw := wellFormed_of_failedCheck_none h
    refine ⟨hw, ?_⟩
    obtain ⟨hconf, hfin⟩ : someUnconfigured sel s = false ∧ someFinalized sel s = false := by
      simpa [failedCheck, hw, checkFirst_eq_none_iff] using h
    exact selectedActive_of_checks hconf hfin
  · rintro ⟨hw, hact⟩
    simp [failedCheck, hw, someUnconfigured_of_active hact, someFinalized_of_active hact]

/-- 46_mac.md R264: so does MACFINAL, which may ask for more. -/
theorem selectedActive_of_failedCheck_macfinal {sel : Fin 4} {s : State} (h : failedCheck (.macfinal sel) s = none) :
    SelectedActive sel s := by
  have hw := wellFormed_of_failedCheck_none h
  obtain ⟨hconf, hfin, -⟩ : someUnconfigured sel s = false ∧ someFinalized sel s = false ∧ dualMismatch sel s = false := by
    simpa [failedCheck, hw, checkFirst_eq_none_iff] using h
  exact selectedActive_of_checks hconf hfin

/-- Settles O18: each clause names the first check that fails, with the checks before it passed. -/
theorem firstFailingCheckDecidesTheCode : Obligations.FirstFailingCheckDecidesTheCode := by
  refine ⟨fun n s => ⟨fun h => ?scxorOperand, fun h1 h64 h16 => ?scxorNonce⟩,
    fun sel n s => ⟨fun h => ?writeOperand, fun h0 h64 h => ?writeUnconfigured, fun h0 h64 hconf h => ?writeFinalized⟩,
    fun sel s => ⟨fun h => ?finalOperand, fun h0 h => ?finalUnconfigured, fun h0 hconf h => ?finalFinalized⟩⟩
  case scxorOperand => exact exec_of_not_wellFormed (i := .scxor n) (decide_eq_false (by omega)) s
  case scxorNonce =>
    exact (wrongNonceLengthFails (.scxor n) s (.inr (.inr ⟨n, h1, h64, rfl⟩))).1 fun h => h16 (h ▸ rfl)
  case writeOperand => exact exec_of_not_wellFormed (i := .macwrite sel n) (decide_eq_false (by omega)) s
  case writeUnconfigured =>
    have hw : (Instr.macwrite sel n).wellFormed = true := decide_eq_true ⟨h0, h64⟩
    exact exec_of_failedCheck (by simp [failedCheck, hw, (someUnconfigured_iff sel s).2 h])
  case writeFinalized =>
    have hw : (Instr.macwrite sel n).wellFormed = true := decide_eq_true ⟨h0, h64⟩
    have hconf' := Bool.eq_false_iff.2 (mt (someUnconfigured_iff sel s).1 hconf)
    exact exec_of_failedCheck (by simp [failedCheck, hw, hconf', (someFinalized_iff sel s).2 h])
  case finalOperand => exact exec_of_not_wellFormed (i := .macfinal sel) (decide_eq_false (not_not.2 h)) s
  case finalUnconfigured => exact exec_macfinal_of_unconfigured h0 ((someUnconfigured_iff sel s).2 h)
  case finalFinalized =>
    exact exec_macfinal_of_finalized h0 (Bool.eq_false_iff.2 (mt (someUnconfigured_iff sel s).1 hconf))
      ((someFinalized_iff sel s).2 h)

end Sys2Proof.Claims
end

section
/-!
PROOFS. Which registers a command reads and writes (20_memory.md R88, 70_reset_and_hazards.md R346), and what it can do to
one slot of the MAC (46_mac.md R268, R269).
-/

namespace Sys2Proof.Claims

open Sys2Proof.Machine

/-! ### The registers that an effect leaves -/

section
variable {i : Instr} (s : State)

theorem commandEffect_keepsHostSide : KeepsHostSide s (commandEffect i s) := by
  cases i <;> constructor <;> simp [commandEffect, macinitState, macwriteState, macfinalState]

theorem commandEffect_counter_dbuf (h : ∀ n, i ≠ .scxor n) :
    (commandEffect i s).counter = s.counter ∧ (commandEffect i s).dbuf = s.dbuf := by
  cases i with
  | scxor n => exact absurd rfl (h n)
  | _ => simp [commandEffect, macinitState, macwriteState, macfinalState]

theorem commandEffect_ks (hfinal : i ≠ .blkfinal) (hgen : i ≠ .genblock) (hxor : ∀ n, i ≠ .scxor n) :
    (commandEffect i s).ks = s.ks := by
  cases i with
  | blkfinal => exact absurd rfl hfinal
  | genblock => exact absurd rfl hgen
  | scxor n => exact absurd rfl (hxor n)
  | _ => simp [commandEffect, macinitState, macwriteState, macfinalState]

theorem commandEffect_init (hinit : i ≠ .blkinit) (hfinal : i ≠ .blkfinal) (hgen : i ≠ .genblock)
    (hxor : ∀ n, i ≠ .scxor n) : (commandEffect i s).init = s.init := by
  cases i with
  | blkinit => exact absurd rfl hinit
  | blkfinal => exact absurd rfl hfinal
  | genblock => exact absurd rfl hgen
  | scxor n => exact absurd rfl (hxor n)
  | _ => simp [commandEffect, macinitState, macwriteState, macfinalState]

theorem commandEffect_state (h : i = .nop ∨ (∃ sel var mod, i = .macinit sel var mod) ∨ (∃ sel n, i = .macwrite sel n) ∨
    ∃ sel, i = .macfinal sel) : (commandEffect i s).state = s.state := by
  obtain rfl | ⟨sel, var, mod, rfl⟩ | ⟨sel, n, rfl⟩ | ⟨sel, rfl⟩ := h <;>
    simp [commandEffect, macinitState, macwriteState, macfinalState]

theorem commandEffect_tag (h : ∀ sel, i ≠ .macfinal sel) : (commandEffect i s).tag = s.tag := by
  cases i with
  | macfinal sel => exact absurd rfl (h sel)
  | _ => simp [commandEffect, macinitState, macwriteState]

theorem commandEffect_macs (hinit : ∀ sel var mod, i ≠ .macinit sel var mod) (hwrite : ∀ sel n, i ≠ .macwrite sel n)
    (hfinal : ∀ sel, i ≠ .macfinal sel) : (commandEffect i s).mac0 = s.mac0 ∧ (commandEffect i s).mac1 = s.mac1 := by
  cases i with
  | macinit sel var mod => exact absurd rfl (hinit sel var mod)
  | macwrite sel n => exact absurd rfl (hwrite sel n)
  | macfinal sel => exact absurd rfl (hfinal sel)
  | _ => simp [commandEffect]

end

/-! ### What a command can do to one slot -/

theorem macOf_congr {s t : State} (h0 : t.mac0 = s.mac0) (h1 : t.mac1 = s.mac1) (m : Fin 2) : macOf t m = macOf s m := by
  simp only [macOf, h0, h1]

/-- What a command leaves in slot `m`: the slot as it was, or what its MACINIT, MACWRITE or MACFINAL makes of it. -/
inductive SlotAfter (i : Instr) (s : State) (m : Fin 2) : MacInst → Prop where
  | kept : SlotAfter i s m (macOf s m)
  | fresh (sel var : Fin 4) (mod : Bool) (hi : i = .macinit sel var mod) (hwf : i.wellFormed = true)
      (hsel : selected sel m = true) : SlotAfter i s m (freshInstance (variantOfField var) mod s.key m)
  | absorbed (xs : List Byte) (hconf : (macOf s m).configured = true) : SlotAfter i s m (absorb (macOf s m) xs)
  | finalized (hconf : (macOf s m).configured = true) : SlotAfter i s m (finalized (macOf s m))

theorem slotAfter_of_macs {i : Instr} {s t : State} {m : Fin 2} (h : t.mac0 = s.mac0 ∧ t.mac1 = s.mac1) :
    SlotAfter i s m (macOf t m) := by
  rw [macOf_congr h.1 h.2]
  exact .kept

/-- A slot after the update of the selected slots, in the two cases. -/
theorem slotAfter_updateSelected {i : Instr} {s : State} {m : Fin 2} {sel : Fin 4} {I J : MacInst}
    (hJ : J = if selected sel m = true then I else macOf s m) (hI : selected sel m = true → SlotAfter i s m I) :
    SlotAfter i s m J := by
  subst hJ
  split
  · next hsel => exact hI hsel
  · exact .kept

theorem slotAfter_commandEffect {i : Instr} {s : State} (hpass : failedCheck i s = none) (m : Fin 2) :
    SlotAfter i s m (macOf (commandEffect i s) m) := by
  cases i with
  | macinit sel var mod =>
    exact slotAfter_updateSelected (macOf_macinitState sel var mod s m)
      (.fresh sel var mod rfl (wellFormed_of_failedCheck_none hpass))
  | macwrite sel n =>
    have hact := (failedCheck_macwrite_eq_none_iff.1 hpass).2
    exact slotAfter_updateSelected (macOf_macwriteState sel n s m) fun hsel => .absorbed _ (hact m hsel).1
  | macfinal sel =>
    have hact := selectedActive_of_failedCheck_macfinal hpass
    exact slotAfter_updateSelected (macOf_macfinalState sel s m) fun hsel => .finalized (hact m hsel).1
  | _ => exact slotAfter_of_macs (commandEffect_macs s (by simp) (by simp) (by simp))

theorem slotAfter_of_exec {i : Instr} {s t : State} (h : exec i s = .next t) (m : Fin 2) :
    SlotAfter i s m (macOf t m) := by
  obtain ⟨e, -, rfl⟩ | ⟨hpass, rfl⟩ := exec_next_cases h
  · exact .kept
  · exact slotAfter_commandEffect hpass m

/-- 46_mac.md R251, R252: the multiplier, the pad, VAR and MOD of a slot come from its MACINIT alone. -/
theorem SlotAfter.keeps_setup {i : Instr} {s : State} {m : Fin 2} {J : MacInst} (h : SlotAfter i s m J)
    (hinit : ∀ sel var mod, selected sel m = true → i ≠ .macinit sel var mod) :
    J.r = (macOf s m).r ∧ J.pad = (macOf s m).pad ∧ J.var = (macOf s m).var ∧ J.mod = (macOf s m).mod := by
  cases h with
  | kept => exact ⟨rfl, rfl, rfl, rfl⟩
  | fresh sel var mod hi _ hsel => exact absurd hi (hinit sel var mod hsel)
  | absorbed xs _ => exact ⟨absorb_r .., absorb_pad .., absorb_var .., absorb_mod ..⟩
  | finalized _ => exact ⟨rfl, rfl, rfl, rfl⟩

/-- Settles O54: a failing command leaves all these registers, and a completing one what its effect leaves. -/
theorem onlyTheNamedCommandsWriteEachRegister : Obligations.OnlyTheNamedCommandsWriteEachRegister := by
  intro i s t h
  have hslot (m : Fin 2) := (slotAfter_of_exec h m).keeps_setup
  obtain ⟨e, -, rfl⟩ | ⟨hpass, rfl⟩ := exec_next_cases h
  · exact ⟨rfl, rfl, rfl, rfl, rfl, fun _ => ⟨rfl, rfl⟩, fun _ _ _ => rfl, fun _ _ _ _ => rfl, fun _ => rfl,
      fun _ => rfl, fun _ _ _ => ⟨rfl, rfl⟩, hslot⟩
  · have hhost := commandEffect_keepsHostSide (i := i) s
    exact ⟨hhost.key, hhost.nonce, hhost.nonceLen, hhost.pending, hhost.returned, commandEffect_counter_dbuf s,
      commandEffect_ks s, commandEffect_init s, commandEffect_state s, commandEffect_tag s, commandEffect_macs s, hslot⟩

/-! ### KEY -/

/-- 60_exceptions.md R316: no check reads KEY. -/
theorem failedCheck_setKey (i : Instr) (s : State) (key : Vector Word 16) :
    failedCheck i { s with key := key } = failedCheck i s := by
  cases i <;> rfl

/-- 70_reset_and_hazards.md R346: only the effect of MACINIT takes KEY into a slot, and none takes it into TAG. -/
theorem commandEffect_setKey {i : Instr} (s : State) (key : Vector Word 16) (h : ∀ sel var mod, i ≠ .macinit sel var mod) :
    (commandEffect i { s with key := key }).mac0 = (commandEffect i s).mac0 ∧
    (commandEffect i { s with key := key }).mac1 = (commandEffect i s).mac1 ∧
    (commandEffect i { s with key := key }).tag = (commandEffect i s).tag := by
  cases i with
  | macinit sel var mod => exact absurd rfl (h sel var mod)
  | _ => simp [commandEffect, macwriteState, macfinalState]

/-- Settles O52: the same check fails on both cores, or both complete with effects that agree on the slots and TAG. -/
theorem keyIsCapturedAtMacinit : Obligations.KeyIsCapturedAtMacinit := by
  intro i s key hinit
  have hsame := failedCheck_setKey i s key
  cases hc : failedCheck i s with
  | some e => exact ⟨_, _, exec_of_failedCheck hc, exec_of_failedCheck (hsame.trans hc), rfl, rfl, rfl, rfl⟩
  | none =>
    obtain ⟨h0, h1, htag⟩ := commandEffect_setKey s key hinit
    exact ⟨_, _, exec_of_passed hc, exec_of_passed (hsame.trans hc), h0, h1, htag, rfl⟩

end Sys2Proof.Claims
end

section
/-!
PROOFS. The invariants of a MAC slot (10_state.md R41, R36): a fresh slot meets them, and absorbing a byte and finalising
keep them.
-/

namespace Sys2Proof.Claims

open Sys2Proof.Machine

theorem variantOfField_v179 {var : Fin 4} (h : variantOfField var = .v179) (hvar : var.val ≤ 1) : var = 1 := by
  have h0 : var ≠ 0 := by
    rintro rfl
    cases h
  omega

/-- The registers of a limb vector fit a V130 slot. -/
theorem limbRegs_last_eq_zero {var : Variant} {x : List Nat} (hlen : x.length = limbCount var) (hvar : var = .v130) :
    (limbRegs x)[5] = 0 := by
  subst hvar
  exact limbRegs_getElem_of_le x 5 (by decide) hlen.le

theorem freshInstance_inv {sel var : Fin 4} {mod : Bool} (hwf : (Instr.macinit sel var mod).wellFormed = true)
    (key : Vector Word 16) (m : Fin 2) : (freshInstance (variantOfField var) mod key m).Inv := by
  obtain ⟨-, hvar, hmod⟩ := of_decide_eq_true hwf
  refine ⟨blockBytes_pos _, canonicalLimbs_limbsOf_zero _, ?_, fun k _ _ => getByte_zero k, nofun,
    fun h => ⟨rfl, limbRegs_last_eq_zero (limbs_length ..) h, fun k _ _ => getByte_zero k⟩, fun h => ?_⟩
  · have hr := limbsOf_limbRegs (variantOfField var) _ (limbs_canonical _ (keyMultiplier (variantOfField var) key m))
      (limbs_length ..)
    rw [MacInst.MultiplierCanonical, freshInstance_r, freshInstance_var, hr]
    exact limbs_canonical _ _
  · exact Bool.eq_false_iff.2 fun htrue => hmod ⟨htrue, variantOfField_v179 h hvar⟩

theorem absorbByte_inv {I : MacInst} (hI : I.Inv) (hconf : I.configured = true) (x : Byte) : (absorbByte I x).Inv := by
  obtain ⟨hcount, hh, hr, hclear, -, hsmall, hmod⟩ := hI
  by_cases hfull : I.count.toNat + 1 = blockBytes I.var
  · rw [absorbByte_full x hfull]
    refine ⟨blockBytes_pos _, ?_, hr, fun k _ _ => getByte_zero k, fun h => absurd (hconf.symm.trans h) nofun,
      fun h => ⟨limbRegs_last_eq_zero (process_canonical ..).2 h, (hsmall h).2.1, fun k _ _ => getByte_zero k⟩, hmod⟩
    dsimp only [MacInst.AccumulatorCanonical]
    rw [limbsOf_processedH]
    exact (process_canonical ..).1
  · have hsucc := count_succ_toNat (I := I) (by omega)
    have h24 : blockBytes I.var ≤ 24 := by cases I.var <;> decide
    -- a byte above COUNT is not the one that was written
    have habove {k : Nat} (hk : k < 24) (hne : k ≠ I.count.toNat) (h0 : getByte I.buf k = 0) :
        getByte (setByte I.buf I.count.toNat x) k = 0 := by
      rw [getByte_setByte _ _ _ _ hk, if_neg hne, h0]
    rw [absorbByte_partial x hfull]
    refine ⟨?_, hh, hr, fun k hk hle => ?_, fun h => absurd (hconf.symm.trans h) nofun, fun h => ?_, hmod⟩
    · dsimp only [MacInst.CountBelowBlock] at hcount ⊢
      omega
    · rw [hsucc] at hle
      exact habove hk (by omega) (hclear k hk (by omega))
    · obtain ⟨h5, r5, hbuf⟩ := hsmall h
      have h16 : I.count.toNat < blockBytes .v130 := h ▸ hcount
      exact ⟨h5, r5, fun k hk hle => habove hk (Nat.ne_of_gt (h16.trans_le hle)) (hbuf k hk hle)⟩

theorem absorb_inv {I : MacInst} (hI : I.Inv) (hconf : I.configured = true) (xs : List Byte) : (absorb I xs).Inv := by
  induction xs generalizing I with
  | nil => exact hI
  | cons x xs ih => exact ih (absorbByte_inv hI hconf x) ((absorbByte_configured I x).trans hconf)

theorem finalized_inv {I : MacInst} (hI : I.Inv) (hconf : I.configured = true) : (finalized I).Inv := by
  obtain ⟨-, -, hr, -, -, hsmall, hmod⟩ := hI
  refine ⟨blockBytes_pos _, ?_, hr, fun k _ _ => getByte_zero k, fun h => absurd (hconf.symm.trans h) nofun,
    fun h => ⟨limbRegs_last_eq_zero (finalLimbs_canonical I).2 h, (hsmall h).2.1, fun k _ _ => getByte_zero k⟩, hmod⟩
  rw [MacInst.AccumulatorCanonical, finalized_var, limbsOf_finalized]
  exact (finalLimbs_canonical I).1

theorem SlotAfter.inv {i : Instr} {s : State} {m : Fin 2} {J : MacInst} (h : SlotAfter i s m J) (hI : (macOf s m).Inv) :
    J.Inv := by
  cases h with
  | kept => exact hI
  | fresh sel var mod hi hwf _ =>
    subst hi
    exact freshInstance_inv hwf s.key m
  | absorbed xs hconf => exact absorb_inv hI hconf xs
  | finalized hconf => exact finalized_inv hI hconf

end Sys2Proof.Claims
end

section
/-!
PROOFS. What every step keeps (10_state.md R24, R41; 46_mac.md R268, R269; 60_exceptions.md R317, R320): the cases of a
step, and in each of them the slots, ERR and CODE.
-/

namespace Sys2Proof.Claims

open Sys2Proof.Machine

/-! ### The cases of a step -/

theorem eq_reset_of_busAction {a : Access} (h : busAction a = .reset) : a = .reset := by
  cases a with
  | reset => rfl
  | read width addr =>
    simp only [busAction] at h
    split at h <;> cases h
  | write width addr v =>
    simp only [busAction] at h
    split at h
    · cases h
    · split at h <;> cases h

theorem eq_write_of_busAction {a : Access} {w : Word} (h : busAction a = .command w) : a = .write .word cmdAddr w := by
  cases a with
  | reset => cases h
  | read width addr =>
    simp only [busAction] at h
    split at h <;> cases h
  | write width addr v =>
    simp only [busAction] at h
    split at h
    · cases h
    · next hnone =>
      obtain ⟨rfl, -, -⟩ := (accessRefusal_eq_none_iff width addr).1 hnone
      split at h
      · next h0 =>
        cases h
        rw [h0]
      · cases h

/-- Every step keeps both slots, ERR and CODE, or is a reset, or runs a word written to CMD. -/
theorem step_cases {s t : State} (h : step s = .next t) :
    (t.mac0 = s.mac0 ∧ t.mac1 = s.mac1 ∧ t.err = s.err ∧ t.code = s.code) ∨
    (∃ rest, s.pending = .reset :: rest ∧ t = resetAccess { s with pending := rest }) ∨
    (∃ w rest, s.pending = .write .word cmdAddr w :: rest ∧ execute w { s with pending := rest } = .next t) := by
  obtain ⟨-, rfl⟩ | ⟨a, rest, hp, ha⟩ := step_next_cases h
  · exact .inl ⟨rfl, rfl, rfl, rfl⟩
  obtain ⟨addr, -, rfl⟩ | ⟨addr, v, -, rfl⟩ | ⟨hreset, rfl⟩ | ⟨w, e, hw, hd, he⟩ | ⟨w, i, hw, hd, he⟩ := ha
  · exact .inl ⟨rfl, rfl, rfl, rfl⟩
  · exact .inl ⟨busWrite_mac0 .., busWrite_mac1 .., busWrite_err .., busWrite_code ..⟩
  · exact .inr (.inl ⟨rest, eq_reset_of_busAction hreset ▸ hp, rfl⟩)
  · exact .inr (.inr ⟨w, rest, eq_write_of_busAction hw ▸ hp, (execute_of_decode_error hd _).trans he⟩)
  · refine .inr (.inr ⟨w, rest, eq_write_of_busAction hw ▸ hp, ?_⟩)
    simpa only [execute, hd] using he

/-- A word written to CMD leaves a slot alone, or it is the word of a command that may change it. -/
theorem slot_of_execute {w : Word} {s t : State} (h : execute w s = .next t) (m : Fin 2) :
    macOf t m = macOf s m ∨ ∃ i, encode i = w ∧ SlotAfter i s m (macOf t m) := by
  cases hd : decode w with
  | error e =>
    rw [execute_of_decode_error hd] at h
    cases h
    exact .inl rfl
  | ok i =>
    simp only [execute, hd] at h
    exact .inr ⟨i, encode_of_decode_ok hd, slotAfter_of_exec h m⟩

/-- Only a command and a reset can change a slot. -/
theorem slot_of_step {s t : State} (h : step s = .next t) (hreset : ∀ rest, s.pending ≠ .reset :: rest) (m : Fin 2) :
    macOf t m = macOf s m ∨
    ∃ i rest, s.pending = cmd i :: rest ∧ SlotAfter i { s with pending := rest } m (macOf t m) := by
  obtain ⟨h0, h1, -, -⟩ | ⟨rest, hp, -⟩ | ⟨w, rest, hp, hw⟩ := step_cases h
  · exact .inl (macOf_congr h0 h1 m)
  · exact absurd hp (hreset rest)
  · obtain hm | ⟨i, rfl, hi⟩ := slot_of_execute hw m
    · exact .inl hm
    · exact .inr ⟨i, rest, hp, hi⟩

/-! ### ERR and CODE -/

/-- Settles O15: a command that fails sets ERR, one that completes keeps it, and no other access but a reset changes it. -/
theorem errorBitIsStickyUntilReset : Obligations.ErrorBitIsStickyUntilReset := by
  intro s t herr hreset h
  obtain ⟨-, -, hkept, -⟩ | ⟨rest, hp, -⟩ | ⟨w, rest, -, hw⟩ := step_cases h
  · exact hkept.trans herr
  · exact absurd hp (hreset rest)
  · obtain ⟨e, -, -, he⟩ | ⟨u, hu, he⟩ := execute_raises_or_completes w { s with pending := rest }
    · cases he.symm.trans hw
      rfl
    · cases he.symm.trans hw
      exact hu.err.trans herr

/-- Settles O16: no check raises code 5, and a command that completes ends with OK. -/
theorem noCommandRaisesBufferBounds : Obligations.NoCommandRaisesBufferBounds := by
  intro w s t h
  obtain ⟨e, -, hbounds, he⟩ | ⟨u, -, he⟩ := execute_raises_or_completes w s
  · cases he.symm.trans h
    exact hbounds
  · cases he.symm.trans h
    exact nofun

/-! ### The invariants -/

/-- Settles O55: every register is 0. -/
theorem resetMeetsTheInvariants : Obligations.ResetMeetsTheInvariants := reset_inv

/-- Settles O56: a step keeps the slots or resets them, or runs a command that leaves each slot as it was, fresh, with
bytes absorbed, or finalised; no command leaves code 5. -/
theorem everyStepKeepsTheInvariants : Obligations.EveryStepKeepsTheInvariants := by
  rintro s t ⟨hslots, hcode⟩ h
  obtain ⟨h0, h1, -, hc⟩ | ⟨rest, -, rfl⟩ | ⟨w, rest, -, hw⟩ := step_cases h
  · exact ⟨fun m => macOf_congr h0 h1 m ▸ hslots m, hc ▸ hcode⟩
  · exact reset_inv
  · refine ⟨fun m => ?_, noCommandRaisesBufferBounds w _ t hw⟩
    obtain hm | ⟨i, -, hi⟩ := slot_of_execute hw m
    · exact hm ▸ hslots m
    · exact hi.inv (hslots m)

/-! ### The states of a slot -/

theorem SlotAfter.configured {i : Instr} {s : State} {m : Fin 2} {J : MacInst} (h : SlotAfter i s m J)
    (hconf : (macOf s m).configured = true) : J.configured = true := by
  cases h with
  | kept => exact hconf
  | fresh => rfl
  | absorbed xs _ => exact (absorb_configured ..).trans hconf
  | finalized _ => exact hconf

/-- 46_mac.md R269: only a MACINIT of the slot opens it again. -/
theorem SlotAfter.eq_macinit {i : Instr} {s : State} {m : Fin 2} {J : MacInst} (h : SlotAfter i s m J)
    (hfin : (macOf s m).finalized = true) (hopen : J.finalized = false) :
    ∃ sel var mod, i = .macinit sel var mod ∧ selected sel m = true ∧ i.wellFormed = true := by
  cases h with
  | kept => exact absurd (hfin.symm.trans hopen) nofun
  | fresh sel var mod hi hwf hsel => exact ⟨sel, var, mod, hi, hsel, hwf⟩
  | absorbed xs _ => exact absurd (hfin.symm.trans ((absorb_finalized ..).symm.trans hopen)) nofun
  | finalized _ => cases hopen

/-- Settles O51: a step but a reset leaves the slot alone or runs a command, and only MACINIT takes it out of Finalized. -/
theorem onlyMacinitReopensAnInstance : Obligations.OnlyMacinitReopensAnInstance := by
  intro s t m h hreset
  obtain hm | ⟨i, rest, hp, hi⟩ := slot_of_step h hreset m
  · rw [hm]
    exact ⟨id, fun hfin hopen => absurd (hfin.symm.trans hopen) nofun⟩
  · refine ⟨hi.configured, fun hfin hopen => ?_⟩
    obtain ⟨sel, var, mod, rfl, hsel, hwf⟩ := hi.eq_macinit hfin hopen
    exact ⟨sel, var, mod, rest, hp, hsel, hwf⟩

end Sys2Proof.Claims
end

section
/-!
PROOFS. Runs of the host (70_reset_and_hazards.md R348), one access at a time: what the host's list holds besides does not
matter to a run.
-/

namespace Sys2Proof.Claims

open Sys2Proof.Machine

variable {as : List Access} {s t u : State}

theorem runHost_cons_of_perform {a : Access} (h : perform a s = .next t) : runHost (a :: as) s = runHost as t := by
  have hfirst : perform a { s with pending := as } = .next { t with pending := as } := by
    rw [perform_setPending, h, mapNext]
  rw [runHost_cons_next hfirst]
  rfl

theorem perform_command (i : Instr) : perform (cmd i) s = exec i s := by
  rw [cmd, perform_cmd, execute, decode_encode]

theorem runHost_cmd_next {i : Instr} (h : exec i s = .next t) : runHost (cmd i :: as) s = runHost as t :=
  runHost_cons_of_perform ((perform_command i).trans h)

theorem runHost_cmd {i : Instr} (h : exec i s = completes u) :
    runHost (cmd i :: as) s = runHost as { u with code := .ok } :=
  runHost_cmd_next h

end Sys2Proof.Claims
end

section
/-!
PROOFS. The register space as a memory (20_memory.md section 5): after a write, its own offset reads the value written and
every other offset reads what it read before.
-/

namespace Sys2Proof.Claims

open Sys2Proof.Machine

/-! ### One array of registers -/

/-- An aligned offset in an array of registers is that of one of its words. -/
theorem exists_wordOffset {n base b : Nat} (hbase : base % 4 = 0) (hb : b % 4 = 0) (h : base ≤ b ∧ b < base + 4 * n) :
    ∃ j : Fin n, b = base + 4 * j.val :=
  ⟨⟨(b - base) / 4, by omega⟩, by dsimp only; omega⟩

/-- Word `j` of an array after a write of word `i`, by their offsets. -/
theorem set_getElem_wordOffset {n : Nat} (ws : Vector Word n) (base : Nat) (i j : Fin n) (v : Word) :
    (ws.set i v)[j] = if base + 4 * j.val = base + 4 * i.val then v else ws[j] := by
  have hij : base + 4 * j.val = base + 4 * i.val ↔ i.val = j.val := by omega
  simp only [hij]
  exact Vector.getElem_set _ _

section
variable (s : State) {b : Nat} (v : Word)

theorem busRead_set_key (i : Fin 16) (hb : b % 4 = 0) :
    busRead { s with key := s.key.set i v } b = if b = 0x040 + 4 * i.val then v else busRead s b := by
  by_cases hin : 0x040 ≤ b ∧ b < 0x080
  · obtain ⟨j, rfl⟩ := exists_wordOffset (n := 16) (by decide) hb hin
    rw [busRead_key, busRead_key]
    exact set_getElem_wordOffset s.key 0x040 i j v
  · rw [if_neg (by omega)]
    simp only [busRead, if_neg hin]
    rfl

theorem busRead_set_nonce (i : Fin 4) (hb : b % 4 = 0) :
    busRead { s with nonce := s.nonce.set i v } b = if b = 0x080 + 4 * i.val then v else busRead s b := by
  by_cases hin : 0x080 ≤ b ∧ b < 0x090
  · obtain ⟨j, rfl⟩ := exists_wordOffset (n := 4) (by decide) hb hin
    rw [busRead_nonce, busRead_nonce]
    exact set_getElem_wordOffset s.nonce 0x080 i j v
  · rw [if_neg (by omega)]
    simp only [busRead, if_neg hin]
    rfl

theorem busRead_set_state (i : Fin 16) (hb : b % 4 = 0) :
    busRead { s with state := s.state.set i v } b = if b = 0x100 + 4 * i.val then v else busRead s b := by
  by_cases hin : 0x100 ≤ b ∧ b < 0x140
  · obtain ⟨j, rfl⟩ := exists_wordOffset (n := 16) (by decide) hb hin
    rw [busRead_state, busRead_state]
    exact set_getElem_wordOffset s.state 0x100 i j v
  · rw [if_neg (by omega)]
    simp only [busRead, if_neg hin]
    rfl

theorem busRead_set_dbuf (i : Fin 16) (hb : b % 4 = 0) :
    busRead { s with dbuf := s.dbuf.set i v } b = if b = 0x1C0 + 4 * i.val then v else busRead s b := by
  by_cases hin : 0x1C0 ≤ b ∧ b < 0x200
  · obtain ⟨j, rfl⟩ := exists_wordOffset (n := 16) (by decide) hb hin
    rw [busRead_dbuf, busRead_dbuf]
    exact set_getElem_wordOffset s.dbuf 0x1C0 i j v
  · rw [if_neg (by omega)]
    simp only [busRead, if_neg hin]
    rfl

/-- 10_state.md R26: NONCE_LEN keeps the low byte. -/
theorem setWidth_low_byte : (v.setWidth 8).setWidth 32 = v &&& 0xFF := by
  apply BitVec.eq_of_toNat_eq
  rw [BitVec.toNat_and, show (0xFF : Word).toNat = 2 ^ 8 - 1 from rfl, Nat.and_two_pow_sub_one_eq_mod,
    BitVec.toNat_setWidth, BitVec.toNat_setWidth]
  omega

theorem busRead_set_nonceLen :
    busRead { s with nonceLen := v.setWidth 8 } b = if b = 0x00C then v &&& 0xFF else busRead s b := by
  by_cases hin : b = 0x00C
  · simp (disch := omega) only [busRead, if_neg, if_pos hin, setWidth_low_byte]
  · simp only [busRead, if_neg hin]
    rfl

theorem busRead_set_counter : busRead { s with counter := v } b = if b = 0x010 then v else busRead s b := by
  by_cases hin : b = 0x010
  · simp (disch := omega) only [busRead, if_neg, if_pos hin]
  · simp only [busRead, if_neg hin]
    rfl

/-- 20_memory.md R78, R79: a write to a register that the host can write. -/
theorem busRead_busWrite_of_hostWritable {a : Nat} (hw : HostWritable a) (ha : a % 4 = 0) (hb : b % 4 = 0) :
    busRead (busWrite a v s) b = if b = a then (if a = 0x00C then v &&& 0xFF else v) else busRead s b := by
  obtain rfl | rfl | h | h | h | h := hw
  · exact busRead_set_nonceLen s v
  · exact busRead_set_counter s v
  · obtain ⟨i, rfl⟩ := exists_wordOffset (n := 16) (by decide) ha h
    rw [busWrite_key_word, busRead_set_key s v i hb, if_neg (by omega : ¬ 0x040 + 4 * i.val = 0x00C)]
  · obtain ⟨i, rfl⟩ := exists_wordOffset (n := 4) (by decide) ha h
    rw [busWrite_nonce_word, busRead_set_nonce s v i hb, if_neg (by omega : ¬ 0x080 + 4 * i.val = 0x00C)]
  · obtain ⟨i, rfl⟩ := exists_wordOffset (n := 16) (by decide) ha h
    rw [busWrite_state_word, busRead_set_state s v i hb, if_neg (by omega : ¬ 0x100 + 4 * i.val = 0x00C)]
  · obtain ⟨i, rfl⟩ := exists_wordOffset (n := 16) (by decide) ha h
    rw [busWrite_dbuf_word, busRead_set_dbuf s v i hb, if_neg (by omega : ¬ 0x1C0 + 4 * i.val = 0x00C)]

end

/-- Settles O10: a write reaches one register or none, and the read after it looks up the offset in what the write left. -/
theorem readAfterWriteReturnsTheValue : Obligations.ReadAfterWriteReturnsTheValue := by
  intro s a b v ha har h0 hb hbr
  refine ⟨{ readAccess b (busWrite a v s) with pending := [] }, ?run, ?value⟩
  case run =>
    rw [runHost_cons_of_perform (perform_write ha har h0 v s), runHost_cons_of_perform (perform_read hb hbr _),
      runHost_nil]
  case value =>
    show busRead (busWrite a v s) b :: (busWrite a v s).returned = _
    rw [busWrite_returned]
    congr 1
    by_cases hw : HostWritable a
    · simp only [hw, and_true]
      exact busRead_busWrite_of_hostWritable s v hw ha hb
    · simp only [hw, and_false, if_false, busWrite_of_not_hostWritable hw]

/-! ### Reset and STATUS -/

/-- Settles O11: the reset input leaves the registers of the state after reset, and no read looks at the host's lists. -/
theorem resetClearsEveryRegister : Obligations.ResetClearsEveryRegister := by
  intro s rest hp
  refine ⟨resetAccess { s with pending := rest }, step_of_pending hp, rfl, rfl, reset_inv, rfl, rfl, rfl, rfl, rfl, rfl,
    rfl, rfl, rfl, rfl, rfl, rfl, fun m => ?slots, fun addr ha hr => readsAs_of_busRead ha hr (busRead_reset addr),
    fun i hi => ?ciphers⟩
  case slots =>
    have hm : macOf (resetAccess { s with pending := rest }) m = MacInst.reset := macOf_reset m
    rw [hm]
    exact ⟨rfl, rfl, rfl, rfl, rfl, rfl, rfl, rfl, rfl⟩
  case ciphers => exact (wrongNonceLengthFails i _ hi).1 (by simp [State.reset])

/-- Settles O17: ERR is bit 8 of the word and CODE, one of eight numbers, its low bits. -/
theorem statusReservedBitsReadZero : Obligations.StatusReservedBitsReadZero := by
  intro s
  have hcode : codeNumber s.code < 8 := by cases s.code <;> decide
  have herr := Bool.toNat_lt s.err
  have hword : (statusWord s).toNat = s.err.toNat * 2 ^ 8 + codeNumber s.code := by
    rw [statusWord, BitVec.toNat_ofNat]
    omega
  refine ⟨readsAs_of_busRead rfl (by decide) rfl, ?_, ?_, ?_⟩ <;> rw [bits, hword] <;> omega

end Sys2Proof.Claims
end

section
/-!
PROOFS. Rounds (41_permutation.md R143 to R146): quarter rounds on index sets that do not meet see each other's words
unchanged, so a round mixes each set from the old words, in any order.
-/

namespace Sys2Proof.Claims

open Sys2Proof.Machine

/-! ### Quarter rounds on index sets that do not meet -/

/-- The four indices of a quarter round. -/
def quadIndices (q : Quad) : List (Fin 16) := [q.a, q.b, q.c, q.d]

/-- Two quarter rounds have no index in common. -/
abbrev Apart (p q : Quad) : Prop := ∀ i ∈ quadIndices p, i ∉ quadIndices q

theorem Apart.symm {p q : Quad} (h : Apart p q) : Apart q p := fun i hi hp => h i hp hi

/-- The four words of a state at the indices of a quarter round. -/
def quadWords (S : Vector Word 16) (q : Quad) : Word × Word × Word × Word := wordsAt S q.a q.b q.c q.d

/-- What the thirteen steps make of those words. -/
def quadMixed (S : Vector Word 16) (q : Quad) : Word × Word × Word × Word := mixedAt S q.a q.b q.c q.d

theorem quadWords_eq_iff {S T : Vector Word 16} {q : Quad} :
    quadWords S q = quadWords T q ↔ ∀ i ∈ quadIndices q, S[i] = T[i] := by
  simp [quadWords, wordsAt, quadIndices]

theorem quadMixed_congr {S T : Vector Word 16} {q : Quad} (h : quadWords S q = quadWords T q) :
    quadMixed S q = quadMixed T q := by
  simp only [quadWords, wordsAt, Prod.mk.injEq] at h
  obtain ⟨ha, hb, hc, hd⟩ := h
  simp only [quadMixed, mixedAt, ha, hb, hc, hd]

theorem quadWords_quarterRound_self (q : Quad) (S : Vector Word 16) :
    quadWords (quarterRound q S) q = quadMixed S q :=
  wordsAt_quarterRound q S

theorem quarterRound_getElem_of_not_mem {q : Quad} {j : Fin 16} (h : j ∉ quadIndices q) (S : Vector Word 16) :
    (quarterRound q S)[j] = S[j] := by
  simp only [quadIndices, List.mem_cons, List.not_mem_nil, or_false, not_or] at h
  obtain ⟨ha, hb, hc, hd⟩ := h
  exact quarterRound_other q S j ha hb hc hd

theorem quadWords_quarterRound_of_apart {p q : Quad} (h : Apart q p) (S : Vector Word 16) :
    quadWords (quarterRound p S) q = quadWords S q :=
  quadWords_eq_iff.2 fun i hi => quarterRound_getElem_of_not_mem (h i hi) S

/-- At its own indices a quarter round does not see what one apart from it has done. -/
theorem quarterRound_quarterRound_getElem {p q : Quad} (h : Apart p q) (S : Vector Word 16) {j : Fin 16}
    (hj : j ∈ quadIndices p) : (quarterRound p (quarterRound q S))[j] = (quarterRound q (quarterRound p S))[j] := by
  have hsame : quadWords (quarterRound p (quarterRound q S)) p = quadWords (quarterRound p S) p := by
    rw [quadWords_quarterRound_self, quadWords_quarterRound_self,
      quadMixed_congr (quadWords_quarterRound_of_apart h S)]
  rw [quarterRound_getElem_of_not_mem (h j hj), quadWords_eq_iff.1 hsame j hj]

/-- 41_permutation.md R145. -/
theorem quarterRound_comm {p q : Quad} (h : Apart p q) (S : Vector Word 16) :
    quarterRound p (quarterRound q S) = quarterRound q (quarterRound p S) := by
  refine Vector.ext fun j hj => ?_
  show (quarterRound p (quarterRound q S))[(⟨j, hj⟩ : Fin 16)] = (quarterRound q (quarterRound p S))[(⟨j, hj⟩ : Fin 16)]
  by_cases hp : ⟨j, hj⟩ ∈ quadIndices p
  · exact quarterRound_quarterRound_getElem h S hp
  by_cases hq : ⟨j, hj⟩ ∈ quadIndices q
  · exact (quarterRound_quarterRound_getElem h.symm S hq).symm
  · simp only [quarterRound_getElem_of_not_mem hp, quarterRound_getElem_of_not_mem hq]

/-! ### A round -/

/-- Quarter rounds one after the other. -/
def quarterRounds (qs : List Quad) (S : Vector Word 16) : Vector Word 16 := qs.foldl (fun S q => quarterRound q S) S

theorem quarterRounds_cons (q : Quad) (qs : List Quad) (S : Vector Word 16) :
    quarterRounds (q :: qs) S = quarterRounds qs (quarterRound q S) :=
  List.foldl_cons ..

theorem quadWords_quarterRounds_of_apart {q : Quad} {qs : List Quad} (h : ∀ p ∈ qs, Apart q p) (S : Vector Word 16) :
    quadWords (quarterRounds qs S) q = quadWords S q := by
  induction qs generalizing S with
  | nil => rfl
  | cons p qs ih =>
    obtain ⟨hp, hqs⟩ := List.forall_mem_cons.1 h
    rw [quarterRounds_cons, ih hqs, quadWords_quarterRound_of_apart hp]

/-- 41_permutation.md R143, R144: each set of indices is mixed from its old words. -/
theorem quadWords_quarterRounds {qs : List Quad} (h : qs.Pairwise Apart) (S : Vector Word 16) {q : Quad} (hq : q ∈ qs) :
    quadWords (quarterRounds qs S) q = quadMixed S q := by
  induction qs generalizing S with
  | nil => cases hq
  | cons p qs ih =>
    obtain ⟨hp, hqs⟩ := List.pairwise_cons.1 h
    rw [quarterRounds_cons]
    obtain rfl | hmem := List.mem_cons.1 hq
    · rw [quadWords_quarterRounds_of_apart hp, quadWords_quarterRound_self]
    · rw [ih hqs _ hmem, quadMixed_congr (quadWords_quarterRound_of_apart (hp q hmem).symm S)]

theorem quarterRounds_perm {ps qs : List Quad} (hperm : ps.Perm qs) (h : qs.Pairwise Apart) (S : Vector Word 16) :
    quarterRounds ps S = quarterRounds qs S := by
  have hcomm : qs.Pairwise fun p q => ∀ T, quarterRound q (quarterRound p T) = quarterRound p (quarterRound q T) :=
    h.imp fun hpq T => (quarterRound_comm hpq T).symm
  have hsymm : Std.Symm fun p q : Quad => ∀ T, quarterRound q (quarterRound p T) = quarterRound p (quarterRound q T) :=
    ⟨fun _ _ hpq T => (hpq T).symm⟩
  exact (hperm.symm.foldl_eq' (hcomm.forall_of_forall fun _ _ _ => rfl) S).symm

/-- The four columns (41_permutation.md R143). -/
def columnQuads : List Quad :=
  [⟨0, 4, 8, 12, by decide⟩, ⟨1, 5, 9, 13, by decide⟩, ⟨2, 6, 10, 14, by decide⟩, ⟨3, 7, 11, 15, by decide⟩]

/-- The four diagonals (41_permutation.md R144). -/
def diagonalQuads : List Quad :=
  [⟨0, 5, 10, 15, by decide⟩, ⟨1, 6, 11, 12, by decide⟩, ⟨2, 7, 8, 13, by decide⟩, ⟨3, 4, 9, 14, by decide⟩]

theorem columnQuads_apart : columnQuads.Pairwise Apart := by decide

theorem diagonalQuads_apart : diagonalQuads.Pairwise Apart := by decide

theorem exec_colround (s : State) :
    exec .colround s = completes { s with state := quarterRounds columnQuads s.state } := rfl

theorem exec_diaground (s : State) :
    exec .diaground s = completes { s with state := quarterRounds diagonalQuads s.state } := rfl

theorem exec_dround (s : State) : exec .dround s = completes { s with state := doubleRound s.state } := rfl

/-- The four sets of a list of four. -/
theorem quadWords_quarterRounds_four {p q r s : Quad} (h : [p, q, r, s].Pairwise Apart) (S : Vector Word 16) :
    quadWords (quarterRounds [p, q, r, s] S) p = quadMixed S p ∧
    quadWords (quarterRounds [p, q, r, s] S) q = quadMixed S q ∧
    quadWords (quarterRounds [p, q, r, s] S) r = quadMixed S r ∧
    quadWords (quarterRounds [p, q, r, s] S) s = quadMixed S s :=
  ⟨quadWords_quarterRounds h S (by simp), quadWords_quarterRounds h S (by simp), quadWords_quarterRounds h S (by simp),
    quadWords_quarterRounds h S (by simp)⟩

/-- Settles O21: COLROUND is the quarter rounds of the columns, which have no index in common. -/
theorem colroundMixesEachColumn : Obligations.ColroundMixesEachColumn :=
  fun s => ⟨quarterRounds columnQuads s.state, exec_colround s, quadWords_quarterRounds_four columnQuads_apart s.state⟩

/-- Settles O22: DIAGROUND is the quarter rounds of the diagonals, which have no index in common. -/
theorem diagroundMixesEachDiagonal : Obligations.DiagroundMixesEachDiagonal :=
  fun s => ⟨quarterRounds diagonalQuads s.state, exec_diaground s,
    quadWords_quarterRounds_four diagonalQuads_apart s.state⟩

/-- Settles O24: `doubleRound` is the diagonal round of the column round. -/
theorem droundIsColroundThenDiaground : Obligations.DroundIsColroundThenDiaground :=
  fun s => ⟨_, _, exec_colround s, exec_diaground _, exec_dround s⟩

/-! ### The four QR commands of a round -/

/-- The QR command on the indices of a quarter round. -/
def qrCommand (q : Quad) : Instr := .qr q.a q.b q.c q.d

theorem columns_eq : columns = columnQuads.map qrCommand := rfl

theorem diagonals_eq : diagonals = diagonalQuads.map qrCommand := rfl

theorem exec_qrCommand (q : Quad) (s : State) :
    exec (qrCommand q) s = completes { s with state := quarterRound q s.state } :=
  exec_qr_of_distinct q.distinct s

theorem runHost_qrCommands (qs : List Quad) (s : State) :
    runHost ((qs.map qrCommand).map cmd) { s with code := .ok } =
      runHost [] { s with state := quarterRounds qs s.state, code := .ok } := by
  induction qs generalizing s with
  | nil => rfl
  | cons q qs ih =>
    rw [List.map_cons, List.map_cons, runHost_cmd (exec_qrCommand q _), quarterRounds_cons]
    exact ih { s with state := quarterRound q s.state }

/-- QR commands on sets of indices that do not meet, in any order. -/
theorem runHost_of_perm_qrCommands {qs : List Quad} (hne : qs ≠ []) (h : qs.Pairwise Apart) {l : List Instr}
    (hl : l.Perm (qs.map qrCommand)) (s : State) :
    runHost (l.map cmd) s = runHost [] { s with state := quarterRounds qs s.state, code := .ok } := by
  obtain ⟨ps, rfl, hperm⟩ : Relation.Comp (· = List.map qrCommand ·) List.Perm l qs := by rwa [List.eq_map_comp_perm]
  rw [← quarterRounds_perm hperm h]
  cases ps with
  | nil => exact absurd hperm.symm.eq_nil hne
  | cons p ps =>
    rw [List.map_cons, List.map_cons, runHost_cmd (exec_qrCommand p s), quarterRounds_cons]
    exact runHost_qrCommands ps { s with state := quarterRound p s.state }

/-- Settles O23: both sides run the quarter rounds of the round. -/
theorem roundIsItsFourQuarterRounds : Obligations.RoundIsItsFourQuarterRounds := by
  intro s l
  refine ⟨fun hl => ?_, fun hl => ?_⟩
  · rw [runHost_of_perm_qrCommands (qs := columnQuads) nofun columnQuads_apart (columns_eq ▸ hl),
      runHost_cmd (exec_colround s)]
  · rw [runHost_of_perm_qrCommands (qs := diagonalQuads) nofun diagonalQuads_apart (diagonals_eq ▸ hl),
      runHost_cmd (exec_diaground s)]

end Sys2Proof.Claims
end

section
/-!
PROOFS. The inverse of the quarter round (41_permutation.md R147): the nine inverse steps undo the thirteen steps in turn,
last one first, and the other way round.
-/

namespace Sys2Proof.Claims

open Sys2Proof.Machine

/-- 00_scope.md R10: two rotations that add up to the width cancel. -/
theorem rotl32_rotl32 (x : Word) {m n : Nat} (hm : 0 < m) (hn : 0 < n) (hmn : m + n = 32) : rotl32 (rotl32 x m) n = x := by
  have hm32 : m < 32 := by omega
  have hn32 : n < 32 := by omega
  rw [rotl32_eq_rotateLeft _ hm32, rotl32_eq_rotateLeft _ hn32]
  ext i hi
  simp only [BitVec.getElem_rotateLeft, Nat.mod_eq_of_lt hm32, Nat.mod_eq_of_lt hn32]
  by_cases hin : i < n
  · have h1 : ¬ 32 - n + i < m := by omega
    have h2 : 32 - n + i - m = i := by omega
    simp [hin, h1, h2]
  · have h1 : i - n < m := by omega
    have h2 : 32 - m + (i - n) = i := by omega
    simp [hin, h1, h2]

theorem rotr32_rotl32 (x : Word) {n : Nat} (h0 : 0 < n) (h32 : n < 32) : rotr32 (rotl32 x n) n = x :=
  rotl32_rotl32 x h0 (by omega) (by omega)

theorem rotl32_rotr32 (x : Word) {n : Nat} (h0 : 0 < n) (h32 : n < 32) : rotl32 (rotr32 x n) n = x :=
  rotl32_rotl32 x (by omega) h0 (by omega)

theorem xor_xor_cancel (x y : Word) : x ^^^ y ^^^ y = x := by
  rw [BitVec.xor_assoc, BitVec.xor_self, BitVec.xor_zero]

theorem unmixWords_mixWords (a b c d : Word) {a' b' c' d' : Word} (h : mixWords a b c d = (a', b', c', d')) :
    unmixWords a' b' c' d' = (a, b, c, d) := by
  simp only [mixWords, Prod.mk.injEq] at h
  obtain ⟨rfl, rfl, rfl, rfl⟩ := h
  simp (disch := decide) only [unmixWords, rotr32_rotl32, xor_xor_cancel, BitVec.add_sub_cancel]

theorem mixWords_unmixWords (a b c d : Word) {a' b' c' d' : Word} (h : unmixWords a b c d = (a', b', c', d')) :
    mixWords a' b' c' d' = (a, b, c, d) := by
  simp only [unmixWords, Prod.mk.injEq] at h
  obtain ⟨rfl, rfl, rfl, rfl⟩ := h
  simp (disch := decide) only [mixWords, rotl32_rotr32, xor_xor_cancel, BitVec.sub_add_cancel]

/-- The four words of a state in which words at pairwise distinct indices have been set. -/
theorem wordsAt_set {a b c d : Fin 16} (h : PairwiseDistinct a b c d) (S : Vector Word 16) (x y z w : Word) :
    wordsAt ((((S.set a x).set b y).set c z).set d w) a b c d = (x, y, z, w) := by
  obtain ⟨hab, hac, had, hbc, hbd, hcd⟩ := h
  simp only [wordsAt, Fin.getElem_fin, Vector.getElem_set_self, set_other _ _ _ _ hab, set_other _ _ _ _ hac,
    set_other _ _ _ _ had, set_other _ _ _ _ hbc, set_other _ _ _ _ hbd, set_other _ _ _ _ hcd]

/-- Settles O25: QR makes the thirteen steps on its four words, and the two sequences of steps undo each other. -/
theorem quarterRoundIsInvertible : Obligations.QuarterRoundIsInvertible := by
  intro a b c d s t hd ht
  rw [exec_qr_of_distinct hd] at ht
  cases ht
  refine ⟨unmixWords_mixWords _ _ _ _ (wordsAt_quarterRound ⟨a, b, c, d, hd⟩ s.state).symm, ?_⟩
  intro x y z w x' y' z' w' hback
  refine ⟨_, exec_qr_of_distinct hd _, ?_⟩
  have hset := wordsAt_set hd s.state x' y' z' w'
  simp only [wordsAt, Prod.mk.injEq] at hset
  obtain ⟨ha, hb, hc, hd'⟩ := hset
  refine (wordsAt_quarterRound ⟨a, b, c, d, hd⟩ _).trans ?_
  simp only [mixedAt, ha, hb, hc, hd']
  exact mixWords_unmixWords x y z w hback

end Sys2Proof.Claims
end

section
/-!
PROOFS. The keystream block from its commands (42_block_generator.md R171 to R179): GENBLOCK, the block built step by step,
and the key words that reach it.
-/

namespace Sys2Proof.Claims

open Sys2Proof.Machine

/-- Settles O27: BLKFINAL makes no check, and its KS is the feed-forward. -/
theorem blkfinalFeedsForward : Obligations.BlkfinalFeedsForward :=
  fun s => ⟨feedForward s.state s.init, exec_blkfinal s, fun i => feedForward_getElem s.state s.init i i.isLt⟩

theorem exec_genblock_of_nonceLen {s : State} (h : s.nonceLen = 16) :
    exec .genblock s = completes { s with ks := blockWords s, state := zero16, init := zero16 } := by
  rw [← currentBlock_eq_blockWords]
  exact (exec_genblock s).trans (unlessNonceLengthWrong_of_eq h _ _)

/-- Settles O28: past the check GENBLOCK leaves the block of the current key, nonce and counter. -/
theorem genblockProducesTheBlock : Obligations.GenblockProducesTheBlock := fun _ => exec_genblock_of_nonceLen

/-! ### Step by step -/

/-- Accesses that replace STATE by `f` of it, on a core whose CODE is OK. -/
def MapsState (f : Vector Word 16 → Vector Word 16) (ds : List Access) : Prop :=
  ∀ (as : List Access) (s : State),
    runHost (ds ++ as) { s with code := .ok } = runHost as { s with state := f s.state, code := .ok }

theorem mapsState_cmd {i : Instr} {f : Vector Word 16 → Vector Word 16}
    (h : ∀ s, exec i s = completes { s with state := f s.state }) : MapsState f [cmd i] := by
  intro as s
  rw [List.singleton_append, runHost_cmd (h _)]

theorem MapsState.append {f g : Vector Word 16 → Vector Word 16} {ds es : List Access} (hf : MapsState f ds)
    (hg : MapsState g es) : MapsState (g ∘ f) (ds ++ es) := by
  intro as s
  rw [List.append_assoc, hf]
  exact hg as { s with state := f s.state }

theorem MapsState.replicate {f : Vector Word 16 → Vector Word 16} {ds : List Access} (h : MapsState f ds) (n : Nat) :
    MapsState f^[n] (List.replicate n ds).flatten := by
  induction n with
  | zero => exact fun as s => rfl
  | succ n ih =>
    rw [List.replicate_succ, List.flatten_cons, Function.iterate_succ]
    exact h.append ih

theorem dround_mapsState : MapsState doubleRound [cmd .dround] := mapsState_cmd exec_dround

theorem colround_diaground_mapsState : MapsState doubleRound [cmd .colround, cmd .diaground] :=
  (mapsState_cmd (f := columnRound) fun _ => rfl).append (mapsState_cmd (f := diagonalRound) fun _ => rfl)

/-- 42_block_generator.md R179: BLKINIT, twelve double rounds and BLKFINAL leave what GENBLOCK leaves. -/
theorem runHost_stepwise_block {ds : List Access} (h : MapsState doubleRound ds) {s : State} (hs : s.nonceLen = 16) :
    runHost ([cmd .blkinit] ++ (List.replicate 12 ds).flatten ++ [cmd .blkfinal]) s = runHost [cmd .genblock] s := by
  have hsum : feedForward (doubleRound^[12] (initialWords s)) (initialWords s) = blockWords s := rfl
  have hfinal : exec .blkfinal
        { s with state := doubleRound^[12] (initialWords s), init := initialWords s, code := .ok } =
      completes { s with ks := blockWords s, state := zero16, init := zero16 } := by
    rw [← hsum]
    rfl
  rw [List.append_assoc, List.singleton_append, runHost_cmd (blkinitBuildsTheInitialState s hs),
    h.replicate 12 _ { s with state := initialWords s, init := initialWords s }, runHost_cmd hfinal,
    runHost_cmd (exec_genblock_of_nonceLen hs)]

/-- Settles O30: DROUND, and COLROUND with DIAGROUND, each make one double round. -/
theorem stepwiseBlockEqualsGenblock : Obligations.StepwiseBlockEqualsGenblock := by
  intro s hs
  have hdround : List.replicate 12 (cmd .dround) = (List.replicate 12 [cmd .dround]).flatten := by simp
  rw [hdround]
  exact ⟨runHost_stepwise_block dround_mapsState hs, runHost_stepwise_block colround_diaground_mapsState hs⟩

/-! ### The key words that reach the block -/

/-- 42_block_generator.md R171 (2): word 11 is the nonce's, so key words 0 to 6 alone stand in the initial state. -/
theorem initialWords_setKey {s : State} {key : Vector Word 16} (h : ∀ i : Fin 16, i.val < 7 → key[i] = s.key[i]) :
    initialWords { s with key := key } = initialWords s := by
  have hword (k : Nat) (hk : k < 7) : key[k] = s.key[k] := h ⟨k, hk.trans (by decide)⟩ hk
  simp (disch := decide) only [initialWords, hword]

theorem blockWords_congr {s t : State} (h : initialWords t = initialWords s) : blockWords t = blockWords s := by
  simp only [blockWords, h]

/-- Settles O32: both cores build the block from the same initial state. -/
theorem keyWordSevenDoesNotReachTheBlock : Obligations.KeyWordSevenDoesNotReachTheBlock := by
  intro s key hs hkey
  have hs' : { s with key := key }.nonceLen = 16 := hs
  exact ⟨_, _, exec_genblock_of_nonceLen hs, exec_genblock_of_nonceLen hs', blockWords_congr (initialWords_setKey hkey)⟩

end Sys2Proof.Claims
end

section
/-!
PROOFS. SCXOR twice (43_stream_cipher.md R194): the counter restored, the second command combines the same block.
-/

namespace Sys2Proof.Claims

open Sys2Proof.Machine

theorem xorBytes_xorBytes (n : Nat) (db ks : Vector Word 16) : xorBytes n (xorBytes n db ks) ks = db := by
  refine eq_of_getByte_eq _ _ fun k hk => ?_
  rw [getByte_xorBytes _ _ _ _ hk, getByte_xorBytes _ _ _ _ hk]
  split
  · rw [BitVec.xor_assoc, BitVec.xor_self, BitVec.xor_zero]
  · rfl

/-- 42_block_generator.md R172: the block depends on KEY, NONCE and COUNTER alone. -/
theorem currentBlock_congr {s u : State} (hkey : u.key = s.key) (hnonce : u.nonce = s.nonce)
    (hcounter : u.counter = s.counter) : currentBlock u = currentBlock s := by
  simp only [currentBlock, hkey, hnonce, hcounter]

/-- The core after SCXOR has completed and the host has written the old counter back. -/
def rewoundAfterScxor (n : Nat) (s : State) : State := { scxorEffect n s with code := .ok, counter := s.counter }

theorem runHost_scxor_rewind {n : Fin 128} {s : State} (hw : (Instr.scxor n).wellFormed = true) (hn : s.nonceLen = 16)
    (as : List Access) :
    runHost (cmd (.scxor n) :: .write .word 0x010 s.counter :: as) s = runHost as (rewoundAfterScxor n s) := by
  rw [runHost_cmd (exec_scxor_of_checks hw hn), runHost_cons_of_perform (perform_write rfl (by decide) (by decide) _ _)]
  rfl

/-- Settles O34: both commands complete, and combining the same block twice restores the bytes. -/
theorem scxorTwiceRestoresTheData : Obligations.ScxorTwiceRestoresTheData := by
  intro n s hpos hle hn
  have hw : (Instr.scxor n).wellFormed = true := decide_eq_true ⟨hpos, hle⟩
  have hn' : (rewoundAfterScxor n s).nonceLen = 16 := hn
  have hblock : currentBlock (rewoundAfterScxor n s) = currentBlock s := currentBlock_congr rfl rfl rfl
  have hdata : xorBytes n (xorBytes n s.dbuf (currentBlock s)) (currentBlock (rewoundAfterScxor n s)) = s.dbuf := by
    rw [hblock, xorBytes_xorBytes]
  refine ⟨{ scxorEffect n (rewoundAfterScxor n s) with code := .ok, pending := [] }, ?_, rfl, hdata, rfl⟩
  rw [runHost_scxor_rewind hw hn, runHost_cmd (exec_scxor_of_checks hw hn'), runHost_nil]

end Sys2Proof.Claims
end

section
/-!
PROOFS. The host sequence of `apply_keystream` (30_encoding.md R117, 43_stream_cipher.md R193): chunk by chunk, the bytes
read back are those of the message under the block of the chunk's counter.
-/

namespace Sys2Proof.Claims

open Sys2Proof.Machine

/-! ### The chunks of a byte string -/

/-- 43_stream_cipher.md R192. -/
theorem chunks64_of_ne_nil {data : List Byte} (h : data ≠ []) :
    chunks64 data = data.take 64 :: chunks64 (data.drop 64) := by
  have hpos : 0 < data.length := List.length_pos_iff.2 h
  have hcount : (data.length + 63) / 64 = ((data.drop 64).length + 63) / 64 + 1 := by
    rw [List.length_drop]
    omega
  rw [chunks64, hcount, List.range_succ_eq_map, List.map_cons, List.map_map, chunks64]
  congr 1
  refine List.map_congr_left fun j _ => ?_
  rw [Function.comp, List.drop_drop, Nat.succ_eq_add_one, Nat.mul_succ, Nat.add_comm]

/-- 43_stream_cipher.md R193: the first 64 bytes are under the block of the counter, the others under the blocks of the
counters after it. -/
theorem applyKeystream_eq_append (key : Vector Word 16) (nonce : Vector Word 4) (c : Word) (data : List Byte) :
    applyKeystream key nonce c data =
      applyKeystream key nonce c (data.take 64) ++ applyKeystream key nonce (c + 1) (data.drop 64) := by
  conv_lhs => rw [← List.take_append_drop 64 data]
  rw [applyKeystream, List.mapIdx_append]
  refine congrArg (applyKeystream key nonce c (data.take 64) ++ ·) ?_
  by_cases hlen : data.length ≤ 64
  · rw [List.drop_of_length_le hlen, applyKeystream, List.mapIdx_nil, List.mapIdx_nil]
  · have h64 : (data.take 64).length = 64 := by
      rw [List.length_take]
      omega
    have hcounter (j : Nat) : c + BitVec.ofNat 32 ((j + 64) / 64) = c + 1 + BitVec.ofNat 32 (j / 64) := by
      rw [show (j + 64) / 64 = 1 + j / 64 by omega, BitVec.ofNat_add, ← BitVec.add_assoc]
      rfl
    simp only [h64, hcounter, Nat.add_mod_right, applyKeystream]

/-! ### Words read back as bytes -/

theorem wordsToBytes_append (ws vs : List Word) : wordsToBytes (ws ++ vs) = wordsToBytes ws ++ wordsToBytes vs :=
  List.flatMap_append

/-- 20_memory.md R77: the four bytes of a register are BYTES_LE of it. -/
theorem byteSlice_word {n : Nat} (ws : Vector Word n) (i : Nat) :
    byteSlice ws (4 * i) 4 = bytesLE (ws.getD i 0).toNat 4 := by
  refine List.map_congr_left fun j hj => ?_
  have hj4 : j < 4 := List.mem_range.1 hj
  apply BitVec.eq_of_toNat_eq
  rw [getByte, show (4 * i + j) / 4 = i by omega, show (4 * i + j) % 4 = j by omega, extract_byte_toNat,
    BitVec.toNat_ofNat]

theorem wordsToBytes_take {n : Nat} (ws : Vector Word n) {m : Nat} (hm : m ≤ n) :
    wordsToBytes (ws.toList.take m) = byteSlice ws 0 (4 * m) := by
  induction m with
  | zero => rfl
  | succ m ih =>
    have hlast : wordsToBytes [ws[m]] = bytesLE ws[m].toNat 4 := List.flatMap_singleton ..
    rw [List.take_succ_eq_append_getElem (by simpa using hm), wordsToBytes_append, ih (by omega), Nat.mul_succ,
      byteSlice_add, Nat.zero_add, byteSlice_word, getD_eq_getElem _ _ (by omega), Vector.getElem_toList, hlast]

/-- 20_memory.md R77: WORDS_TO_BYTES of a register array is its bytes. -/
theorem wordsToBytes_toList {n : Nat} (ws : Vector Word n) : wordsToBytes ws.toList = byteSlice ws 0 (4 * n) := by
  have h := wordsToBytes_take ws (Nat.le_refl n)
  rwa [List.take_of_length_le (by simp)] at h

/-- 43_stream_cipher.md R190: the bytes of DBUF that a chunk becomes are the chunk under the block. -/
theorem take_byteSlice_xorBytes {p : List Byte} (hp : p.length ≤ 64) (key : Vector Word 16) (nonce : Vector Word 4)
    (c : Word) :
    (byteSlice (xorBytes p.length (pieceRegs p) (block key nonce c)) 0 64).take p.length =
      applyKeystream key nonce c p := by
  refine List.ext_getElem (by simp [applyKeystream, hp]) fun k hk hk' => ?_
  have hkp : k < p.length := by simpa [applyKeystream] using hk'
  have hdiv : k / 64 = 0 := by omega
  have hmod : k % 64 = k := by omega
  have hpiece : getByte (pieceRegs p) k = p[k] := by
    rw [pieceRegs, getByte_ofBytes _ _ (by omega), List.getD_eq_getElem _ _ hkp]
  rw [List.getElem_take, byteSlice_getElem, Nat.zero_add, getByte_xorBytes _ _ _ _ (by omega), if_pos hkp, hpiece]
  simp [applyKeystream, hdiv, hmod]

/-! ### The session -/

section
variable {as : List Access} {Q R : State → Prop} {s : State}

theorem Reaches.mono (h : Reaches as Q s) (hQR : ∀ t, Q t → R t) : Reaches as R s := by
  obtain ⟨hok, t, hrun, ht⟩ := h
  exact ⟨hok, t, hrun, hQR t ht⟩

theorem reaches_read {addr : Nat} (ha : addr % 4 = 0) (hr : addr < 0x400) (h : Reaches as Q (readAccess addr s)) :
    Reaches (.read .word addr :: as) Q s :=
  reaches_cons (perform_read ha hr s) (fun ⟨_, hw⟩ => nomatch hw) h

theorem readAccess_dbuf_word (i : Fin 16) (s : State) :
    readAccess (0x1C0 + 4 * i.val) s = { s with returned := s.dbuf[i] :: s.returned } := by
  rw [readAccess, busRead_dbuf]

theorem reaches_reads_dbuf (l : List (Fin 16))
    (h : Reaches as Q { s with returned := (l.map (s.dbuf[·])).reverse ++ s.returned }) :
    Reaches (l.map (fun i => .read .word (0x1C0 + 4 * i.val)) ++ as) Q s := by
  induction l generalizing s with
  | nil => exact h
  | cons i l ih =>
    refine reaches_read (by omega) (by omega) ?_
    rw [readAccess_dbuf_word]
    refine ih ?_
    simpa using h

theorem reaches_readData (h : Reaches as Q { s with returned := s.dbuf.toList.reverse ++ s.returned }) :
    Reaches (readData ++ as) Q s := by
  have hreads : readData = (List.finRange 16).map fun i => .read .word (0x1C0 + 4 * i.val) := by
    rw [readData, ← List.map_coe_finRange_eq_range, List.map_map]
    rfl
  have hwords : (List.finRange 16).map (s.dbuf[·]) = s.dbuf.toList := by
    refine List.ext_getElem (by simp) fun k _ _ => ?_
    simp
  rw [hreads]
  refine reaches_reads_dbuf _ ?_
  rwa [hwords]

end

/-- What the session has done so far: `k` blocks used, the words `ws` read back, the cipher's other registers and ERR as
they were. -/
structure KeystreamUsed (s u : State) (k : Nat) (ws : List Word) : Prop where
  key : u.key = s.key
  nonce : u.nonce = s.nonce
  nonceLen : u.nonceLen = s.nonceLen
  err : u.err = s.err
  counter : u.counter = s.counter + BitVec.ofNat 32 k
  returned : u.returned = ws.reverse ++ s.returned

theorem KeystreamUsed.trans {s t u : State} {j k : Nat} {ws vs : List Word} (h1 : KeystreamUsed s t j ws)
    (h2 : KeystreamUsed t u k vs) : KeystreamUsed s u (j + k) (ws ++ vs) where
  key := h2.key.trans h1.key
  nonce := h2.nonce.trans h1.nonce
  nonceLen := h2.nonceLen.trans h1.nonceLen
  err := h2.err.trans h1.err
  counter := by rw [h2.counter, h1.counter, BitVec.ofNat_add, BitVec.add_assoc]
  returned := by rw [h2.returned, h1.returned, List.reverse_append, List.append_assoc]

/-- The words that a chunk becomes under the block of the current counter. -/
def chunkWords (s : State) (p : List Byte) : Vector Word 16 :=
  xorBytes p.length (pieceRegs p) (block s.key s.nonce s.counter)

/-- 30_encoding.md R117: one chunk, written, combined and read back. -/
theorem reaches_chunk {as : List Access} {Q : State → Prop} {s : State} {p : List Byte} (hpos : 0 < p.length)
    (hle : p.length ≤ 64) (hs : s.nonceLen = 16)
    (h : ∀ u, KeystreamUsed s u 1 (chunkWords s p).toList → Reaches as Q u) :
    Reaches (loadData p ++ [cmd (.scxor (Fin.ofNat 128 p.length))] ++ readData ++ as) Q s := by
  have hn : (Fin.ofNat 128 p.length).val = p.length := Nat.mod_eq_of_lt (by omega)
  have hw : (Instr.scxor (Fin.ofNat 128 p.length)).wellFormed = true := decide_eq_true (by omega)
  rw [List.append_assoc, List.append_assoc]
  refine reaches_loadData ?_
  have hexec : exec (.scxor (Fin.ofNat 128 p.length)) { s with dbuf := pieceRegs p } =
      completes (scxorEffect p.length { s with dbuf := pieceRegs p }) := by
    have hloaded := exec_scxor_of_checks (s := { s with dbuf := pieceRegs p }) hw hs
    rwa [hn] at hloaded
  exact reaches_cmd (decode_encode _) hexec (reaches_readData (h _ ⟨rfl, rfl, rfl, rfl, rfl, rfl⟩))

/-- What the session over `data` leaves: its bytes read back, and the counter advanced by its chunks. -/
def HasApplied (data : List Byte) (s t : State) : Prop :=
  ∃ ws, KeystreamUsed s t ((data.length + 63) / 64) ws ∧ ws.length = 16 * (chunks64 data).length ∧
    (wordsToBytes ws).take data.length = applyKeystream s.key s.nonce s.counter data

theorem hasApplied_nil (s : State) : HasApplied [] s { s with pending := [] } :=
  ⟨[], ⟨rfl, rfl, rfl, rfl, (BitVec.add_zero _).symm, rfl⟩, rfl, rfl⟩

theorem hasApplied_cons {data : List Byte} (hne : data ≠ []) {s u t : State}
    (hfirst : KeystreamUsed s u 1 (chunkWords s (data.take 64)).toList) (hrest : HasApplied (data.drop 64) u t) :
    HasApplied data s t := by
  obtain ⟨ws, hused, hlen, hbytes⟩ := hrest
  have hcount : (data.length + 63) / 64 = 1 + ((data.drop 64).length + 63) / 64 := by
    have hpos : 0 < data.length := List.length_pos_iff.2 hne
    rw [List.length_drop]
    omega
  refine ⟨_, hcount ▸ hfirst.trans hused, ?_, ?_⟩
  · rw [chunks64_of_ne_nil hne, List.length_append, hlen, List.length_cons, Vector.length_toList]
    omega
  · have hchunk : (byteSlice (chunkWords s (data.take 64)) 0 64).take data.length =
        applyKeystream s.key s.nonce s.counter (data.take 64) := by
      rw [List.take_eq_take_min, byteSlice_length, Nat.min_comm, ← List.length_take]
      exact take_byteSlice_xorBytes (List.length_take_le ..) ..
    rw [List.length_drop, hfirst.key, hfirst.nonce, hfirst.counter] at hbytes
    rw [wordsToBytes_append, wordsToBytes_toList, List.take_append, byteSlice_length, hchunk, hbytes,
      applyKeystream_eq_append s.key s.nonce s.counter data]
    rfl

theorem reaches_keystreamSession (data : List Byte) {s : State} (hs : s.nonceLen = 16) :
    Reaches (keystreamSession data) (HasApplied data s) s := by
  induction hk : (data.length + 63) / 64 generalizing data s with
  | zero =>
    obtain rfl : data = [] := List.length_eq_zero_iff.1 (by omega)
    exact reaches_nil (hasApplied_nil s)
  | succ k ih =>
    have hne : data ≠ [] := by
      rintro rfl
      cases hk
    have hpos : 0 < data.length := List.length_pos_iff.2 hne
    rw [keystreamSession, chunks64_of_ne_nil hne, List.flatMap_cons]
    refine reaches_chunk (by rw [List.length_take]; omega) (by simp) hs fun u hu => ?_
    refine (ih (data.drop 64) (hu.nonceLen.trans hs) (by rw [List.length_drop]; omega)).mono fun _ => hasApplied_cons hne hu

/-- Settles O35: the session has applied the keystream to its bytes. -/
theorem keystreamSessionComputesApplyKeystream : Obligations.KeystreamSessionComputesApplyKeystream := by
  intro data s hs
  obtain ⟨hok, t, hrun, ws, hused, hlen, hbytes⟩ := reaches_keystreamSession data hs
  refine ⟨hok, t, hrun, hused.err, ?_, hused.counter⟩
  have hreturned : t.returned = ws.reverse ++ s.returned := hused.returned
  rw [hreturned, List.take_left' (by rw [List.length_reverse, hlen]), List.reverse_reverse, hbytes]

end Sys2Proof.Claims
end

section
/-!
PROOFS. The value laws of the engine and the reducer (44_limb_engine.md R216, 45_modular_reducer.md R235), and a block of
value 0 on an empty accumulator.
-/

namespace Sys2Proof.Claims

open Sys2Proof.Machine

/-- Settles O38: Process is canonical, so below `2^K`, and multiplies mod P. -/
theorem processMultipliesModuloP : Obligations.ProcessMultipliesModuloP := by
  intro var h r v hh hr
  obtain ⟨hcanon, hlen⟩ := process_canonical var h r v
  exact ⟨hcanon, hlen, limbValue_lt_valueBits hcanon hlen, limbValue_process v hh hr⟩

/-- Settles O39: FinalReduce is canonical and holds the least residue. -/
theorem finalReduceIsTheLeastResidue : Obligations.FinalReduceIsTheLeastResidue := fun _ _ => finalReduce_eq_limbs

/-! ### Zero blocks -/

theorem limbValue_eq_zero {b : Nat} {x : List Nat} (h : ∀ l ∈ x, l = 0) : limbValue b x = 0 := by
  induction x with
  | nil => rfl
  | cons l x ih =>
    obtain ⟨hl, hx⟩ := List.forall_mem_cons.1 h
    rw [limbValue, hl, ih hx, Nat.mul_zero]

theorem limbsOf_zero (var : Variant) : limbsOf var (Vector.replicate 6 0) = limbs var 0 := by
  cases var <;> decide

theorem limbRegs_limbs_zero (var : Variant) : limbRegs (limbs var 0) = Vector.replicate 6 0 := by
  cases var <;> decide

theorem mulR_zero {N : Nat} (hN : N ≠ 0) {a : List Nat} (ha : ∀ l ∈ a, l = 0) (r : List Nat) :
    ∀ d ∈ mulR N a r, d = 0 := by
  intro d hd
  have hr : ∀ l ∈ r, l ≤ r.sum := fun l hl => List.single_le_sum (fun _ _ => Nat.zero_le _) l hl
  have hle := mulR_le (A := 0) (fun l hl => (ha l hl).le) hr hN d hd
  rwa [Nat.zero_mul, Nat.mul_zero, Nat.le_zero] at hle

/-- 46_mac.md R270 (2): a block of value 0 leaves an empty accumulator empty, whatever the multiplier. -/
theorem process_zero (var : Variant) (r : List Nat) : process var (limbs var 0) r 0 = limbs var 0 := by
  have hzero : toLimbs var 0 = limbs var 0 := toLimbs_eq_limbs_of_lt (Nat.two_pow_pos _)
  have hsum : ∀ l ∈ accumulate (limbs var 0) (toLimbs var 0), l = 0 := by
    rw [hzero]
    intro l hl
    obtain ⟨i, hi, rfl⟩ := List.mem_iff_getElem.1 hl
    simp [accumulate, limbs]
  have hmul := limbValue_eq_zero (b := limbBits var) (mulR_zero (limbCount_ne_zero var) hsum r)
  have hval : limbValue (limbBits var) (process var (limbs var 0) r 0) = 0 := by
    rw [process, normalize_value_of_lt var _ (mulR_length ..) (by rw [hmul]; exact Nat.two_pow_pos _), hmul]
  obtain ⟨hcanon, hlen⟩ := process_canonical var (limbs var 0) r 0
  refine canonical_ext hcanon (limbs_canonical var 0) (hlen.trans (limbs_length var 0).symm) ?_
  rw [hval, limbValue_limbs, Nat.zero_mod]

end Sys2Proof.Claims
end

section
/-!
PROOFS. What a MACWRITE makes of a slot (46_mac.md R254, R255): bytes that do not fill the block are put into the buffer at
COUNT, and the byte that fills it makes the engine process the block.
-/

namespace Sys2Proof.Claims

open Sys2Proof.Machine

/-- Byte `k` of a buffer after the bytes of `xs` have been put into it at `start`. -/
def bufferedByte (buf : Vector Word 6) (start : Nat) (xs : List Byte) (k : Nat) : Byte :=
  if start ≤ k ∧ k < start + xs.length then xs.getD (k - start) 0 else getByte buf k

/-- The slot with the bytes of `xs` put into its buffer. -/
def buffered (I : MacInst) (xs : List Byte) : MacInst :=
  { I with buf := ofBytes (bufferedByte I.buf I.count.toNat xs), count := I.count + BitVec.ofNat 5 xs.length }

section
variable {I : MacInst} {xs : List Byte}

theorem blockBytes_le (var : Variant) : blockBytes var ≤ 24 := by cases var <;> decide

theorem buffered_count (h : I.count.toNat + xs.length < 32) : (buffered I xs).count.toNat = I.count.toNat + xs.length := by
  rw [buffered, BitVec.toNat_add, BitVec.toNat_ofNat]
  omega

theorem getByte_buffered_buf {k : Nat} (hk : k < 24) :
    getByte (buffered I xs).buf k = bufferedByte I.buf I.count.toNat xs k :=
  getByte_ofBytes _ _ hk

theorem buffered_nil (I : MacInst) : buffered I [] = I := by
  have hbytes : bufferedByte I.buf I.count.toNat [] = getByte I.buf := by
    funext k
    exact if_neg (by simp)
  simp [buffered, hbytes]

theorem bufferedByte_append_last (buf : Vector Word 6) (start : Nat) (xs : List Byte) (x : Byte) (k : Nat) :
    bufferedByte buf start (xs ++ [x]) k = if k = start + xs.length then x else bufferedByte buf start xs k := by
  unfold bufferedByte
  by_cases hlast : k = start + xs.length
  · subst hlast
    simp
  have hlen : k < start + (xs ++ [x]).length ↔ k < start + xs.length := by
    rw [List.length_append, List.length_singleton]
    omega
  simp only [if_neg hlast, hlen]
  split
  · next hin => rw [List.getD_append _ _ _ _ (by omega)]
  · rfl

/-- 46_mac.md R254: one byte more that does not fill the block. -/
theorem absorbByte_buffered {x : Byte} (h : I.count.toNat + xs.length + 1 < blockBytes I.var) :
    absorbByte (buffered I xs) x = buffered I (xs ++ [x]) := by
  have h24 := blockBytes_le I.var
  have hcount := buffered_count (I := I) (xs := xs) (by omega)
  have hpartial : (buffered I xs).count.toNat + 1 ≠ blockBytes (buffered I xs).var := by
    rw [hcount]
    exact Nat.ne_of_lt h
  have hbuf : setByte (buffered I xs).buf (buffered I xs).count.toNat x = (buffered I (xs ++ [x])).buf := by
    refine eq_of_getByte_eq _ _ fun k hk => ?_
    rw [getByte_setByte _ _ _ _ hk, hcount, getByte_buffered_buf hk, getByte_buffered_buf hk, bufferedByte_append_last]
  have hcount' : (buffered I xs).count + 1 = (buffered I (xs ++ [x])).count := by
    simp only [buffered, List.length_append, List.length_singleton, BitVec.ofNat_add, BitVec.add_assoc]
    rfl
  rw [absorbByte_partial x hpartial, hbuf, hcount']
  rfl

/-- 46_mac.md R254: bytes that do not fill the block are only buffered. -/
theorem absorb_eq_buffered (h : I.count.toNat + xs.length < blockBytes I.var) : absorb I xs = buffered I xs := by
  induction xs using List.reverseRecOn with
  | nil => exact (buffered_nil I).symm
  | append_singleton xs x ih =>
    rw [List.length_append, List.length_singleton, ← Nat.add_assoc] at h
    rw [absorb_append, ih (by omega), absorb_cons, absorb_nil, absorbByte_buffered h]

/-- The buffer up to COUNT is what it was, then the bytes put into it. -/
theorem byteSlice_buffered (h : I.count.toNat + xs.length ≤ 24) :
    byteSlice (buffered I xs).buf 0 (I.count.toNat + xs.length) = byteSlice I.buf 0 I.count.toNat ++ xs := by
  refine List.ext_getElem (by simp) fun k hk hk' => ?_
  have hk24 : k < 24 := by
    rw [byteSlice_length] at hk
    omega
  rw [byteSlice_getElem, Nat.zero_add, getByte_buffered_buf hk24, bufferedByte]
  by_cases hlt : k < I.count.toNat
  · rw [if_neg (by omega), List.getElem_append_left (by simpa using hlt), byteSlice_getElem, Nat.zero_add]
  · rw [byteSlice_length] at hk
    rw [if_pos (by omega), List.getElem_append_right (by simpa using hlt), List.getD_eq_getElem _ _ (by omega)]
    simp

/-- 46_mac.md R254, R255: the bytes that fill the block make the engine process it. -/
theorem absorb_full (hlt : I.count.toNat < blockBytes I.var) (h : I.count.toNat + xs.length = blockBytes I.var) :
    absorb I xs = { I with
      h := processedH I (leInt (byteSlice I.buf 0 I.count.toNat ++ xs))
      buf := Vector.replicate 6 0
      count := 0 } := by
  have h24 := blockBytes_le I.var
  obtain rfl | ⟨ys, x, rfl⟩ := List.eq_nil_or_concat' xs
  · exact absurd h hlt.ne
  rw [List.length_append, List.length_singleton, ← Nat.add_assoc] at h
  have hcount := buffered_count (I := I) (xs := ys) (by omega)
  have hfull : (buffered I ys).count.toNat + 1 = blockBytes (buffered I ys).var := by
    rw [hcount]
    exact h
  have hblock : byteSlice (setByte (buffered I ys).buf (buffered I ys).count.toNat x) 0 (blockBytes (buffered I ys).var) =
      byteSlice I.buf 0 I.count.toNat ++ (ys ++ [x]) := by
    rw [← hfull, hcount, byteSlice_setByte_last _ (by omega), byteSlice_buffered (by omega), List.append_assoc]
  rw [absorb_append, absorb_eq_buffered (xs := ys) (by omega), absorb_cons, absorb_nil, absorbByte_full x hfull, hblock]
  rfl

end

/-! ### MACWRITE on Active slots -/

theorem byteSlice_zero_eq_map {n : Nat} (ws : Vector Word n) (len : Nat) :
    byteSlice ws 0 len = (List.range len).map (getByte ws) := by
  simp only [byteSlice, Nat.zero_add]

theorem ne_zero_of_selected {sel : Fin 4} {m : Fin 2} (h : selected sel m = true) : sel ≠ 0 := by
  rintro rfl
  exact Bool.false_ne_true (((selected_none_iff 0).2 rfl m).symm.trans h)

/-- 46_mac.md R256: the command completes, and a selected slot has absorbed the bytes. -/
theorem exec_macwrite_selected {sel : Fin 4} {n : Fin 128} {s : State} {m : Fin 2} (hn : n.val ≤ 64)
    (hact : SelectedActive sel s) (hsel : selected sel m = true) :
    ∃ t, exec (.macwrite sel n) s = .next t ∧ macOf t m = absorb (macOf s m) (byteSlice s.dbuf 0 n.val) := by
  have hw : (Instr.macwrite sel n).wellFormed = true := decide_eq_true ⟨ne_zero_of_selected hsel, hn⟩
  exact ⟨_, exec_macwrite hw hact, (macOf_macwriteState sel n s m).trans (if_pos hsel)⟩

/-- Settles O41: the effect of MACWRITE, its bytes written out. -/
theorem macwriteAbsorbsIntoSelected : Obligations.MacwriteAbsorbsIntoSelected := by
  intro sel n s hsel hn hact
  rw [exec_macwrite (decide_eq_true ⟨hsel, hn⟩) hact, ← byteSlice_zero_eq_map]
  rfl

/-- Settles O42: the slot is the one with the bytes put into its buffer. -/
theorem shortWriteOnlyBuffers : Obligations.ShortWriteOnlyBuffers := by
  intro sel n s m hn hact hsel hshort
  obtain ⟨t, ht, hslot⟩ := exec_macwrite_selected hn hact hsel
  have h24 := blockBytes_le (macOf s m).var
  have hlen : (byteSlice s.dbuf 0 n.val).length = n.val := byteSlice_length ..
  rw [absorb_eq_buffered (by rwa [hlen])] at hslot
  refine ⟨t, _, _, ht, hslot, ?_, fun k hk => ?_⟩
  · exact (buffered_count (by rw [hlen]; omega)).trans (by rw [hlen])
  · refine (getByte_buffered_buf hk).trans ?_
    rw [bufferedByte, hlen]
    split
    · rw [List.getD_eq_getElem _ _ (by rw [hlen]; omega), byteSlice_getElem, Nat.zero_add]
    · rfl

/-- Settles O43: the bytes fill the block, which the engine processes. -/
theorem fullBlockIsProcessedAtOnce : Obligations.FullBlockIsProcessedAtOnce := by
  intro sel n s m hn hact hsel hlt hfull
  obtain ⟨t, ht, hslot⟩ := exec_macwrite_selected hn hact hsel
  exact ⟨t, ht, hslot.trans (absorb_full hlt (by rwa [byteSlice_length]))⟩

end Sys2Proof.Claims
end

section
/-!
PROOFS. The tag of a MAC session (46_mac.md R266, 47_dual_mac.md R294): one slot leaves the tag of its key half, two leave
both, each from its own half alone.
-/

namespace Sys2Proof.Claims

open Sys2Proof.Machine

/-! ### One slot -/

/-- The value of SEL that selects slot `m` alone. -/
def onlySel (m : Fin 2) : Fin 4 := if m = 0 then 1 else 2

theorem onlySel_ne_zero (m : Fin 2) : onlySel m ≠ 0 := by revert m; decide

theorem onlySel_ne_three (m : Fin 2) : onlySel m ≠ 3 := by revert m; decide

theorem selected_onlySel (m : Fin 2) : selected (onlySel m) m = true := by revert m; decide

/-- 46_mac.md R265: the tag of the one selected slot fills TAG from byte 0. -/
theorem getByte_placeTag_onlySel (m : Fin 2) (u : State) {k : Nat} (hk : k < 32) :
    getByte (placeTag (onlySel m) (instanceTag u.mac0) (instanceTag u.mac1)) k = (instanceTag (macOf u m)).getD k 0 := by
  rw [getByte_placeTag _ _ _ _ hk]
  match m with
  | 0 => rfl
  | 1 => rfl

/-- Settles O46: the selected slot has absorbed the message, so its tag is the value law's. -/
theorem macSessionMeetsTheValueLaw : Obligations.MacSessionMeetsTheValueLaw := by
  intro m var mod pieces s hvar hmod hlen
  have hwf : (Instr.macinit (onlySel m) var mod).wellFormed = true := decide_eq_true ⟨onlySel_ne_zero m, hvar, hmod⟩
  refine (reaches_macSession hwf (fun h => absurd h (onlySel_ne_three m)) hlen s).mono ?_
  rintro t ⟨hcode, herr, u, hu, htag⟩
  refine ⟨hcode, herr, fun k hk => ?_⟩
  rw [htag, getByte_placeTag_onlySel m u hk, hu m (selected_onlySel m), instanceTag_absorb_freshInstance]
  rfl

/-! ### The two halves of the dual tag -/

/-- Two keys agree on the words of half `m` (10_state.md R28). -/
def AgreeOnHalf (key key' : Vector Word 16) (m : Fin 2) : Prop :=
  ∀ i : Fin 16, 8 * m.val ≤ i.val → i.val < 8 * m.val + 8 → key'[i] = key[i]

section
variable {key key' : Vector Word 16} {m : Fin 2} (h : AgreeOnHalf key key' m)
include h

theorem getByte_eq_of_agreeOnHalf {k : Nat} (hlo : 32 * m.val ≤ k) (hhi : k < 32 * m.val + 32) :
    getByte key' k = getByte key k := by
  have hi : k / 4 < 16 := by omega
  have hword : key'[k / 4] = key[k / 4] := h ⟨k / 4, hi⟩ (by dsimp only; omega) (by dsimp only; omega)
  rw [getByte, getByte, getD_eq_getElem _ _ hi, getD_eq_getElem _ _ hi, hword]

theorem keyMultiplier_eq_of_agreeOnHalf (var : Variant) : keyMultiplier var key' m = keyMultiplier var key m := by
  have hbytes : byteSlice key' (32 * m.val) 16 = byteSlice key (32 * m.val) 16 :=
    List.map_congr_left fun k hk => by
      have hk16 : k < 16 := List.mem_range.1 hk
      exact getByte_eq_of_agreeOnHalf h (by omega) (by omega)
  rw [keyMultiplier, keyMultiplier, hbytes]

theorem keyPad_eq_of_agreeOnHalf : keyPad key' m = keyPad key m := by
  have hbytes : byteSlice key' (32 * m.val + 16) 16 = byteSlice key (32 * m.val + 16) 16 :=
    List.map_congr_left fun k hk => by
      have hk16 : k < 16 := List.mem_range.1 hk
      exact getByte_eq_of_agreeOnHalf h (by omega) (by omega)
  rw [keyPad, keyPad, hbytes]

/-- 47_dual_mac.md R294: the tag of a half depends on that half alone. -/
theorem macTag_eq_of_agreeOnHalf (var : Variant) (mod : Bool) (M : List Byte) :
    macTag var mod (keyMultiplier var key' m) (keyPad key' m) M =
      macTag var mod (keyMultiplier var key m) (keyPad key m) M := by
  rw [keyMultiplier_eq_of_agreeOnHalf h, keyPad_eq_of_agreeOnHalf h]

end

/-- A byte of TAG is the byte of the two tags side by side. -/
theorem getByte_eq_of_doubleMac {T : Vector Word 8} {key : Vector Word 16} {M : List Byte}
    (h : (List.range 32).map (getByte T) = doubleMac key M) {k : Nat} (hk : k < 32) :
    getByte T k = (doubleMac key M).getD k 0 := by
  rw [← h]
  simp [hk]

theorem doubleMac_getD_first (key : Vector Word 16) (M : List Byte) {k : Nat} (hk : k < 16) :
    (doubleMac key M).getD k 0 = (macTag .v130 false (keyMultiplier .v130 key 0) (keyPad key 0) M).getD k 0 :=
  List.getD_append _ _ _ _ (by rw [macTag_length]; exact hk)

theorem doubleMac_getD_second (key : Vector Word 16) (M : List Byte) (k : Nat) :
    (doubleMac key M).getD (16 + k) 0 = (macTag .v130 false (keyMultiplier .v130 key 1) (keyPad key 1) M).getD k 0 := by
  have hlen : (macTag .v130 false (keyMultiplier .v130 key 0) (keyPad key 0) M).length = 16 := macTag_length ..
  rw [doubleMac, List.getD_append_right _ _ _ _ (by omega), hlen, Nat.add_sub_cancel_left]

/-- Settles O48: the session leaves two tags side by side, each of its own key half. -/
theorem dualTagHalvesAreIndependent : Obligations.DualTagHalvesAreIndependent := by
  intro pieces s key hlen
  obtain ⟨-, t, hrun, -, -, ht⟩ := reaches_doubleMac hlen s
  obtain ⟨-, u, hrun', -, -, hu⟩ := reaches_doubleMac hlen { s with key := key }
  refine ⟨t, u, hrun, hrun', fun hkey k hk => ?_, fun hkey k hk => ?_⟩
  · have hhalf : AgreeOnHalf s.key key 0 := fun i _ hi => hkey i (by simpa using hi)
    rw [getByte_eq_of_doubleMac hu (by omega), getByte_eq_of_doubleMac ht (by omega), doubleMac_getD_first _ _ hk,
      doubleMac_getD_first _ _ hk, macTag_eq_of_agreeOnHalf hhalf]
  · have hhalf : AgreeOnHalf s.key key 1 := fun i hi _ => hkey i (by simpa using hi)
    rw [getByte_eq_of_doubleMac hu (by omega), getByte_eq_of_doubleMac ht (by omega), doubleMac_getD_second,
      doubleMac_getD_second, macTag_eq_of_agreeOnHalf hhalf]

end Sys2Proof.Claims
end

section
/-!
PROOFS. The pieces of a message on any state (46_mac.md R267): where every selected slot is Active they are absorbed, and
otherwise each MACWRITE fails and changes no slot; so the slots depend on the pieces through the message alone.
-/

namespace Sys2Proof.Claims

open Sys2Proof.Machine

/-- Slot `m` after the bytes of `M` have been written with SEL. -/
def absorbActive (sel : Fin 4) (M : List Byte) (s : State) (m : Fin 2) : MacInst :=
  if selected sel m = true ∧ SelectedActive sel s then absorb (macOf s m) M else macOf s m

/-- From `s` to `u` the bytes of `M` have been written with SEL. -/
structure Written (sel : Fin 4) (M : List Byte) (s u : State) : Prop where
  slot : ∀ m : Fin 2, macOf u m = absorbActive sel M s m
  tag : u.tag = s.tag

section
variable {sel : Fin 4} {M L : List Byte} {s t u : State}

theorem Written.refl (sel : Fin 4) (s : State) : Written sel [] s s :=
  ⟨fun m => by rw [absorbActive, absorb_nil, ite_self], rfl⟩

theorem Written.configured (h : Written sel M s u) (m : Fin 2) : (macOf u m).configured = (macOf s m).configured := by
  rw [h.slot, absorbActive, apply_ite MacInst.configured, absorb_configured, ite_self]

theorem Written.finalized (h : Written sel M s u) (m : Fin 2) : (macOf u m).finalized = (macOf s m).finalized := by
  rw [h.slot, absorbActive, apply_ite MacInst.finalized, absorb_finalized, ite_self]

theorem Written.selectedActive_iff (h : Written sel M s u) : SelectedActive sel u ↔ SelectedActive sel s := by
  simp only [SelectedActive, h.configured, h.finalized]

theorem Written.trans (h1 : Written sel M s t) (h2 : Written sel L t u) : Written sel (M ++ L) s u where
  slot m := by
    simp only [h2.slot, absorbActive, h1.selectedActive_iff, h1.slot]
    split
    · rw [absorb_append]
    · rfl
  tag := h2.tag.trans h1.tag

/-- What has been written depends on the slots and TAG of the state it starts from. -/
theorem Written.of_same_slots (h : Written sel M t u) (hslot : ∀ m, macOf t m = macOf s m) (htag : t.tag = s.tag) :
    Written sel M s u where
  slot m := by simp only [h.slot, absorbActive, SelectedActive, hslot]
  tag := h.tag.trans htag

/-- 46_mac.md R256: a MACWRITE of at most 64 bytes, whether it fails or completes. -/
theorem written_of_macwrite {n : Fin 128} (hn : n.val ≤ 64) (h : exec (.macwrite sel n) s = .next t) :
    Written sel (byteSlice s.dbuf 0 n.val) s t := by
  obtain ⟨e, hfail, rfl⟩ | ⟨hpass, rfl⟩ := exec_next_cases h
  · refine ⟨fun m => (if_neg ?_).symm, rfl⟩
    rintro ⟨hsel, hact⟩
    have hw : (Instr.macwrite sel n).wellFormed = true := decide_eq_true ⟨ne_zero_of_selected hsel, hn⟩
    cases hfail.symm.trans (failedCheck_macwrite_eq_none_iff.2 ⟨hw, hact⟩)
  · obtain ⟨-, hact⟩ := failedCheck_macwrite_eq_none_iff.1 hpass
    refine ⟨fun m => (macOf_macwriteState sel n s m).trans ?_, rfl⟩
    have hactive : (selected sel m = true ∧ SelectedActive sel s) ↔ selected sel m = true := and_iff_left hact
    simp only [absorbActive, hactive]

theorem runHost_loadData (p : List Byte) (as : List Access) (s : State) :
    runHost (loadData p ++ as) s = runHost as { s with dbuf := pieceRegs p } := by
  have hloaded : Reaches (loadData p ++ []) (· = { s with dbuf := pieceRegs p, pending := [] }) s :=
    reaches_loadData (reaches_nil rfl)
  obtain ⟨-, t, hrun, rfl⟩ := hloaded
  rw [List.append_nil] at hrun
  rw [runHost_append hrun]
  rfl

theorem runHost_piece {p : List Byte} (hp : p.length ≤ 64) (s : State) :
    ∃ u, Written sel p s u ∧ ∀ as,
      runHost (loadData p ++ [cmd (.macwrite sel (Fin.ofNat 128 p.length))] ++ as) s = runHost as u := by
  have hn : (Fin.ofNat 128 p.length).val = p.length := Nat.mod_eq_of_lt (by omega)
  obtain ⟨u, hu⟩ := exec_next (.macwrite sel (Fin.ofNat 128 p.length)) { s with dbuf := pieceRegs p }
  have hwritten := written_of_macwrite (hn.trans_le hp) hu
  rw [hn, byteSlice_pieceRegs hp] at hwritten
  refine ⟨u, hwritten.of_same_slots (macOf_congr rfl rfl) rfl, fun as => ?_⟩
  rw [List.append_assoc, runHost_loadData, List.singleton_append, runHost_cmd_next hu]

theorem runHost_pieces {pieces : List (List Byte)} (hlen : ∀ p ∈ pieces, p.length ≤ 64) (s : State) :
    ∃ u, Written sel pieces.flatten s u ∧ ∀ as,
      runHost (pieces.flatMap (fun p => loadData p ++ [cmd (.macwrite sel (Fin.ofNat 128 p.length))]) ++ as) s =
        runHost as u := by
  induction pieces generalizing s with
  | nil => exact ⟨s, .refl sel s, fun as => rfl⟩
  | cons p pieces ih =>
    obtain ⟨hp, hlen⟩ := List.forall_mem_cons.1 hlen
    obtain ⟨t, ht, hrun⟩ := runHost_piece (sel := sel) hp s
    obtain ⟨u, hu, hrun'⟩ := ih hlen t
    refine ⟨u, ht.trans hu, fun as => ?_⟩
    rw [List.flatMap_cons, List.append_assoc, hrun, hrun']

end

/-- 46_mac.md R264: MACFINAL reads the slots and TAG alone. -/
theorem macfinal_congr {sel : Fin 4} {u v t t' : State} (h0 : v.mac0 = u.mac0) (h1 : v.mac1 = u.mac1)
    (htag : v.tag = u.tag) (hu : exec (.macfinal sel) u = .next t) (hv : exec (.macfinal sel) v = .next t') :
    t'.mac0 = t.mac0 ∧ t'.mac1 = t.mac1 ∧ t'.tag = t.tag := by
  have hconf : someUnconfigured sel v = someUnconfigured sel u := by simp only [someUnconfigured, someSelected, h0, h1]
  have hfin : someFinalized sel v = someFinalized sel u := by simp only [someFinalized, someSelected, h0, h1]
  have hdual : dualMismatch sel v = dualMismatch sel u := by simp only [dualMismatch, h0, h1]
  have hcheck : failedCheck (.macfinal sel) v = failedCheck (.macfinal sel) u := by
    simp only [failedCheck, hconf, hfin, hdual]
  obtain ⟨e, hfail, rfl⟩ | ⟨hpass, rfl⟩ := exec_next_cases hu
  · rw [exec_of_failedCheck (hcheck.trans hfail)] at hv
    cases hv
    exact ⟨h0, h1, htag⟩
  · rw [exec_of_passed (hcheck.trans hpass)] at hv
    cases hv
    simp only [commandEffect, macfinalState, updateSelected_mac0, updateSelected_mac1, updateSelected_tag, h0, h1,
      and_self]

/-- Settles O49: after the same MACINIT both splits leave the slots with the same message written, and MACFINAL reads no
more than the slots and TAG. -/
theorem messageSplitDoesNotMatter : Obligations.MessageSplitDoesNotMatter := by
  intro sel var mod p q s hp hq hpq
  obtain ⟨i, hi⟩ := exec_next (.macinit sel var mod) s
  obtain ⟨up, hup, hrunp⟩ := runHost_pieces (sel := sel) hp i
  obtain ⟨uq, huq, hrunq⟩ := runHost_pieces (sel := sel) hq i
  obtain ⟨t, ht⟩ := exec_next (.macfinal sel) up
  obtain ⟨u, hu⟩ := exec_next (.macfinal sel) uq
  have hslot (m : Fin 2) : macOf uq m = macOf up m := by rw [huq.slot, hup.slot, hpq]
  have hsame := macfinal_congr (hslot 0) (hslot 1) (huq.tag.trans hup.tag.symm) ht hu
  refine ⟨{ t with pending := [] }, { u with pending := [] }, ?_, ?_, hsame⟩
  · rw [macSession, List.cons_append, runHost_cmd_next hi, hrunp, runHost_cmd_next ht, runHost_nil]
  · rw [macSession, List.cons_append, runHost_cmd_next hi, hrunq, runHost_cmd_next hu, runHost_nil]

end Sys2Proof.Claims
end

section
/-!
PROOFS. A first block of zero bytes (46_mac.md R270 (2)), and SEL = 3 as the two single commands (47_dual_mac.md R292,
R295).
-/

namespace Sys2Proof.Claims

open Sys2Proof.Machine

/-! ### The zero block -/

theorem byteSlice_pieceRegs_nil (n : Nat) : byteSlice (pieceRegs []) 0 n = List.replicate n 0 := by
  refine List.ext_getElem (by simp) fun k _ _ => ?_
  rw [byteSlice_getElem, Nat.zero_add, List.getElem_replicate]
  by_cases hk : k < 4 * 16
  · rw [pieceRegs, getByte_ofBytes _ _ hk, List.getD_nil]
  · exact getByte_of_le _ _ (by omega)

theorem absorb_zeroBlock (var : Variant) (mod : Bool) (key : Vector Word 16) (m : Fin 2) :
    absorb (freshInstance var mod key m) (List.replicate (blockBytes var) 0) = freshInstance var mod key m := by
  have hcount : (freshInstance var mod key m).count.toNat = 0 := rfl
  have hh : limbsOf var (freshInstance var mod key m).h = limbs var 0 := limbsOf_zero var
  rw [absorb_full (by rw [hcount]; exact blockBytes_pos _) (by rw [hcount, List.length_replicate, Nat.zero_add]; rfl),
    hcount, processedH]
  have hblock : leInt (byteSlice (freshInstance var mod key m).buf 0 0 ++ List.replicate (blockBytes var) 0) = 0 :=
    leInt_replicate_zero _
  rw [hblock, freshInstance_var, hh, process_zero, limbRegs_limbs_zero]
  rfl

/-- A MACWRITE of one block of zero bytes on slots that have absorbed nothing. -/
theorem macwriteState_zeroBlock {sel : Fin 4} {var : Variant} {mod : Bool} {key : Vector Word 16} {n : Fin 128} {s : State}
    (hs : SelectedAbsorbed sel var mod key [] s) (hdbuf : s.dbuf = pieceRegs []) (hn : n.val = blockBytes var)
    (m : Fin 2) : macOf (macwriteState sel n s) m = macOf s m := by
  rw [macOf_macwriteState]
  split
  · next hm => rw [hs m hm, absorb_nil, hdbuf, byteSlice_pieceRegs_nil, hn, absorb_zeroBlock]
  · rfl

theorem zeroBlockLength_eq (var : Fin 4) :
    (if var = 0 then 16 else 24 : Fin 128).val = blockBytes (variantOfField var) := by
  unfold variantOfField
  split <;> rfl

/-- Settles O50: each selected slot is fresh and absorbs a block of value 0. -/
theorem leadingZeroBlockIsAbsorbedWithoutTrace : Obligations.LeadingZeroBlockIsAbsorbedWithoutTrace := by
  intro sel var mod s hsel hvar hmod
  have hinit := exec_macinit (decide_eq_true ⟨hsel, hvar, hmod⟩ : (Instr.macinit sel var mod).wellFormed = true) s
  have hlen := zeroBlockLength_eq var
  generalize (if var = 0 then 16 else 24 : Fin 128) = n at hlen ⊢
  have hwrite : (Instr.macwrite sel n).wellFormed = true :=
    decide_eq_true ⟨hsel, hlen.trans_le ((blockBytes_le _).trans (by decide))⟩
  have hloaded : SelectedAbsorbed sel (variantOfField var) mod s.key []
      { macinitState sel var mod s with code := .ok, dbuf := pieceRegs [] } := selectedAbsorbed_macinit sel var mod s
  have hslot := macwriteState_zeroBlock hloaded rfl hlen
  have hload : runHost ([cmd (.macinit sel var mod)] ++ loadData [] ++ [cmd (.macwrite sel n)]) s =
      runHost [cmd (.macwrite sel n)] { macinitState sel var mod s with code := .ok, dbuf := pieceRegs [] } := by
    rw [List.append_assoc, List.singleton_append, runHost_cmd hinit, runHost_loadData]
  have hrun := hload.trans (runHost_cmd (exec_macwrite hwrite hloaded.active))
  exact ⟨_, _, (runHost_cmd hinit).trans (runHost_nil _), hrun.trans (runHost_nil _), rfl, hslot 0, hslot 1⟩

/-! ### SEL = 3 -/

theorem updateSelected_three (f : Fin 2 → MacInst → MacInst) (s : State) :
    updateSelected 3 f s = updateSelected 2 f (updateSelected 1 f s) := rfl

/-- 47_dual_mac.md R292: the slots do not see each other. -/
theorem macinitState_three (var : Fin 4) (mod : Bool) (s : State) :
    macinitState 3 var mod s = macinitState 2 var mod (macinitState 1 var mod s) :=
  updateSelected_three ..

theorem macwriteState_three (n : Fin 128) (s : State) : macwriteState 3 n s = macwriteState 2 n (macwriteState 1 n s) :=
  updateSelected_three ..

/-- 46_mac.md R268: absorbing leaves a slot Active. -/
theorem selectedActive_macwriteState {sel : Fin 4} (sel' : Fin 4) (n : Fin 128) {s : State} (h : SelectedActive sel s) :
    SelectedActive sel (macwriteState sel' n s) := by
  intro m hm
  rw [macOf_macwriteState]
  split
  · rw [absorb_configured, absorb_finalized]
    exact h m hm
  · exact h m hm

/-- Settles O53: what the second single command reads, the first has left alone. -/
theorem bothSelectedEqualsOneAfterTheOther : Obligations.BothSelectedEqualsOneAfterTheOther := by
  refine ⟨fun var mod s hvar hmod => ?macinit, fun n s hn hact => ?macwrite⟩
  case macinit =>
    have hexec (sel : Fin 4) (hsel : sel ≠ 0) (u : State) :
        exec (.macinit sel var mod) u = completes (macinitState sel var mod u) :=
      exec_macinit (decide_eq_true ⟨hsel, hvar, hmod⟩) u
    rw [runHost_cmd (hexec 3 (by decide) s), runHost_cmd (hexec 1 (by decide) s), runHost_cmd (hexec 2 (by decide) _),
      macinitState_three]
    rfl
  case macwrite =>
    have hexec (sel : Fin 4) (hsel : sel ≠ 0) {u : State} (hu : SelectedActive sel u) :
        exec (.macwrite sel n) u = completes (macwriteState sel n u) :=
      exec_macwrite (decide_eq_true ⟨hsel, hn⟩) hu
    have h1 : SelectedActive 1 s := fun m _ => hact m (selected_three m)
    have h2 : SelectedActive 2 { macwriteState 1 n s with code := .ok } :=
      selectedActive_macwriteState 1 n fun m _ => hact m (selected_three m)
    rw [runHost_cmd (hexec 3 (by decide) hact), runHost_cmd (hexec 1 (by decide) h1), runHost_cmd (hexec 2 (by decide) h2),
      macwriteState_three]
    rfl

end Sys2Proof.Claims
end
